-- ==== Sys2Proof/Word.lean ====
section
/-!
DEFINITION. The two word types of the BitPacker block: its registers and command words are 32 bits wide
(spec/00_scope.md R8, R10) and its memory is a space of bytes (spec/20_memory.md R46).
-/
namespace Sys2Proof

/-- A register value or a command word: an unsigned 32-bit integer `u32` (R10). Bit 0 is the least significant (R11). -/
abbrev Word := BitVec 32

/-- One byte of memory, or one channel of a pixel: 8 bits, unsigned (R7, R46). -/
abbrev Byte := BitVec 8

end Sys2Proof
end

