-- ==== Sys2Proof/Syntax.lean ====
section
/-!
DEFINITION. The command set of the block: one constructor for each row of spec/opcode_table.json.
-/
namespace Sys2Proof

/-- The four commands (spec/30_encoding.md R66). A command word holds no register numbers and no immediates: the operands
are fixed registers (R65), so the constructors carry nothing. -/
inductive Instr where
  /-- NOP: does nothing, and completes (spec/40_commands.md R80). -/
  | nop
  /-- LAYOUT: the grid dimensions for the bit length in BIT_LEN (spec/43_layout.md R102). -/
  | layout
  /-- PACK: the payload in memory becomes a grid buffer in memory (spec/41_bitpacker.md R84). -/
  | pack
  /-- UNPACK: a grid buffer in memory becomes a byte stream in memory (spec/42_bitunpacker.md R95). -/
  | unpack
  deriving DecidableEq, Repr

end Sys2Proof
end

