-- ==== Sys2Proof/Decode.lean ====
section
/-!
DEFINITION. The total decoder of the 32-bit command word, rejecting by name (spec/30_encoding.md R64, R67, R68), the encoder
(R66), and the host's entry to the decoder. A command is one whole register write, so it has no byte order (R64, R37).
-/
namespace Sys2Proof

/-- Field OP, bits 7:0 (R64). -/
def commandOp (w : Word) : BitVec 8 := w.extractLsb' 0 8

/-- Field RSV, bits 31:8 (R64). -/
def commandRsv (w : Word) : BitVec 24 := w.extractLsb' 8 24

/-- Why a word selects no command: the two lines of `decode` that return ILLEGAL (R67). -/
inductive IllegalWord where
  /-- RSV is not zero. -/
  | reservedBits (rsv : BitVec 24)
  /-- RSV is zero and OP is `0x04` to `0xFF`. -/
  | unassignedOp (op : BitVec 8)
  deriving DecidableEq, Repr

/-- The outcome of decoding: a command, or ILLEGAL with its reason. -/
inductive Decoded where
  | command (i : Instr)
  | illegal (why : IllegalWord)
  deriving DecidableEq, Repr

/-- Decoding is a function of the word alone, never of the phase or of a register (R64, R67). -/
def decode (w : Word) : Decoded :=
  if commandRsv w ≠ 0#24 then .illegal (.reservedBits (commandRsv w))
  else if commandOp w = 0x00#8 then .command .nop
  else if commandOp w = 0x01#8 then .command .layout
  else if commandOp w = 0x02#8 then .command .pack
  else if commandOp w = 0x03#8 then .command .unpack
  else .illegal (.unassignedOp (commandOp w))

/-- The command, where the word selects one. -/
def Decoded.instr? : Decoded → Option Instr
  | .command i => some i
  | .illegal _ => none

/-- The command word of each command (R66). -/
def encode : Instr → Word
  | .nop => 0x00000000#32
  | .layout => 0x00000001#32
  | .pack => 0x00000002#32
  | .unpack => 0x00000003#32

/-- What the decoder reads from a table word of `nbits` bits, bit 0 the least significant. Bits above `nbits` are zero, and
a number that does not fit the one 32-bit format (R64) is no command. -/
def decodeTableWord (nbits w : Nat) : Option Instr :=
  if w % 2 ^ nbits < 2 ^ 32 then (decode (BitVec.ofNat 32 (w % 2 ^ nbits))).instr? else none

end Sys2Proof
end

