-- ==== Sys2Proof/Config.lean ====
section
/-!
DEFINITION. What the platform fixes (the three parameters of spec/00_scope.md R9), the values the spec fixes,
and the one free value of the model.
-/
namespace Sys2Proof

/-- The parameters the spec leaves to the platform and hands to the model as arguments (R9; 93_implementation_defined.md
U1 to U3). They are data of every state and no step changes them, so a statement about every state is a statement about
every platform. -/
structure Platform where
  /-- `REG_BASE`: the host address of register offset 0x00. -/
  regBase : Nat
  /-- `MEM_SIZE`: how many bytes the engine reaches; addresses `0` to `memSize - 1` exist. -/
  memSize : Nat
  /-- `HOST_COHERENT`: the host's ordinary accesses and the engine's port see one coherent memory. -/
  hostCoherent : Bool
  deriving DecidableEq, Repr

/-- The value every read of ID gives (spec/10_state.md R23). -/
def Config.idValue : Word := 0x42504B01#32

/-- The free bytes, one for each draw: what a raced command leaves at a destination address (spec/20_memory.md R59: "Model it as
any 8-bit value, a free draw per byte", log entry 5), and what a host reads from memory when `HOST_COHERENT` is false (log
entry 3). It has no body: nothing can be proved of its values. -/
opaque Config.freeByte : Nat → Byte

/-- The platform of `State.reset`: `MEM_SIZE` is the one the spec's test vectors use. DESIGN CHOICE, log entry 1; no
statement rests on it, because statements speak of every platform. -/
def Config.referencePlatform : Platform :=
  { regBase := 0, memSize := 0x10000, hostCoherent := true }

end Sys2Proof
end

