-- ==== Sys2Proof/Machine/State.lean ====
section
/-!
DEFINITION. The state of one BitPacker block and of the memory it shares with its host, as plain data (spec/10_state.md R18 to
R45, spec/20_memory.md R46), what the outside world can do to it (R72, R79), the reasons a step can stop, and the state after
reset.
-/
namespace Sys2Proof.Machine

/-- The value of STATUS.ERRCODE: the codes of spec/60_exceptions.md R108. Codes 5 to 15 are never produced, so they have no
constructor. -/
inductive ErrCode where
  /-- 0 NONE. -/
  | noError
  /-- 1 ILLEGAL_CMD: the command word decodes to ILLEGAL. -/
  | illegalCmd
  /-- 2 SRC_RANGE: the source region is not in range. -/
  | srcRange
  /-- 3 DST_RANGE: the destination region is not in range. -/
  | dstRange
  /-- 4 OVERLAP: the source and destination regions overlap. -/
  | overlap
  deriving DecidableEq, Repr

/-- The registers of the map (R22). Offsets 0x30 to 0x3C are reserved and hold nothing (R36), so they are no constructor. -/
inductive Reg where
  | id | ctrl | status | cmd | srcAddr | srcLen | dstAddr | bitLen | width | height | pixCount | padBits
  deriving DecidableEq, Repr

/-- The engine's progress through the command in flight (R43). Bytes are named by their offset in the region, in rising order
without repeats. -/
structure Progress where
  /-- Source bytes the engine has read. -/
  read : List Nat
  /-- Destination bytes the engine has written. -/
  written : List Nat
  /-- Whether the host has written a byte of the command's source or destination region since acceptance
  (spec/20_memory.md R59). -/
  raced : Bool
  deriving DecidableEq, Repr

/-- No byte read or written yet: the progress at acceptance. -/
def Progress.fresh : Progress := { read := [], written := [], raced := false }

/-- The engine phase (R21); the progress exists only while BUSY (R43). -/
inductive Engine where
  | idle
  | busy (p : Progress)
  deriving DecidableEq, Repr

/-- One step of one of the two agents (spec/40_commands.md R72), or the reset input (spec/70_reset_and_hazards.md R124). -/
inductive Action where
  /-- A host read of `size` bytes at host address `addr` of the register window (R37). -/
  | regRead (addr size : Nat)
  /-- A host write of `size` bytes at host address `addr`; `v` is the value of a 32-bit write, and no other width has an
  effect (R37). -/
  | regWrite (addr size : Nat) (v : Word)
  /-- A host read of one byte of memory. -/
  | memRead (addr : Nat)
  /-- A host write of one byte arrives at memory (spec/20_memory.md R56). Another block's write is one too
  (spec/60_exceptions.md R121). Log entry 3. -/
  | memWrite (addr : Nat) (v : Byte)
  /-- The reset input is asserted (R124). -/
  | reset
  /-- The engine reads byte `k` of the source region. -/
  | engineRead (k : Nat)
  /-- The engine writes byte `k` of the destination region. -/
  | engineWrite (k : Nat)
  /-- The engine does what is left of the command and completes it. -/
  | engineFinish
  deriving DecidableEq, Repr

/-- What a host read returned. -/
inductive Answer where
  /-- A 32-bit aligned read of the register window. -/
  | word (v : Word)
  /-- Any other read that covers `n` bytes of the window: 0 in every byte (R37). -/
  | zeros (n : Nat)
  /-- A read outside the window: not an access to this block (R36). -/
  | notThisBlock
  /-- A read of one byte of memory. -/
  | byte (v : Byte)
  deriving DecidableEq, Repr

/-- The state. ID is hard-wired (R23, R42) and reads as `Config.idValue`, so it takes no field; the reserved bits of CTRL,
STATUS and PAD_BITS are RAZ/WI and take none either; STATUS.BUSY is the engine phase (R21). -/
structure State where
  /-- The platform's parameters (spec/00_scope.md R9): no step changes them. -/
  platform : Platform
  /-- The engine phase and the progress through the command in flight (R21, R43). -/
  engine : Engine
  /-- CTRL.IRQ_EN (R24). -/
  irqEn : Bool
  /-- STATUS.DONE (R25). -/
  done : Bool
  /-- STATUS.ERR (R25). -/
  err : Bool
  /-- STATUS.WIGN (R25). -/
  wign : Bool
  /-- STATUS.ERRCODE (R25). -/
  errCode : ErrCode
  /-- CMD: the last accepted command word (R27). -/
  cmd : Word
  /-- SRC_ADDR (R28). -/
  srcAddr : Word
  /-- SRC_LEN (R29). -/
  srcLen : Word
  /-- DST_ADDR (R30). -/
  dstAddr : Word
  /-- BIT_LEN (R31). -/
  bitLen : Word
  /-- WIDTH (R32). -/
  width : Word
  /-- HEIGHT (R33). -/
  height : Word
  /-- PIX_COUNT (R34). -/
  pixCount : Word
  /-- PAD_BITS, bits 4:0 (R35). -/
  padBits : BitVec 5
  /-- The memory the engine reaches (spec/20_memory.md R46): listed bytes at rising addresses. -/
  mem : List Host.Cell
  /-- The model's own: what the agents do next, oldest first. It stands for every order in which host and engine may be
  scheduled (spec/40_commands.md R72). Log entry 2. -/
  schedule : List Action
  /-- The model's own: what the host's reads returned, oldest first. -/
  answers : List Answer
  /-- The model's own: how many free bytes have been drawn (spec/20_memory.md R59; 93_implementation_defined.md U3). Log
  entries 3 and 5. -/
  draws : Nat
  deriving DecidableEq, Repr

/-- Why a step stops with a fault. No command stops: an error is reported in STATUS and the block never hangs
(spec/60_exceptions.md R107). -/
inductive Fault where
  /-- Raised by a host access to a memory address at or above `MEM_SIZE`, which does not exist (spec/20_memory.md R46). Safe:
  the model stops where the spec says nothing. Log entry 4. -/
  | noSuchMemory (addr : Nat)
  deriving DecidableEq, Repr

/-- Why a step is refused. No step of this machine is. -/
inductive Refusal where
  /-- Raised by an arm of `exec` whose instruction has no meaning yet; no arm is left that raises it. Safe. -/
  | notModelled (mnemonic : String)
  deriving DecidableEq, Repr

/-- The state after reset on platform `p` when memory holds `m`: every register at its reset value (R45), the engine idle, and
memory whatever it was (spec/70_reset_and_hazards.md R126), with nothing scheduled. -/
def State.resetOn (p : Platform) (m : List Host.Cell) : State where
  platform := p
  engine := .idle
  irqEn := false
  done := false
  err := false
  wign := false
  errCode := .noError
  cmd := 0#32
  srcAddr := 0#32
  srcLen := 0#32
  dstAddr := 0#32
  bitLen := 0#32
  width := 0#32
  height := 0#32
  pixCount := 0#32
  padBits := 0#5
  mem := m
  schedule := []
  answers := []
  draws := 0

/-- The machine right after reset, on the reference platform (log entry 1) and with no byte of memory listed (log entry 6).
Statements about reset use `State.resetOn`, for every platform and every memory. -/
def State.reset : State := State.resetOn Config.referencePlatform []

end Sys2Proof.Machine
end

