-- ==== Sys2Proof/Machine/Ops.lean ====
section
/-!
DEFINITION. The named operations over memory and registers: one byte of memory read and written (spec/20_memory.md R46, R52),
regions and their checks (R47, spec/60_exceptions.md R109, R110), acceptance, the success completion and the error
completion (spec/40_commands.md R73, R75, spec/60_exceptions.md R111).
-/
namespace Sys2Proof.Machine

/-! ### Memory -/

/-- `MemRead(addr, 1)` (spec/00_scope.md R14). A byte that is not listed reads as 0 (log entry 6). -/
def memRead : List Host.Cell → Nat → Byte
  | [], _ => 0#8
  | c :: m, a => if a = c.1 then c.2 else memRead m a

/-- `MemWrite(addr, 1, v)` (R14). Addresses stay rising, and a byte that is not listed is one that holds 0. -/
def memWrite : List Host.Cell → Nat → Byte → List Host.Cell
  | [], a, v => if v = 0#8 then [] else [(a, v)]
  | c :: m, a, v =>
    if a < c.1 then (if v = 0#8 then c :: m else (a, v) :: c :: m)
    else if a = c.1 then (if v = 0#8 then m else (a, v) :: m)
    else c :: memWrite m a v

/-- Single-byte writes, one after the other. -/
def memWriteAll (m : List Host.Cell) (cells : List Host.Cell) : List Host.Cell :=
  cells.foldl (fun m c => memWrite m c.1 c.2) m

/-- The canonical form of a memory: addresses strictly rise and no listed byte is 0. -/
def Memory.wf : List Host.Cell → Bool
  | [] => true
  | c :: m => decide (c.2 ≠ 0#8) && m.all (fun d => decide (c.1 < d.1)) && Memory.wf m

/-- The `n` bytes from address `a` up. -/
def readBytes (m : List Host.Cell) (a n : Nat) : List Byte :=
  (List.range n).map (fun k => memRead m (a + k))

/-! ### Regions -/

/-- A region: the bytes `[start, start + len)` (R47). -/
structure Region where
  start : Nat
  len : Nat
  deriving DecidableEq, Repr

/-- `in_range` (R47): the sum does not wrap. -/
def inRange (memSize : Nat) (r : Region) : Bool :=
  decide (r.len = 0) || decide (r.start + r.len ≤ memSize)

/-- `overlap` (R47). -/
def overlaps (r q : Region) : Bool :=
  decide (0 < r.len) && decide (0 < q.len) && decide (r.start < q.start + q.len) && decide (q.start < r.start + r.len)

/-- Whether address `a` is a byte of the region. -/
def Region.holds (r : Region) (a : Nat) : Bool :=
  decide (r.start ≤ a) && decide (a < r.start + r.len)

/-- The source and destination region of a PACK or an UNPACK (spec/60_exceptions.md R109). -/
structure Regions where
  src : Region
  dst : Region
  deriving DecidableEq, Repr

/-- `check(src, dst)`, in the order of R109 and R110; `noError` says that every check passes. -/
def checkRegions (memSize : Nat) (r : Regions) : ErrCode :=
  if inRange memSize r.src = false then .srcRange
  else if inRange memSize r.dst = false then .dstRange
  else if overlaps r.src r.dst = true then .overlap
  else .noError

/-! ### Progress -/

/-- Adds an offset to a rising list of offsets. -/
def insertOffset (k : Nat) : List Nat → List Nat
  | [] => [k]
  | j :: l => if k < j then k :: j :: l else if k = j then j :: l else j :: insertOffset k l

/-- Whether the engine is in phase BUSY (R21). -/
def State.busy (s : State) : Bool :=
  match s.engine with
  | .idle => false
  | .busy _ => true

/-- The progress through the command in flight; none has been made when idle. -/
def State.progress (s : State) : Progress :=
  match s.engine with
  | .idle => Progress.fresh
  | .busy p => p

/-- The offsets below `n` the engine has still to write. -/
def remainingOffsets (n : Nat) (written : List Nat) : List Nat :=
  (List.range n).filter (fun k => !written.contains k)

/-- Free bytes for the destination bytes at `offsets`, the first from draw `first` on (R59). -/
def drawnCells (start first : Nat) (offsets : List Nat) : List Host.Cell :=
  offsets.mapIdx (fun j k => (start + k, Config.freeByte (first + j)))

/-- The final values `bytes` for the destination bytes at `offsets`. -/
def valueCells (start : Nat) (bytes : List Byte) (offsets : List Nat) : List Host.Cell :=
  offsets.map (fun k => (start + k, bytes.getD k 0#8))

/-! ### The command's steps -/

/-- Acceptance of command word `v` (spec/40_commands.md R73). -/
def acceptCommand (v : Word) (s : State) : State :=
  { s with cmd := v, engine := .busy Progress.fresh, done := false, err := false, errCode := .noError }

/-- The STATUS part of the success completion (R75); the results are written first, by the command. -/
def completeOk (s : State) : State :=
  { s with engine := .idle, done := true }

/-- The error completion `raise Error(code)`, the block's whole trap entry (spec/60_exceptions.md R111). There is no return
from it (R112): the host acknowledges it by W1C. -/
def raiseError (code : ErrCode) (s : State) : State :=
  { s with errCode := code, err := true, done := true, engine := .idle }

/-- The rest of the memory actions of a PACK or UNPACK that passed its checks: every destination byte not yet written is
written, with its final value, or with a free byte if the host raced the command (spec/20_memory.md R58, R59). -/
def writeRemaining (dst : Region) (bytes : List Byte) (s : State) : State :=
  let offsets := remainingOffsets dst.len s.progress.written
  if s.progress.raced then
    { s with mem := memWriteAll s.mem (drawnCells dst.start s.draws offsets), draws := s.draws + offsets.length }
  else
    { s with mem := memWriteAll s.mem (valueCells dst.start bytes offsets) }

end Sys2Proof.Machine
end

