-- ==== Sys2Proof/Machine/Grid.lean ====
section
/-!
DEFINITION. The packing and unpacking functions at bit level (spec/41_bitpacker.md R81 to R83, spec/42_bitunpacker.md R93), the
layout function (spec/43_layout.md R101) and the pixel word (spec/20_memory.md R49), as functions of plain data.
-/
namespace Sys2Proof.Machine

/-! ### Bits and integers (spec/00_scope.md R11, R12) -/

/-- `bits8(v)`: 8 bits, position 0 the most significant. -/
def bits8 (v : Byte) : List Bool := (List.range 8).map (fun p => v.getMsbD p)

/-- `int(s)`: the first bit is the most significant. -/
def intOfBits (s : List Bool) : Nat := s.foldl (fun n b => 2 * n + b.toNat) 0

/-- `s[i:j)`: positions `i` to `j - 1`. -/
def slice (s : List Bool) (i j : Nat) : List Bool := (s.drop i).take (j - i)

/-! ### The layout function -/

/-- `ceil_div(a, b)` (spec/00_scope.md R10). -/
def ceilDiv (a b : Nat) : Nat := (a + b - 1) / b

/-- One base-4 digit of the integer square root: `r` is the root of the higher digits, doubled. -/
def isqrtDigit (n r : Nat) : Nat := if (r + 1) * (r + 1) ≤ n then r + 1 else r

/-- The integer square root of a number of at most `fuel` base-4 digits. -/
def isqrtFuel : Nat → Nat → Nat
  | 0, _ => 0
  | fuel + 1, n => isqrtDigit n (2 * isqrtFuel fuel (n / 4))

/-- `isqrt(n)`: the greatest integer `m` with `m * m <= n` (R10). -/
def isqrt (n : Nat) : Nat := isqrtFuel (n.log2 + 1) n

/-- What the layout function answers (R101). -/
structure Layout where
  pixCount : Nat
  width : Nat
  height : Nat
  padBits : Nat
  deriving DecidableEq, Repr

/-- `padding_length` for a bit length (R81, R101). -/
def padLength (n : Nat) : Nat := (32 - n % 32) % 32

/-- `layout_fn(n)` (R101). -/
def layoutFn (n : Nat) : Layout :=
  { pixCount := ceilDiv n 32
    width := isqrt (ceilDiv n 32) + 1
    height := isqrt (ceilDiv n 32) + 1
    padBits := padLength n }

/-! ### Pixels -/

/-- A pixel `(R, G, B, A)` (R7). -/
structure Pixel where
  r : Byte
  g : Byte
  b : Byte
  a : Byte
  deriving DecidableEq, Repr

/-- The slack pixel `(0, 0, 0, 0)` (R83). -/
def Pixel.zero : Pixel := { r := 0#8, g := 0#8, b := 0#8, a := 0#8 }

/-- Channel `j` of `[R, G, B, A]`, for `j` from 0 to 3 (R85). -/
def Pixel.channel (p : Pixel) (j : Nat) : Byte :=
  if j = 0 then p.r else if j = 1 then p.g else if j = 2 then p.b else p.a

/-- The pixel word `{R, G, B, A}` (spec/20_memory.md R49). -/
def Pixel.word (p : Pixel) : Word := p.r ++ p.g ++ p.b ++ p.a

/-! ### The packing function (R81 to R83) -/

/-- `bits(P)`: each byte most significant bit first, bytes in order. -/
def payloadBits (P : List Byte) : List Bool := P.flatMap bits8

/-- `padded(P)`. -/
def paddedBits (P : List Byte) : List Bool :=
  payloadBits P ++ List.replicate (padLength (8 * P.length)) false

/-- `chunk(P, j)`. -/
def chunk (P : List Byte) (j : Nat) : List Bool := slice (paddedBits P) (32 * j) (32 * j + 32)

/-- The pixel of a chunk: four 8-bit groups, R first (R82). -/
def pixelOfChunk (c : List Bool) : Pixel :=
  { r := BitVec.ofNat 8 (intOfBits (slice c 0 8))
    g := BitVec.ofNat 8 (intOfBits (slice c 8 16))
    b := BitVec.ofNat 8 (intOfBits (slice c 16 24))
    a := BitVec.ofNat 8 (intOfBits (slice c 24 32)) }

/-- `cell(P, i)`: the pixels row-major from cell (0,0), then slack (R83). -/
def packCell (P : List Byte) (i : Nat) : Pixel :=
  if i < (layoutFn (8 * P.length)).pixCount then pixelOfChunk (chunk P i) else Pixel.zero

/-- Byte `k` of the grid buffer of `P`: channel `k mod 4` of cell `k / 4` (R85, spec/20_memory.md R48). -/
def packByte (P : List Byte) (k : Nat) : Byte := (packCell P (k / 4)).channel (k % 4)

/-- The number of cells `N = w * h` of the grid of a payload of `L` bytes (R83). -/
def packCells (L : Nat) : Nat := (layoutFn (8 * L)).width * (layoutFn (8 * L)).height

/-- The whole grid buffer of `P`, as bytes. -/
def packBytes (P : List Byte) : List Byte := (List.range (4 * packCells P.length)).map (packByte P)

/-! ### The unpacking function (R93) -/

/-- The `n` pixels of the grid buffer at `g` (spec/20_memory.md R48). -/
def readGrid (m : List Host.Cell) (g n : Nat) : List Pixel :=
  (List.range n).map (fun i =>
    { r := memRead m (g + 4 * i), g := memRead m (g + 4 * i + 1),
      b := memRead m (g + 4 * i + 2), a := memRead m (g + 4 * i + 3) })

/-- `unpack_bits(grid)`: every cell's channels in order. -/
def unpackBits (grid : List Pixel) : List Bool :=
  grid.flatMap (fun p => bits8 p.r ++ bits8 p.g ++ bits8 p.b ++ bits8 p.a)

/-- `unpack_bytes(grid)[k]`. -/
def unpackByte (grid : List Pixel) (k : Nat) : Byte :=
  BitVec.ofNat 8 (intOfBits (slice (unpackBits grid) (8 * k) (8 * k + 8)))

/-- `unpack_bytes(grid)`. -/
def unpackBytes (grid : List Pixel) : List Byte :=
  (List.range (4 * grid.length)).map (unpackByte grid)

end Sys2Proof.Machine
end

