-- ==== Sys2Proof/Machine/Operands.lean ====
section
/-!
DEFINITION. The operands of each command (spec/30_encoding.md R65, spec/60_exceptions.md R109), read whole from the operand
registers as unsigned integers, the final bytes of a destination, and the four result registers.
-/
namespace Sys2Proof.Machine

/-- The regions of PACK: `L` bytes from SRC_ADDR, and the grid buffer of `4 * w * h` bytes at DST_ADDR (R84, R109). -/
def packRegions (s : State) : Regions :=
  { src := { start := s.srcAddr.toNat, len := s.srcLen.toNat }
    dst := { start := s.dstAddr.toNat, len := 4 * packCells s.srcLen.toNat } }

/-- The payload of PACK: the bytes of its source region. -/
def payload (s : State) : List Byte := readBytes s.mem s.srcAddr.toNat s.srcLen.toNat

/-- The cells of UNPACK's grid: `N = W * H`, exact (R95). -/
def unpackCells (s : State) : Nat := s.width.toNat * s.height.toNat

/-- The regions of UNPACK: the grid buffer at SRC_ADDR and the byte stream at DST_ADDR, `4 * N` bytes each (R95, R109). -/
def unpackRegions (s : State) : Regions :=
  { src := { start := s.srcAddr.toNat, len := 4 * unpackCells s }
    dst := { start := s.dstAddr.toNat, len := 4 * unpackCells s } }

/-- The regions a command has. NOP and LAYOUT reach no memory (spec/20_memory.md R46). -/
def commandRegions (i : Instr) (s : State) : Option Regions :=
  match i with
  | .nop => none
  | .layout => none
  | .pack => some (packRegions s)
  | .unpack => some (unpackRegions s)

/-- The final values of a command's destination bytes (R85, R96). -/
def finalBytes (i : Instr) (s : State) : List Byte :=
  match i with
  | .nop => []
  | .layout => []
  | .pack => packBytes (payload s)
  | .unpack => unpackBytes (readGrid s.mem s.srcAddr.toNat (unpackCells s))

/-- The result registers of LAYOUT and PACK (R84, R102). Every value fits its register (R88, R103). -/
def setResults (l : Layout) (s : State) : State :=
  { s with
    pixCount := BitVec.ofNat 32 l.pixCount
    width := BitVec.ofNat 32 l.width
    height := BitVec.ofNat 32 l.height
    padBits := BitVec.ofNat 5 l.padBits }

/-- The command in flight, where its word selects one. -/
def runningCommand (s : State) : Option Instr :=
  match s.engine with
  | .idle => none
  | .busy _ => (decode s.cmd).instr?

/-- The regions of the command in flight, checked or not. -/
def runningRegions (s : State) : Option Regions :=
  match runningCommand s with
  | none => none
  | some i => commandRegions i s

/-- The command in flight and its regions, where it passes its checks: only then does it reach memory
(spec/40_commands.md R74). -/
def activeTransfer (s : State) : Option (Instr × Regions) :=
  match runningCommand s with
  | none => none
  | some i =>
    match commandRegions i s with
    | none => none
    | some r => if checkRegions s.platform.memSize r = .noError then some (i, r) else none

end Sys2Proof.Machine
end

