-- ==== Sys2Proof/Machine/Layout.lean ====
section
/-!
DEFINITION. The meaning of LAYOUT (spec/43_layout.md R102).
-/
namespace Sys2Proof.Machine

/-- LAYOUT: the layout function of BIT_LEN, written to the result registers; total, and without a memory access (R102). -/
def execLayout (s : State) : Host.Outcome State Fault Refusal :=
  .next (completeOk (setResults (layoutFn s.bitLen.toNat) s))

end Sys2Proof.Machine
end

