-- ==== Sys2Proof/Machine/Nop.lean ====
section
/-!
DEFINITION. The meaning of NOP (spec/40_commands.md R80).
-/
namespace Sys2Proof.Machine

/-- NOP: `complete_ok([])` (R80). -/
def execNop (s : State) : Host.Outcome State Fault Refusal := .next (completeOk s)

end Sys2Proof.Machine
end

