-- ==== Sys2Proof/Machine/Pack.lean ====
section
/-!
DEFINITION. The meaning of PACK (spec/41_bitpacker.md R84, R85).
-/
namespace Sys2Proof.Machine

/-- PACK: the checks come first (R84), then what is left of the memory actions (R85), then the completion with the results. -/
def execPack (s : State) : Host.Outcome State Fault Refusal :=
  if checkRegions s.platform.memSize (packRegions s) = .noError then
    .next (completeOk (setResults (layoutFn (8 * s.srcLen.toNat))
      (writeRemaining (packRegions s).dst (finalBytes .pack s) s)))
  else .next (raiseError (checkRegions s.platform.memSize (packRegions s)) s)

end Sys2Proof.Machine
end

