-- ==== Sys2Proof/Machine/Unpack.lean ====
section
/-!
DEFINITION. The meaning of UNPACK (spec/42_bitunpacker.md R95, R96).
-/
namespace Sys2Proof.Machine

/-- UNPACK: the checks come first (R95), then what is left of the memory actions (R96), then the completion; no result
register is written. -/
def execUnpack (s : State) : Host.Outcome State Fault Refusal :=
  if checkRegions s.platform.memSize (unpackRegions s) = .noError then
    .next (completeOk (writeRemaining (unpackRegions s).dst (finalBytes .unpack s) s))
  else .next (raiseError (checkRegions s.platform.memSize (unpackRegions s)) s)

end Sys2Proof.Machine
end

