-- ==== Sys2Proof/Machine/Engine.lean ====
section
/-!
DEFINITION. The steps of the engine agent (spec/40_commands.md R72, R74, spec/20_memory.md R58): single-byte reads and writes in
any order the schedule gives, and the step that does the rest and completes.
-/
namespace Sys2Proof.Machine

/-- What the engine does for the word in CMD, up to and with its completion (R74). An idle engine takes no step
(spec/60_exceptions.md R123). -/
def runCommand (s : State) : Host.Outcome State Fault Refusal :=
  match s.engine with
  | .idle => .next s
  | .busy _ =>
    match decode s.cmd with
    | .command i => exec i s
    | .illegal _ => .next (raiseError .illegalCmd s)

/-- One engine read of byte `k` of the source region. It changes only the progress (spec/20_memory.md R53); where the engine has
no such step to take, nothing happens. -/
def engineRead (k : Nat) (s : State) : State :=
  match s.engine, activeTransfer s with
  | .busy p, some (_, r) =>
    if k < r.src.len then { s with engine := .busy { p with read := insertOffset k p.read } } else s
  | _, _ => s

/-- Whether the engine may write destination byte `k` now: it is a byte of the region, it is not yet written, and the source
byte it is computed from has been read (R58). -/
def mayWrite (k : Nat) (r : Regions) (p : Progress) : Bool :=
  decide (k < r.dst.len) && !p.written.contains k && (decide (r.src.len ≤ k) || p.read.contains k)

/-- One engine write of byte `k` of the destination region, with its final value, or with a free byte if the host raced the
command (R58, R59). Where the engine has no such step to take, nothing happens. -/
def engineWrite (k : Nat) (s : State) : State :=
  match s.engine, activeTransfer s with
  | .busy p, some (i, r) =>
    if mayWrite k r p then
      if p.raced then
        { s with
          mem := memWrite s.mem (r.dst.start + k) (Config.freeByte s.draws)
          draws := s.draws + 1
          engine := .busy { p with written := insertOffset k p.written } }
      else
        { s with
          mem := memWrite s.mem (r.dst.start + k) ((finalBytes i s).getD k 0#8)
          engine := .busy { p with written := insertOffset k p.written } }
    else s
  | _, _ => s

end Sys2Proof.Machine
end

