-- ==== Sys2Proof/Machine/Flags.lean ====
section
/-!
DEFINITION. The flags: the words CTRL and STATUS read as, the write-1-to-clear write of STATUS, and the `irq` output
(spec/10_state.md R24 to R26, R40, R41).
-/
namespace Sys2Proof.Machine

/-- The number of an error code (spec/60_exceptions.md R108). -/
def ErrCode.number : ErrCode → BitVec 4
  | .noError => 0#4
  | .illegalCmd => 1#4
  | .srcRange => 2#4
  | .dstRange => 3#4
  | .overlap => 4#4

/-- What STATUS reads as (R25): bits 31:12 and 7:4 are 0. -/
def statusWord (s : State) : Word :=
  0#20 ++ s.errCode.number ++ 0#4 ++ BitVec.ofBool s.wign ++ BitVec.ofBool s.err ++ BitVec.ofBool s.done ++
    BitVec.ofBool s.busy

/-- What CTRL reads as (R24): bits 31:1 are 0. -/
def ctrlWord (s : State) : Word := 0#31 ++ BitVec.ofBool s.irqEn

/-- A host write of `v` to STATUS, in either phase (R26). -/
def writeStatus (v : Word) (s : State) : State :=
  { s with
    done := s.done && !v.getLsbD 1
    err := s.err && !v.getLsbD 2
    errCode := if v.getLsbD 2 then .noError else s.errCode
    wign := s.wign && !v.getLsbD 3 }

/-- A host write of `v` to CTRL, in either phase (R24). -/
def writeCtrl (v : Word) (s : State) : State := { s with irqEn := v.getLsbD 0 }

/-- The `irq` output: it holds no state of its own (R40). -/
def State.irq (s : State) : Bool := s.irqEn && s.done

end Sys2Proof.Machine
end

