-- ==== Sys2Proof/Machine/Host.lean ====
section
/-!
DEFINITION. The steps of the host agent: accesses to the register window (spec/10_state.md R22 to R38), single-byte accesses to
memory (spec/20_memory.md R59) and the reset input (spec/70_reset_and_hazards.md R124).
-/
namespace Sys2Proof.Machine

/-- The byte offset of a register in the window (R22). -/
def Reg.offset : Reg → Nat
  | .id => 0x00
  | .ctrl => 0x04
  | .status => 0x08
  | .cmd => 0x0C
  | .srcAddr => 0x10
  | .srcLen => 0x14
  | .dstAddr => 0x18
  | .bitLen => 0x1C
  | .width => 0x20
  | .height => 0x24
  | .pixCount => 0x28
  | .padBits => 0x2C

/-- The register at an aligned offset of the window; the reserved words 0x30 to 0x3C hold none (R36). -/
def regAt : Nat → Option Reg
  | 0x00 => some .id
  | 0x04 => some .ctrl
  | 0x08 => some .status
  | 0x0C => some .cmd
  | 0x10 => some .srcAddr
  | 0x14 => some .srcLen
  | 0x18 => some .dstAddr
  | 0x1C => some .bitLen
  | 0x20 => some .width
  | 0x24 => some .height
  | 0x28 => some .pixCount
  | 0x2C => some .padBits
  | _ => none

/-- What a register reads as. A read has no side effect (spec/20_memory.md R53). -/
def readReg (s : State) : Reg → Word
  | .id => Config.idValue
  | .ctrl => ctrlWord s
  | .status => statusWord s
  | .cmd => s.cmd
  | .srcAddr => s.srcAddr
  | .srcLen => s.srcLen
  | .dstAddr => s.dstAddr
  | .bitLen => s.bitLen
  | .width => s.width
  | .height => s.height
  | .pixCount => s.pixCount
  | .padBits => s.padBits.setWidth 32

/-- A write that the phase locks: ignored and recorded in WIGN while BUSY, and otherwise as `idleWrite` says (R38). -/
def lockedWrite (idleWrite : State) (s : State) : State :=
  if s.busy then { s with wign := true } else idleWrite

/-- A host write of `v` to a register (R38, and R23 to R35 for each register). -/
def writeReg (r : Reg) (v : Word) (s : State) : State :=
  match r with
  | .id => s
  | .ctrl => writeCtrl v s
  | .status => writeStatus v s
  | .cmd => lockedWrite (acceptCommand v s) s
  | .srcAddr => lockedWrite { s with srcAddr := v } s
  | .srcLen => lockedWrite { s with srcLen := v } s
  | .dstAddr => lockedWrite { s with dstAddr := v } s
  | .bitLen => lockedWrite { s with bitLen := v } s
  | .width => lockedWrite { s with width := v } s
  | .height => lockedWrite { s with height := v } s
  | .pixCount => s
  | .padBits => s

/-- How an access of `size` bytes at host address `addr` meets the register window (R36, R37). -/
inductive PortAccess where
  /-- A 32-bit access at an aligned offset. -/
  | aligned (offset : Nat)
  /-- Any other access that covers `n` bytes of the window. -/
  | irregular (n : Nat)
  /-- No byte of the window is covered. -/
  | outside
  deriving DecidableEq, Repr

/-- The window is the 64 bytes from `REG_BASE` (R22); its port carries exactly 32-bit accesses at offsets that are multiples
of 4 (R37). -/
def portAccess (p : Platform) (addr size : Nat) : PortAccess :=
  if 0 < size ∧ addr < p.regBase + 0x40 ∧ p.regBase < addr + size then
    if size = 4 ∧ p.regBase ≤ addr ∧ (addr - p.regBase) % 4 = 0 then .aligned (addr - p.regBase)
    else .irregular (min (addr + size) (p.regBase + 0x40) - max addr p.regBase)
  else .outside

/-- What a host read of the window returns. -/
def portAnswer (addr size : Nat) (s : State) : Answer :=
  match portAccess s.platform addr size with
  | .aligned off =>
    match regAt off with
    | some r => .word (readReg s r)
    | none => .word 0#32
  | .irregular n => .zeros n
  | .outside => .notThisBlock

/-- A host read at the register port: the host gets the answer, and nothing else changes. -/
def hostRegRead (addr size : Nat) (s : State) : State :=
  { s with answers := s.answers ++ [portAnswer addr size s] }

/-- A host write at the register port. Only a 32-bit access at an aligned offset has an effect, and at a reserved offset not
even that (R36, R37). -/
def hostRegWrite (addr size : Nat) (v : Word) (s : State) : State :=
  match portAccess s.platform addr size with
  | .aligned off =>
    match regAt off with
    | some r => writeReg r v s
    | none => s
  | .irregular _ => s
  | .outside => s

/-- Whether address `a` is a byte of the running command's source or destination region. -/
def inRunningRegions (a : Nat) (s : State) : Bool :=
  match runningRegions s with
  | none => false
  | some r => r.src.holds a || r.dst.holds a

/-- The race of spec/20_memory.md R59: from now on the command writes free bytes, and the bytes it has already written become
free bytes too, so that the final value of every destination byte is unspecified. Log entry 5. -/
def raceCommand (s : State) : State :=
  match s.engine, runningRegions s with
  | .busy p, some r =>
    { s with
      engine := .busy { p with raced := true }
      mem := memWriteAll s.mem (drawnCells r.dst.start s.draws p.written)
      draws := s.draws + p.written.length }
  | _, _ => s

/-- A host write of one existing byte of memory. -/
def hostMemStore (a : Nat) (v : Byte) (s : State) : State :=
  if inRunningRegions a s then raceCommand { s with mem := memWrite s.mem a v }
  else { s with mem := memWrite s.mem a v }

/-- A host read of one existing byte of memory. On a coherent platform it answers the byte: one of the running command's
destination is old or final, as the engine's progress has it (R58). When `HOST_COHERENT` is false the host may read a stale
cache, and the spec lets nothing be claimed of what it reads (93_implementation_defined.md U3), so the answer is a free byte.
Log entry 3. -/
def hostMemLoad (a : Nat) (s : State) : State :=
  if s.platform.hostCoherent then { s with answers := s.answers ++ [.byte (memRead s.mem a)] }
  else { s with answers := s.answers ++ [.byte (Config.freeByte s.draws)], draws := s.draws + 1 }

/-- A host access to memory address `a`, which must exist (R46). Log entry 4. -/
def hostMemAccess (a : Nat) (s s' : State) : Host.Outcome State Fault Refusal :=
  if s.platform.memSize ≤ a then .fault (.noSuchMemory a)
  else .next s'

/-- A host read of one byte of memory. -/
def hostMemRead (a : Nat) (s : State) : Host.Outcome State Fault Refusal :=
  hostMemAccess a s (hostMemLoad a s)

/-- A host write of one byte, or another block's (spec/60_exceptions.md R121), arrives at memory (R56), whether or not the host's
caches are coherent. -/
def hostMemWrite (a : Nat) (v : Byte) (s : State) : Host.Outcome State Fault Refusal :=
  hostMemAccess a s (hostMemStore a v s)

/-- The reset input (R124): every register at its reset value, the engine idle and its progress lost; memory stays as it is,
so an abandoned command leaves the bytes it had written and no others (R125, R126). DESIGN CHOICE, log entry 19: of a raced
command, whose final values are unspecified, the bytes written so far keep their free values, and every other destination byte
keeps its old value or the host's. -/
def resetBlock (s : State) : State :=
  { State.resetOn s.platform s.mem with schedule := s.schedule, answers := s.answers, draws := s.draws }

end Sys2Proof.Machine
end

