-- ==== Sys2Proof/Machine/Step.lean ====
section
/-!
DEFINITION. One step of the machine: the next action of the schedule, or the engine's own turn when nothing is scheduled.
-/
namespace Sys2Proof.Machine

/-- What one action does. -/
def act (a : Action) (s : State) : Host.Outcome State Fault Refusal :=
  match a with
  | .regRead addr size => .next (hostRegRead addr size s)
  | .regWrite addr size v => .next (hostRegWrite addr size v s)
  | .memRead addr => hostMemRead addr s
  | .memWrite addr v => hostMemWrite addr v s
  | .reset => .next (resetBlock s)
  | .engineRead k => .next (engineRead k s)
  | .engineWrite k => .next (engineWrite k s)
  | .engineFinish => runCommand s

/-- One step (spec/40_commands.md R72). With nothing scheduled the engine has the turn, so a command in flight always
completes (R76); an idle block with nothing scheduled stays as it is. -/
def step (s : State) : Host.Outcome State Fault Refusal :=
  match s.schedule with
  | [] => runCommand s
  | a :: rest => act a { s with schedule := rest }

/-- `s` with the command word `w` accepted (spec/40_commands.md R73) and the engine's turn next, so that the next step runs
it. Log entry 7. -/
def State.withFetchWord (s : State) (nbits w : Nat) : State :=
  { acceptCommand (BitVec.ofNat 32 (w % 2 ^ nbits)) s with schedule := .engineFinish :: s.schedule }

end Sys2Proof.Machine
end

