-- ==== Sys2Proof/Machine/HostProgram.lean ====
section
/-!
DEFINITION. The host-program notation (spec/30_encoding.md R70) and the pseudo-instructions (R71) as lists of host actions. A
host's own control flow (labels and BNE) is no part of the hardware: a schedule holds the operations a host did perform.
-/
namespace Sys2Proof.Machine

/-- `WR <REG>, <value>`: the bus transaction `(W, offset, value)` (R70). -/
def wr (p : Platform) (r : Reg) (v : Word) : Action := .regWrite (p.regBase + r.offset) 4 v

/-- `RD <REG>`: the bus transaction `(R, offset, ·)` (R70). -/
def rd (p : Platform) (r : Reg) : Action := .regRead (p.regBase + r.offset) 4

/-- `MEMW <addr>, <b0> <b1> ...`: bytes at ascending addresses (R70). -/
def memw (addr : Nat) (bytes : List Byte) : List Action := bytes.mapIdx (fun k b => .memWrite (addr + k) b)

/-- `MEMR <addr>, <n>` (R70). -/
def memr (addr n : Nat) : List Action := (List.range n).map (fun k => .memRead (addr + k))

/-- `NOP` (R71). -/
def progNop (p : Platform) : List Action := [wr p .cmd 0x00000000#32]

/-- `LAYOUT n` (R71). -/
def progLayout (p : Platform) (n : Word) : List Action := [wr p .bitLen n, wr p .cmd 0x00000001#32]

/-- `PACK s, l, d` (R71). -/
def progPack (p : Platform) (s l d : Word) : List Action :=
  [wr p .srcAddr s, wr p .srcLen l, wr p .dstAddr d, wr p .cmd 0x00000002#32]

/-- `UNPACK s, w, h, d` (R71). -/
def progUnpack (p : Platform) (s w h d : Word) : List Action :=
  [wr p .srcAddr s, wr p .width w, wr p .height h, wr p .dstAddr d, wr p .cmd 0x00000003#32]

/-- `WAIT`, for a host whose loop reads STATUS `polls + 1` times (R71). -/
def progWait (p : Platform) (polls : Nat) : List Action := List.replicate (polls + 1) (rd p .status)

/-- `ACK`: clears DONE, ERR, ERRCODE and WIGN (R71). -/
def progAck (p : Platform) : List Action := [wr p .status 0x0000000E#32]

end Sys2Proof.Machine
end

