-- ==== Sys2Proof/WellFormed.lean ====
section
/-!
DEFINITION. What makes a platform and a command word well formed. Instructions carry no operands, so every `Instr` is well
formed; the checks stand on the two things that can be ill formed, a platform (spec/00_scope.md R9) and a command word
(spec/30_encoding.md R64).
-/
namespace Sys2Proof

/-- `MEM_SIZE` is an integer with `1 <= MEM_SIZE <= 2^32`, and `REG_BASE` is 4-byte aligned (R9). -/
def Platform.WellFormed (p : Platform) : Bool :=
  decide (1 ≤ p.memSize) && decide (p.memSize ≤ 2 ^ 32) && decide (p.regBase % 4 = 0)

/-- A command has no operand field that could be out of range (R65). -/
def Instr.WellFormed : Instr → Bool
  | .nop => true
  | .layout => true
  | .pack => true
  | .unpack => true

/-- A command word that selects a command: RSV, bits 31:8, is zero and OP, bits 7:0, is one of the four of the opcode map
(R64, R66). -/
def wellFormedWord (w : Word) : Bool :=
  decide (w.toNat / 256 = 0) && decide (w.toNat % 256 ≤ 3)

end Sys2Proof
end

