-- ==== Sys2Proof/Safety.lean ====
section
/-!
DEFINITION. What the statements are written in: the invariant of the machine, the conditions of a command's regions in the
spec's own arithmetic, and the parts of the state a step may leave unchanged.
-/
namespace Sys2Proof.Machine

/-- A list of offsets in rising order without repeats. -/
abbrev Rising (l : List Nat) : Prop := l.Pairwise (· < ·)

/-- The progress a command in flight can have made (spec/10_state.md R43, spec/20_memory.md R58): only a command that passed its
checks has read or written a byte, each is a byte of its region, a written byte has had its source byte read, and,
unless the host raced the command, a written byte holds its final value. -/
def ProgressOk (s : State) (p : Progress) : Prop :=
  match activeTransfer s with
  | none => p.read = [] ∧ p.written = []
  | some (i, r) =>
    Rising p.read ∧ Rising p.written ∧ (∀ k ∈ p.read, k < r.src.len) ∧
    (∀ k ∈ p.written, k < r.dst.len ∧ (k < r.src.len → k ∈ p.read)) ∧
    (p.raced = false → ∀ k ∈ p.written, memRead s.mem (r.dst.start + k) = (finalBytes i s).getD k 0#8)

/-- The invariant of the machine: it holds after reset on every well-formed platform and memory, and every step keeps it. -/
structure State.Inv (s : State) : Prop where
  /-- The platform is well formed (spec/00_scope.md R9). -/
  platform : s.platform.WellFormed = true
  /-- Memory is in its canonical form. -/
  memWf : Memory.wf s.mem = true
  /-- Every listed byte exists (spec/20_memory.md R46). -/
  memInside : ∀ c ∈ s.mem, c.1 < s.platform.memSize
  /-- BUSY implies DONE = 0 and ERR = 0 (spec/10_state.md R44 (a)). -/
  busyFlags : s.busy = true → s.done = false ∧ s.err = false
  /-- ERR = 0 exactly when ERRCODE = 0 (R44 (b)). -/
  errCode : s.err = false ↔ s.errCode = .noError
  /-- The engine's progress belongs to the command in flight. -/
  progress : ∀ p, s.engine = .busy p → ProgressOk s p

/-- Command `i` is in flight. -/
abbrev Running (i : Instr) (s : State) : Prop := s.busy = true ∧ s.cmd = encode i

/-- `in_range(a, n)` (spec/20_memory.md R47). -/
abbrev InRange (memSize a n : Nat) : Prop := n = 0 ∨ a + n ≤ memSize

/-- `overlap((a, n), (b, m))` (R47). -/
abbrev Overlap (a n b m : Nat) : Prop := 0 < n ∧ 0 < m ∧ a < b + m ∧ b < a + n

/-- The cells of the grid of a payload of `L` bytes: `w * w` with `w = isqrt(ceil_div(8 * L, 32)) + 1` (spec/41_bitpacker.md
R83). -/
def gridCells (L : Nat) : Nat := (isqrt (ceilDiv (8 * L) 32) + 1) * (isqrt (ceilDiv (8 * L) 32) + 1)

/-- PACK passes its checks (R84). -/
abbrev PackFits (s : State) : Prop :=
  InRange s.platform.memSize s.srcAddr.toNat s.srcLen.toNat ∧
  InRange s.platform.memSize s.dstAddr.toNat (4 * gridCells s.srcLen.toNat) ∧
  ¬ Overlap s.srcAddr.toNat s.srcLen.toNat s.dstAddr.toNat (4 * gridCells s.srcLen.toNat)

/-- UNPACK passes its checks (spec/42_bitunpacker.md R95). -/
abbrev UnpackFits (s : State) : Prop :=
  InRange s.platform.memSize s.srcAddr.toNat (4 * (s.width.toNat * s.height.toNat)) ∧
  InRange s.platform.memSize s.dstAddr.toNat (4 * (s.width.toNat * s.height.toNat)) ∧
  ¬ Overlap s.srcAddr.toNat (4 * (s.width.toNat * s.height.toNat)) s.dstAddr.toNat
      (4 * (s.width.toNat * s.height.toNat))

/-- The state after the error completion with code `c` (spec/60_exceptions.md R111). -/
def errorState (c : ErrCode) (s : State) : State :=
  { s with errCode := c, err := true, done := true, engine := .idle }

/-- What the result registers say of one another after a successful LAYOUT or PACK (spec/10_state.md R44 (f)). -/
abbrev ResultsAgree (s : State) : Prop :=
  s.width = s.height ∧ s.pixCount.toNat < s.width.toNat * s.height.toNat ∧ s.width.toNat = isqrt s.pixCount.toNat + 1

/-- CMD and the registers no command writes (spec/10_state.md R28 to R31). -/
def KeepsOperands (s t : State) : Prop :=
  t.cmd = s.cmd ∧ t.srcAddr = s.srcAddr ∧ t.srcLen = s.srcLen ∧ t.dstAddr = s.dstAddr ∧ t.bitLen = s.bitLen

/-- The result registers (R32 to R35). -/
def KeepsResults (s t : State) : Prop :=
  t.width = s.width ∧ t.height = s.height ∧ t.pixCount = s.pixCount ∧ t.padBits = s.padBits

/-- What no command touches: CTRL, WIGN, the platform, and the agents' schedule and answers. -/
def KeepsSurroundings (s t : State) : Prop :=
  t.irqEn = s.irqEn ∧ t.wign = s.wign ∧ t.platform = s.platform ∧ t.schedule = s.schedule ∧ t.answers = s.answers

/-- Every byte of memory outside `[a, a + n)` reads as before. -/
def KeepsMemoryOutside (a n : Nat) (s t : State) : Prop :=
  ∀ b, b < a ∨ a + n ≤ b → memRead t.mem b = memRead s.mem b

/-- An action of the engine that leaves the command in flight. -/
def Action.isEngineAccess : Action → Bool
  | .engineRead _ => true
  | .engineWrite _ => true
  | .regRead _ _ => false
  | .regWrite _ _ _ => false
  | .memRead _ => false
  | .memWrite _ _ => false
  | .reset => false
  | .engineFinish => false

/-- An action that cannot stop the machine on platform `p`: every action but a host access to memory that does not exist. -/
def Action.accessible (p : Platform) : Action → Bool
  | .memRead a => decide (a < p.memSize)
  | .memWrite a _ => decide (a < p.memSize)
  | .regRead _ _ => true
  | .regWrite _ _ _ => true
  | .reset => true
  | .engineRead _ => true
  | .engineWrite _ => true
  | .engineFinish => true

/-- An action that may stand between two steps of the engine and races nothing (spec/20_memory.md R58, R59,
spec/40_commands.md R72): an engine access, any access to a register, a host read of memory, or a host write of memory outside
both regions of the command in flight in `s`. -/
def Action.noRace (s : State) : Action → Bool
  | .memRead a => decide (a < s.platform.memSize)
  | .memWrite a _ => decide (a < s.platform.memSize) && !inRunningRegions a s
  | .regRead _ _ => true
  | .regWrite _ _ _ => true
  | .engineRead _ => true
  | .engineWrite _ => true
  | .reset => false
  | .engineFinish => false

/-- The byte a host write to memory stores. -/
def Action.store : Action → Option Host.Cell
  | .memWrite a v => some (a, v)
  | .memRead _ => none
  | .regRead _ _ => none
  | .regWrite _ _ _ => none
  | .engineRead _ => none
  | .engineWrite _ => none
  | .reset => none
  | .engineFinish => none

/-- Memory `m` after the host's writes among `acts`, in their order. -/
def hostStored (m : List Host.Cell) (acts : List Action) : List Host.Cell := memWriteAll m (acts.filterMap Action.store)

/-- The host's own actions among `acts`. -/
def hostOnly (acts : List Action) : List Action := acts.filter (fun a => !a.isEngineAccess)

/-- `n` steps, stopping at the first fault or refusal. -/
def runSteps : Nat → State → Host.Outcome State Fault Refusal
  | 0, s => .next s
  | n + 1, s =>
    match step s with
    | .next t => runSteps n t
    | .fault f => .fault f
    | .refused r => .refused r

/-- The action the schedule puts next: nothing scheduled is the engine's turn. -/
def State.nextAction (s : State) : Action :=
  match s.schedule with
  | [] => .engineFinish
  | a :: _ => a

end Sys2Proof.Machine
end

