-- ==== Sys2Proof/Certificates/Slice0/Obligations.lean ====
section
/-!
DEFINITION. The statements about the machine, for the provers. Each docstring names the rule of spec/ it formalises, or says
what of the model it rests on.
-/

open Sys2Proof Sys2Proof.Machine

/-! ### Encoding -/

/-- R66 and R67: the four command words, which the decoder answers each with its command; it rejects every other word by
name. -/
def Obligations.CommandWordsDecodeExactly : Prop :=
  (encode .nop = 0x00000000#32 ∧ encode .layout = 0x00000001#32 ∧ encode .pack = 0x00000002#32 ∧
    encode .unpack = 0x00000003#32) ∧
  ∀ w : Word,
    (∀ i, decode w = .command i ↔ w = encode i) ∧
    (commandRsv w ≠ 0#24 → decode w = .illegal (.reservedBits (commandRsv w))) ∧
    (commandRsv w = 0#24 → 0x04#8 ≤ commandOp w → decode w = .illegal (.unassignedOp (commandOp w)))

/-- The words of the table in 95_test_vectors.md 2.5, written out bit by bit. -/
def Obligations.TableWordsDecode : Prop :=
  decodeTableWord 32 0b00000000000000000000000000000000 = some .nop ∧
  decodeTableWord 32 0b00000000000000000000000000000001 = some .layout ∧
  decodeTableWord 32 0b00000000000000000000000000000010 = some .pack ∧
  decodeTableWord 32 0b00000000000000000000000000000011 = some .unpack ∧
  decodeTableWord 32 0b00000000000000000000000000000100 = none ∧
  decodeTableWord 32 0b00000000000000000000000100000010 = none ∧
  decodeTableWord 32 0b10000000000000000000000000000010 = none

/-- R68: the illegal words are all but four, and each is accepted like any other word, then completed with ILLEGAL_CMD and no
other effect. -/
def Obligations.IllegalWordsCompleteWithAnError : Prop :=
  ∀ w : Word,
    ((∃ why, decode w = .illegal why) ↔ 4 ≤ w.toNat) ∧
    (wellFormedWord w = true ↔ w.toNat < 4) ∧
    (4 ≤ w.toNat → ∀ (s : State) (rest : List Action), s.engine = .idle →
      s.schedule = wr s.platform .cmd w :: .engineFinish :: rest →
      step s = .next { s with schedule := .engineFinish :: rest, cmd := w, engine := .busy Progress.fresh,
                              done := false, err := false, errCode := .noError } ∧
      runSteps 2 s = .next { s with schedule := rest, cmd := w, engine := .idle, done := true, err := true,
                                    errCode := .illegalCmd })

/-! ### Steps and reset -/

/-- A step runs the decoded command: when CMD holds a command's word and the engine has the turn, the step is `exec` of that
command (R74). -/
def Obligations.StepRunsTheDecodedCommand : Prop :=
  ∀ (s : State) (i : Instr), s.busy = true → decode s.cmd = .command i →
    (s.schedule = [] → step s = exec i s) ∧
    (∀ rest, s.schedule = .engineFinish :: rest → step s = exec i { s with schedule := rest })

/-- R45: every register at its reset value, on every platform and with every memory. -/
def Obligations.ResetValues : Prop :=
  ∀ (p : Platform) (m : List Host.Cell),
    readReg (State.resetOn p m) .id = 0x42504B01#32 ∧
    (∀ r, r ≠ .id → readReg (State.resetOn p m) r = 0x00000000#32) ∧
    (State.resetOn p m).busy = false ∧ (State.resetOn p m).irq = false ∧ (State.resetOn p m).mem = m

/-- The machine starts inside its invariant, whatever platform and memory it starts with. -/
def Obligations.ResetMeetsTheInvariant : Prop :=
  (∀ (p : Platform) (m : List Host.Cell), p.WellFormed = true → Memory.wf m = true → (∀ c ∈ m, c.1 < p.memSize) →
    (State.resetOn p m).Inv) ∧ State.reset.Inv

/-- Every step keeps the invariant and the platform's parameters. -/
def Obligations.StepKeepsTheInvariant : Prop :=
  ∀ s t : State, s.Inv → step s = .next t → t.Inv ∧ t.platform = s.platform

/-- R124: reset at any time, in either phase; a completion after it has no effect. -/
def Obligations.ResetByItsRule : Prop :=
  ∀ (s : State) (rest : List Action), s.schedule = .reset :: rest →
    ∃ t, step s = .next t ∧ readReg t .id = 0x42504B01#32 ∧ (∀ r, r ≠ .id → readReg t r = 0x00000000#32) ∧
      t.engine = .idle ∧ t.irq = false ∧ t.mem = s.mem ∧ t.platform = s.platform ∧ t.schedule = rest ∧
      t.answers = s.answers ∧ runCommand t = .next t

/-! ### Acceptance and registers -/

/-- R73: a write to CMD while idle is accepted, whatever its value; a write to CMD while BUSY is not. -/
def Obligations.AcceptanceByItsRule : Prop :=
  ∀ (s : State) (v : Word) (rest : List Action), s.schedule = wr s.platform .cmd v :: rest →
    (s.busy = false → ∃ t, step s = .next t ∧
      t = { s with schedule := rest, cmd := v, engine := .busy Progress.fresh, done := false, err := false,
                   errCode := .noError } ∧
      t.busy = true ∧ t.irq = false) ∧
    (s.busy = true → step s = .next { s with schedule := rest, wign := true })

/-- R38: while BUSY a host write to CMD or an operand register only sets WIGN; while idle it stores the value; while a command
stays in flight these registers and the results read as they did; and host reads are never locked. -/
def Obligations.BusyLocksTheRegisters : Prop :=
  (∀ (s : State) (r : Reg) (v : Word) (rest : List Action),
    r ∈ [Reg.cmd, .srcAddr, .srcLen, .dstAddr, .bitLen, .width, .height] → s.schedule = wr s.platform r v :: rest →
    (s.busy = true → step s = .next { s with schedule := rest, wign := true }) ∧
    (s.busy = false → ∃ t, step s = .next t ∧ readReg t r = v ∧ t.mem = s.mem ∧ t.schedule = rest ∧
      (∀ q, q ≠ r → (q = .status → r ≠ .cmd) → readReg t q = readReg s q) ∧
      (r = .cmd → t = { s with schedule := rest, cmd := v, engine := .busy Progress.fresh, done := false, err := false,
                               errCode := .noError }))) ∧
  (∀ (s t : State) (q : Reg), s.busy = true → step s = .next t → t.busy = true → q ≠ .ctrl → q ≠ .status →
    readReg t q = readReg s q) ∧
  (∀ (s : State) (q : Reg) (rest : List Action), s.schedule = rd s.platform q :: rest →
    step s = .next { s with schedule := rest, answers := s.answers ++ [.word (readReg s q)] })

/-- R26: the write-1-to-clear write of STATUS, in either phase. -/
def Obligations.StatusWriteOneToClear : Prop :=
  ∀ (s : State) (v : Word) (rest : List Action), s.schedule = wr s.platform .status v :: rest →
    ∃ t, step s = .next t ∧
      t = { s with schedule := rest, done := t.done, err := t.err, errCode := t.errCode, wign := t.wign } ∧
      (t.done = if v.getLsbD 1 then false else s.done) ∧
      (t.err = if v.getLsbD 2 then false else s.err) ∧
      (t.errCode = if v.getLsbD 2 then .noError else s.errCode) ∧
      (t.wign = if v.getLsbD 3 then false else s.wign) ∧
      ((s.err = false ↔ s.errCode = .noError) → (t.err = false ↔ t.errCode = .noError))

/-- R24: CTRL holds one bit, 0 after reset, is never locked, and enables the interrupt output. -/
def Obligations.CtrlByItsRule : Prop :=
  (∀ (s : State) (v : Word) (rest : List Action), s.schedule = wr s.platform .ctrl v :: rest →
    ∃ t, step s = .next t ∧ t = { s with schedule := rest, irqEn := v.getLsbD 0 } ∧
      readReg t .ctrl = v &&& 1#32 ∧ (v.getLsbD 0 = true → t.irq = t.done) ∧ (v.getLsbD 0 = false → t.irq = false)) ∧
  (∀ (p : Platform) (m : List Host.Cell), (State.resetOn p m).irqEn = false)

/-- R23, R34, R35 and R36: ID and the reserved words ignore a host write, in either phase and without WIGN, as the results
PIX_COUNT and PAD_BITS do; ID reads as its constant with its two fields, and a reserved word reads 0. An access outside the
window is no access to the block (R36), and its answer `notThisBlock` is the model's own (log entry 8, DESIGN CHOICE). -/
def Obligations.ReadOnlyWordsIgnoreWrites : Prop :=
  (∀ (s : State) (off : Nat) (v : Word) (rest : List Action),
    off ∈ [0x00, 0x28, 0x2C, 0x30, 0x34, 0x38, 0x3C] → s.schedule = .regWrite (s.platform.regBase + off) 4 v :: rest →
    step s = .next { s with schedule := rest }) ∧
  (∀ s : State, readReg s .id = 0x42504B01#32) ∧
  ((0x42504B01#32).extractLsb' 8 24 = 0x42504B#24 ∧ (0x42504B01#32).extractLsb' 0 8 = 0x01#8) ∧
  (∀ (s : State) (off : Nat), off ∈ [0x30, 0x34, 0x38, 0x3C] → portAnswer (s.platform.regBase + off) 4 s = .word 0#32) ∧
  (∀ (s : State) (addr size : Nat) (v : Word) (rest : List Action),
    addr + size ≤ s.platform.regBase ∨ s.platform.regBase + 0x40 ≤ addr →
    (s.schedule = .regWrite addr size v :: rest → step s = .next { s with schedule := rest }) ∧
    (s.schedule = .regRead addr size :: rest →
      step s = .next { s with schedule := rest, answers := s.answers ++ [.notThisBlock] }))

/-- An access that covers a byte of the window and is not 32 bits wide at a multiple of 4 changes nothing, and reads 0 in every
byte of the window it covers (R37). That this holds also of an access across an edge of the window, with the bytes inside
counted alone, is the model's reading (log entry 14, DEDUCED from R36 and R37). -/
def Obligations.IrregularAccessesHaveNoEffect : Prop :=
  ∀ (s : State) (addr size : Nat) (v : Word) (rest : List Action),
    0 < size → addr < s.platform.regBase + 0x40 → s.platform.regBase < addr + size →
    (size ≠ 4 ∨ addr < s.platform.regBase ∨ (addr - s.platform.regBase) % 4 ≠ 0) →
    (s.schedule = .regWrite addr size v :: rest → step s = .next { s with schedule := rest }) ∧
    (s.schedule = .regRead addr size :: rest →
      step s = .next { s with schedule := rest, answers := s.answers ++
        [.zeros (min (addr + size) (s.platform.regBase + 0x40) - max addr s.platform.regBase)] })

/-- The register map of R22, each register at its offset. A 32-bit host read there answers the register's value and changes
nothing else (R53, R79), and a 32-bit host write there is the write of that register. -/
def Obligations.RegisterReadsHaveNoSideEffect : Prop :=
  ∀ (s : State) (r : Reg) (off : Nat),
    (r, off) ∈ [(Reg.id, 0x00), (.ctrl, 0x04), (.status, 0x08), (.cmd, 0x0C), (.srcAddr, 0x10), (.srcLen, 0x14),
      (.dstAddr, 0x18), (.bitLen, 0x1C), (.width, 0x20), (.height, 0x24), (.pixCount, 0x28), (.padBits, 0x2C)] →
    rd s.platform r = .regRead (s.platform.regBase + off) 4 ∧
    (∀ v, wr s.platform r v = .regWrite (s.platform.regBase + off) 4 v) ∧
    (∀ rest, s.schedule = .regRead (s.platform.regBase + off) 4 :: rest →
      step s = .next { s with schedule := rest, answers := s.answers ++ [.word (readReg s r)] }) ∧
    (∀ rest v, s.schedule = .regWrite (s.platform.regBase + off) 4 v :: rest →
      step s = .next (writeReg r v { s with schedule := rest }))

/-- R25: the fields of STATUS at their bits, and the reserved bits at 0. R108: the numbers of the error codes. -/
def Obligations.StatusFields : Prop :=
  (ErrCode.number .noError = 0#4 ∧ ErrCode.number .illegalCmd = 1#4 ∧ ErrCode.number .srcRange = 2#4 ∧
    ErrCode.number .dstRange = 3#4 ∧ ErrCode.number .overlap = 4#4) ∧
  ∀ s : State,
    (readReg s .status).getLsbD 0 = s.busy ∧ (readReg s .status).getLsbD 1 = s.done ∧
    (readReg s .status).getLsbD 2 = s.err ∧ (readReg s .status).getLsbD 3 = s.wign ∧
    (readReg s .status).extractLsb' 4 4 = 0#4 ∧ (readReg s .status).extractLsb' 8 4 = s.errCode.number ∧
    (readReg s .status).extractLsb' 12 20 = 0#20 ∧ s.errCode.number ≤ 4#4

/-- R40: `irq` is CTRL.IRQ_EN AND STATUS.DONE, so it changes only when CTRL or STATUS changes. -/
def Obligations.IrqIsEnabledDone : Prop :=
  (∀ s : State, s.irq = ((readReg s .ctrl).getLsbD 0 && (readReg s .status).getLsbD 1)) ∧
  (∀ s t : State, readReg t .ctrl = readReg s .ctrl → readReg t .status = readReg s .status → t.irq = s.irq)

/-- R115: with the interrupt enabled, `irq` is low while a command is in flight and high after its completion, so every
completion makes a rising edge. -/
def Obligations.CompletionRaisesIrq : Prop :=
  ∀ s t : State, s.Inv → s.busy = true → s.irqEn = true → runCommand s = .next t → s.irq = false ∧ t.irq = true

/-! ### Whole-machine rules -/

/-- R41: which events set and which clear BUSY, DONE, ERR and WIGN. Reset clears them all. -/
def Obligations.OnlyTheseEventsChangeFlags : Prop :=
  ∀ s t : State, step s = .next t →
    (s.busy = false → t.busy = true → ∃ v, s.nextAction = wr s.platform .cmd v) ∧
    (s.busy = true → t.busy = false → s.nextAction = .engineFinish ∨ s.nextAction = .reset) ∧
    (s.done = false → t.done = true → s.busy = true ∧ s.nextAction = .engineFinish) ∧
    (s.done = true → t.done = false → s.nextAction = .reset ∨ (∃ v, s.nextAction = wr s.platform .cmd v) ∨
      ∃ v : Word, s.nextAction = wr s.platform .status v ∧ v.getLsbD 1 = true) ∧
    (s.err = false → t.err = true → s.busy = true ∧ s.nextAction = .engineFinish) ∧
    (s.err = true → t.err = false → s.nextAction = .reset ∨ (∃ v, s.nextAction = wr s.platform .cmd v) ∨
      ∃ v : Word, s.nextAction = wr s.platform .status v ∧ v.getLsbD 2 = true) ∧
    (s.wign = false → t.wign = true → s.busy = true ∧ ∃ v, ∃ r ∈ [Reg.cmd, .srcAddr, .srcLen, .dstAddr, .bitLen, .width,
      .height], s.nextAction = wr s.platform r v) ∧
    (s.wign = true → t.wign = false → s.nextAction = .reset ∨
      ∃ v : Word, s.nextAction = wr s.platform .status v ∧ v.getLsbD 3 = true)

/-- R44 (c): ERR = 1 implies DONE = 1, unless the host has cleared DONE alone. -/
def Obligations.ErrKeepsDoneUntilAcknowledged : Prop :=
  ∀ s t : State, (s.err = true → s.done = true) → step s = .next t → t.err = true → t.done = false →
    ∃ v : Word, s.nextAction = wr s.platform .status v ∧ v.getLsbD 1 = true ∧ v.getLsbD 2 = false

/-- R44 (f): a successful LAYOUT or PACK makes the result registers agree, and they agree until a host write to WIDTH or HEIGHT
or a reset. -/
def Obligations.ResultsStayInAgreement : Prop :=
  (∀ (i : Instr) (s t : State), i = .layout ∨ i = .pack → s.err = false → exec i s = .next t → t.err = false →
    ResultsAgree t) ∧
  (∀ s t : State, ResultsAgree s → step s = .next t → s.nextAction ≠ .reset →
    (∀ v, s.nextAction ≠ wr s.platform .width v ∧ s.nextAction ≠ wr s.platform .height v) → ResultsAgree t)

/-- The engine writes no byte outside the destination region of a command that passed its checks, and none while idle (R58,
R79): a step that is not a host write to memory leaves all other bytes. -/
def Obligations.OnlyTheDestinationIsWritten : Prop :=
  ∀ s t : State, s.Inv → step s = .next t → (∀ a v, s.nextAction ≠ .memWrite a v) →
    (activeTransfer s = none → t.mem = s.mem) ∧
    (∀ i r, activeTransfer s = some (i, r) →
      Running i s ∧ (i = .pack ∧ PackFits s ∧ r = packRegions s ∨ i = .unpack ∧ UnpackFits s ∧ r = unpackRegions s) ∧
      KeepsMemoryOutside r.dst.start r.dst.len s t)

/-- The machine stops exactly on a host access to memory that does not exist, which is the model's choice (log entry 4): no
command, no register access and no other host access ever stops it (R107), on any platform. -/
def Obligations.OnlyHostMemoryAccessesStop : Prop :=
  ∀ s : State,
    ((∃ t, step s = .next t) ↔ s.nextAction.accessible s.platform = true) ∧
    (∀ r, step s ≠ .refused r) ∧
    (∀ a, step s = .fault (.noSuchMemory a) → s.platform.memSize ≤ a ∧
      (s.nextAction = .memRead a ∨ ∃ v, s.nextAction = .memWrite a v))

/-- A command in flight is over (R76) after at most one more step than the schedule has actions, on any schedule whose host
accesses to memory exist. R76 gives no bound: this one is the model's, from log entries 2 (DESIGN CHOICE: an empty schedule is
the engine's turn) and 12 (DEDUCED: the completion action does all that is left). -/
def Obligations.EveryCommandEnds : Prop :=
  ∀ s : State, s.busy = true → (∀ a ∈ s.schedule, a.accessible s.platform = true) →
    ∃ n t, n ≤ s.schedule.length + 1 ∧ runSteps n s = .next t ∧ t.busy = false

/-- With nothing scheduled the engine completes the command in flight: BUSY = 0 and DONE = 1 (R77). -/
def Obligations.CompletionEndsTheCommand : Prop :=
  ∀ s : State, s.busy = true → s.schedule = [] →
    ∃ t, step s = .next t ∧ t.busy = false ∧ t.done = true ∧ (readReg t .status).getLsbD 0 = false ∧
      (readReg t .status).getLsbD 1 = true

/-! ### NOP and LAYOUT -/

/-- R80: NOP. -/
def Obligations.NopByItsRule : Prop :=
  (∀ s : State, exec .nop s = .next { s with engine := .idle, done := true }) ∧
  (∀ w : Word, decode w = .command .nop ↔ w = 0x00000000#32) ∧
  (∀ s : State, s.Inv → Running .nop s → s.err = false ∧ s.errCode = .noError) ∧
  (∀ (p : Platform) (m : List Host.Cell),
    runSteps 2 { State.resetOn p m with schedule := progNop p ++ [.engineFinish] } =
      .next { State.resetOn p m with done := true } ∧
    readReg { State.resetOn p m with done := true } .status = 0x00000002#32)

/-- R102: LAYOUT, for every value of BIT_LEN, with its corner cases and its example. -/
def Obligations.LayoutByItsRule : Prop :=
  (∀ s : State, ∃ t, exec .layout s = .next t ∧
    t = { s with pixCount := t.pixCount, width := t.width, height := t.height, padBits := t.padBits, engine := .idle,
                 done := true } ∧
    t.pixCount.toNat = ceilDiv s.bitLen.toNat 32 ∧ t.width.toNat = isqrt (ceilDiv s.bitLen.toNat 32) + 1 ∧
    t.height = t.width ∧ t.padBits.toNat = (32 - s.bitLen.toNat % 32) % 32 ∧
    readReg t .pixCount = t.pixCount ∧ readReg t .width = t.width ∧ readReg t .height = t.height ∧
    (readReg t .padBits).toNat = (32 - s.bitLen.toNat % 32) % 32 ∧
    (s.Inv → Running .layout s → t.err = false ∧ t.errCode = .noError)) ∧
  (∀ w : Word, decode w = .command .layout ↔ w = 0x00000001#32) ∧
  layoutFn 0 = { pixCount := 0, width := 1, height := 1, padBits := 0 } ∧
  (∀ n, 1 ≤ n → n ≤ 32 → (layoutFn n).pixCount = 1 ∧ (layoutFn n).width = 2) ∧
  (∀ m n, (layoutFn n).pixCount = m * m → (layoutFn n).width = m + 1) ∧
  layoutFn (2 ^ 32 - 1) = { pixCount := 134217728, width := 11586, height := 11586, padBits := 1 } ∧
  layoutFn 40 = { pixCount := 2, width := 2, height := 2, padBits := 24 }

/-- The bounds of the layout function: an inference the spec marks as its own (43_layout.md R103, derived from R101 and R10). -/
def Obligations.LayoutBounds : Prop :=
  ∀ n : Nat,
    ((layoutFn n).width = (layoutFn n).height ∧ 1 ≤ (layoutFn n).height) ∧
    (((layoutFn n).width - 1) ^ 2 ≤ (layoutFn n).pixCount ∧ (layoutFn n).pixCount < (layoutFn n).width ^ 2 ∧
      (layoutFn n).pixCount < (layoutFn n).width * (layoutFn n).height ∧
      (layoutFn n).width * (layoutFn n).height - (layoutFn n).pixCount ≤ 2 * (layoutFn n).width - 1) ∧
    (32 * (layoutFn n).pixCount = n + (layoutFn n).padBits ∧ (layoutFn n).padBits ≤ 31) ∧
    (n ≤ 2 ^ 32 - 1 → (layoutFn n).pixCount ≤ 2 ^ 27 ∧ (layoutFn n).width ≤ 11586 ∧
      (layoutFn n).width * (layoutFn n).height ≤ 134235396)

/-- A perfect square of pixels gives a grid one cell wider than its root: an inference the spec marks as its own (43_layout.md
R104, derived from R101). -/
def Obligations.PerfectSquaresGetAWiderGrid : Prop :=
  (∀ m n : Nat, (layoutFn n).pixCount = m ^ 2 →
    (layoutFn n).width = m + 1 ∧ (layoutFn n).width * (layoutFn n).height = (m + 1) ^ 2) ∧
  (∀ n, (layoutFn n).pixCount = 4 → (layoutFn n).width = 3 ∧ (layoutFn n).height = 3) ∧
  (∀ n, (layoutFn n).pixCount = 9 → (layoutFn n).width = 4 ∧ (layoutFn n).height = 4) ∧
  (∀ n, (layoutFn n).pixCount = 0 → (layoutFn n).width = 1 ∧ (layoutFn n).height = 1)

/-- Pixel count and width never decrease, and the width steps from `m` to `m + 1` at `32 * (m^2 - 1) + 1`: an inference the spec
marks as its own (43_layout.md R105, derived from R101). -/
def Obligations.LayoutGrowsInSteps : Prop :=
  (∀ n k : Nat, n ≤ k → (layoutFn n).pixCount ≤ (layoutFn k).pixCount ∧ (layoutFn n).width ≤ (layoutFn k).width) ∧
  (∀ m n : Nat, 1 ≤ m → (m + 1 ≤ (layoutFn n).width ↔ m ^ 2 ≤ (layoutFn n).pixCount)) ∧
  (∀ m n : Nat, 1 ≤ m → (m ^ 2 ≤ (layoutFn n).pixCount ↔ 32 * (m ^ 2 - 1) + 1 ≤ n)) ∧
  (∀ m : Nat, 1 ≤ m → (layoutFn (32 * (m ^ 2 - 1))).width = m ∧ (layoutFn (32 * (m ^ 2 - 1) + 1)).width = m + 1 ∧
    (layoutFn (32 * (m ^ 2 - 1) + 1)).pixCount = m ^ 2) ∧
  (layoutFn 0).width = 1 ∧ (layoutFn 1).width = 2 ∧ (layoutFn 96).width = 2 ∧ (layoutFn 97).width = 3 ∧
  (layoutFn 256).width = 3 ∧ (layoutFn 257).width = 4

/-! ### The packing and unpacking functions -/

/-- R82: each channel is the integer of its eight bits of the chunk, and the pixel word is the integer of the chunk. -/
def Obligations.PixelsAreTheirChunks : Prop :=
  ∀ (P : List Byte) (j : Nat), j < (paddedBits P).length / 32 →
    (packCell P j).r.toNat = intOfBits (slice (chunk P j) 0 8) ∧ (packCell P j).g.toNat = intOfBits (slice (chunk P j) 8 16) ∧
    (packCell P j).b.toNat = intOfBits (slice (chunk P j) 16 24) ∧
    (packCell P j).a.toNat = intOfBits (slice (chunk P j) 24 32) ∧
    (packCell P j).word.toNat = intOfBits (chunk P j)

/-- The pixel word of each grid cell, from the payload's bytes with zeros past its end: an inference the spec marks as its own
(41_bitpacker.md R87, derived from R86 and R49). -/
def Obligations.PixelWordsOfAPack : Prop :=
  ∀ (P : List Byte) (i : Nat), i < gridCells P.length →
    (packCell P i).word = P.getD (4 * i) 0#8 ++ P.getD (4 * i + 1) 0#8 ++ P.getD (4 * i + 2) 0#8 ++ P.getD (4 * i + 3) 0#8

/-- The bounds of PACK's values for every payload length, and the destination that cannot fit: an inference the spec marks as its
own (41_bitpacker.md R88, derived from R81 and R101). That the error of a PACK the host has raced leaves memory as it is, is the
model's reading (log entry 9, DEDUCED). -/
def Obligations.PackBounds : Prop :=
  (∀ L : Nat, L ≤ 2 ^ 32 - 1 →
    (layoutFn (8 * L)).padBits = 8 * ((4 - L % 4) % 4) ∧
    (layoutFn (8 * L)).pixCount = ceilDiv L 4 ∧ (layoutFn (8 * L)).pixCount ≤ 2 ^ 30 ∧
    (layoutFn (8 * L)).width = isqrt (layoutFn (8 * L)).pixCount + 1 ∧
    (layoutFn (8 * L)).height = (layoutFn (8 * L)).width ∧ (layoutFn (8 * L)).width ≤ 32769 ∧
    (layoutFn (8 * L)).width * (layoutFn (8 * L)).height ≤ 1073807361) ∧
  4 * gridCells (2 ^ 32 - 1) = 4295229444 ∧
  (∀ s : State, InRange s.platform.memSize s.srcAddr.toNat s.srcLen.toNat →
    s.platform.memSize < s.dstAddr.toNat + 4 * gridCells s.srcLen.toNat → exec .pack s = .next (errorState .dstRange s)) ∧
  (∀ s : State, s.platform.WellFormed = true → s.srcLen = 0xFFFFFFFF#32 →
    exec .pack s = .next (errorState .srcRange s) ∨ exec .pack s = .next (errorState .dstRange s))

/-- Trailing zero pixels add trailing zero bytes and change nothing else: an inference the spec marks as its own
(42_bitunpacker.md R100, derived from R97). -/
def Obligations.TrailingSlackUnpacksToZeros : Prop :=
  ∀ (grid : List Pixel) (K : Nat),
    unpackBytes (grid ++ List.replicate K Pixel.zero) = unpackBytes grid ++ List.replicate (4 * K) 0#8 ∧
    (unpackBytes grid).length = 4 * grid.length

/-! ### PACK -/

/-- PACK, its errors in their order, its success, and its example (R84). The error clauses hold also of a PACK the host has raced:
that its error leaves memory as it is, is the model's reading, R111 put before R59 (log entry 9, DEDUCED). -/
def Obligations.PackByItsRule : Prop :=
  (∀ w : Word, decode w = .command .pack ↔ w = 0x00000002#32) ∧
  (∀ s : State, ¬ InRange s.platform.memSize s.srcAddr.toNat s.srcLen.toNat →
    exec .pack s = .next (errorState .srcRange s)) ∧
  (∀ s : State, InRange s.platform.memSize s.srcAddr.toNat s.srcLen.toNat →
    ¬ InRange s.platform.memSize s.dstAddr.toNat (4 * gridCells s.srcLen.toNat) →
    exec .pack s = .next (errorState .dstRange s)) ∧
  (∀ s : State, InRange s.platform.memSize s.srcAddr.toNat s.srcLen.toNat →
    InRange s.platform.memSize s.dstAddr.toNat (4 * gridCells s.srcLen.toNat) →
    Overlap s.srcAddr.toNat s.srcLen.toNat s.dstAddr.toNat (4 * gridCells s.srcLen.toNat) →
    exec .pack s = .next (errorState .overlap s)) ∧
  (∀ s : State, s.Inv → Running .pack s → s.progress.raced = false → PackFits s →
    ∃ t, exec .pack s = .next t ∧
      t = { s with mem := t.mem, pixCount := t.pixCount, width := t.width, height := t.height, padBits := t.padBits,
                   engine := .idle, done := true } ∧
      t.err = false ∧ t.errCode = .noError ∧
      t.pixCount.toNat = (layoutFn (8 * s.srcLen.toNat)).pixCount ∧ t.width.toNat = (layoutFn (8 * s.srcLen.toNat)).width ∧
      t.height.toNat = (layoutFn (8 * s.srcLen.toNat)).height ∧ t.padBits.toNat = (layoutFn (8 * s.srcLen.toNat)).padBits ∧
      readReg t .pixCount = t.pixCount ∧ readReg t .width = t.width ∧ readReg t .height = t.height ∧
      (readReg t .padBits).toNat = (layoutFn (8 * s.srcLen.toNat)).padBits ∧
      (∀ i, i < gridCells s.srcLen.toNat → ∀ j, j < 4 →
        memRead t.mem (s.dstAddr.toNat + 4 * i + j) = (packCell (payload s) i).channel j) ∧
      KeepsMemoryOutside s.dstAddr.toNat (4 * gridCells s.srcLen.toNat) s t ∧
      (s.srcAddr = 0x100#32 → s.srcLen = 5#32 → s.dstAddr = 0x200#32 → payload s = [0x48#8, 0x65#8, 0x6C#8, 0x6C#8, 0x6F#8] →
        t.pixCount = 2#32 ∧ t.width = 2#32 ∧ t.height = 2#32 ∧ t.padBits = 24#5 ∧
        readBytes t.mem 0x200 16 = [0x48#8, 0x65#8, 0x6C#8, 0x6C#8, 0x6F#8] ++ List.replicate 11 0#8))

/-- After a successful PACK the destination holds the payload followed by zero bytes: an inference the spec marks as its own
(41_bitpacker.md R86, derived from R81, R82, R83, R85 and R48). -/
def Obligations.PackCopiesAndZeroFills : Prop :=
  ∀ s : State, s.Inv → Running .pack s → s.progress.raced = false → PackFits s →
    ∃ t, exec .pack s = .next t ∧ ∀ k, k < 4 * gridCells s.srcLen.toNat →
      (k < s.srcLen.toNat → memRead t.mem (s.dstAddr.toNat + k) = memRead s.mem (s.srcAddr.toNat + k)) ∧
      (s.srcLen.toNat ≤ k → memRead t.mem (s.dstAddr.toNat + k) = 0#8)

/-- R89: the empty payload packs to one zero pixel, wherever SRC_ADDR points, and no byte of its source is read. -/
def Obligations.EmptyPayloadPacks : Prop :=
  ∀ s : State, s.Inv → Running .pack s → s.progress.raced = false → s.srcLen = 0#32 →
    s.dstAddr.toNat + 4 ≤ s.platform.memSize →
    (∀ k, engineRead k s = s) ∧
    ∃ t, exec .pack s = .next t ∧
      t = { s with mem := t.mem, pixCount := 0#32, width := 1#32, height := 1#32, padBits := 0#5, engine := .idle,
                   done := true } ∧
      (∀ k, k < 4 → memRead t.mem (s.dstAddr.toNat + k) = 0#8) ∧ KeepsMemoryOutside s.dstAddr.toNat 4 s t

/-- Every successful PACK writes slack, and its last cell is the zero pixel: an inference the spec marks as its own
(41_bitpacker.md R90, derived from R103). -/
def Obligations.EveryPackHasSlack : Prop :=
  ∀ s : State, s.Inv → Running .pack s → s.progress.raced = false → PackFits s →
    ∃ t, exec .pack s = .next t ∧
      1 ≤ t.width.toNat * t.height.toNat - t.pixCount.toNat ∧
      t.width.toNat * t.height.toNat - t.pixCount.toNat ≤ 2 * t.width.toNat - 1 ∧
      ∀ j, j < 4 → memRead t.mem (s.dstAddr.toNat + 4 * (t.width.toNat * t.height.toNat - 1) + j) = 0#8

/-- The padding of a successful PACK: an inference the spec marks as its own (41_bitpacker.md R91, derived from R81 and R84). -/
def Obligations.PackPaddingIsCorrect : Prop :=
  ∀ s : State, s.Inv → Running .pack s → s.progress.raced = false → PackFits s →
    ∃ t, exec .pack s = .next t ∧ (8 * s.srcLen.toNat + t.padBits.toNat) % 32 = 0 ∧
      t.padBits.toNat = (32 - 8 * s.srcLen.toNat % 32) % 32 ∧
      (paddedBits (payload s)).length = 32 * t.pixCount.toNat

/-- R92: PACK fails only for where its buffers are placed. -/
def Obligations.PackFailsOnlyForPlacement : Prop :=
  ∀ s : State, s.Inv → Running .pack s →
    ∃ t, exec .pack s = .next t ∧ (t.err = true ↔ ¬ PackFits s)

/-- LAYOUT of `8 * L` and a successful PACK of `L` bytes give the same results: an inference the spec marks as its own
(43_layout.md R106, derived from R101 and R84). -/
def Obligations.LayoutAgreesWithPack : Prop :=
  ∀ s u : State, PackFits u → u.srcLen.toNat ≤ 536870911 → s.bitLen.toNat = 8 * u.srcLen.toNat →
    ∃ t v, exec .layout s = .next t ∧ exec .pack u = .next v ∧ t.pixCount = v.pixCount ∧ t.width = v.width ∧
      t.height = v.height ∧ t.padBits = v.padBits ∧
      4 * (t.width.toNat * t.height.toNat) = 4 * gridCells u.srcLen.toNat

/-! ### UNPACK -/

/-- UNPACK, its errors in their order, its success, and its example (R95). The error clauses hold also of an UNPACK the host has
raced: that its error leaves memory as it is, is the model's reading, R111 put before R59 (log entry 9, DEDUCED). -/
def Obligations.UnpackByItsRule : Prop :=
  (∀ w : Word, decode w = .command .unpack ↔ w = 0x00000003#32) ∧
  (∀ s : State, ¬ InRange s.platform.memSize s.srcAddr.toNat (4 * (s.width.toNat * s.height.toNat)) →
    exec .unpack s = .next (errorState .srcRange s)) ∧
  (∀ s : State, InRange s.platform.memSize s.srcAddr.toNat (4 * (s.width.toNat * s.height.toNat)) →
    ¬ InRange s.platform.memSize s.dstAddr.toNat (4 * (s.width.toNat * s.height.toNat)) →
    exec .unpack s = .next (errorState .dstRange s)) ∧
  (∀ s : State, InRange s.platform.memSize s.srcAddr.toNat (4 * (s.width.toNat * s.height.toNat)) →
    InRange s.platform.memSize s.dstAddr.toNat (4 * (s.width.toNat * s.height.toNat)) →
    Overlap s.srcAddr.toNat (4 * (s.width.toNat * s.height.toNat)) s.dstAddr.toNat
      (4 * (s.width.toNat * s.height.toNat)) →
    exec .unpack s = .next (errorState .overlap s)) ∧
  (∀ s : State, s.Inv → Running .unpack s → s.progress.raced = false → UnpackFits s →
    ∃ t, exec .unpack s = .next t ∧ t = { s with mem := t.mem, engine := .idle, done := true } ∧
      t.err = false ∧ t.errCode = .noError ∧
      (∀ i, i < s.width.toNat * s.height.toNat → ∀ j, j < 4 →
        memRead t.mem (s.dstAddr.toNat + 4 * i + j) =
          (unpackBytes (readGrid s.mem s.srcAddr.toNat (s.width.toNat * s.height.toNat))).getD (4 * i + j) 0#8) ∧
      KeepsMemoryOutside s.dstAddr.toNat (4 * (s.width.toNat * s.height.toNat)) s t ∧
      (s.width = 2#32 → s.height = 2#32 → s.srcAddr = 0x200#32 → s.dstAddr = 0x300#32 →
        readBytes s.mem 0x200 16 = [0x48#8, 0x65#8, 0x6C#8, 0x6C#8, 0x6F#8] ++ List.replicate 11 0#8 →
        readBytes t.mem 0x300 16 = [0x48#8, 0x65#8, 0x6C#8, 0x6C#8, 0x6F#8] ++ List.replicate 11 0#8))

/-- After a successful UNPACK the destination is a copy of the grid buffer: an inference the spec marks as its own
(42_bitunpacker.md R97, derived from R93, R96 and R48). -/
def Obligations.UnpackCopiesTheGrid : Prop :=
  ∀ s : State, s.Inv → Running .unpack s → s.progress.raced = false → UnpackFits s →
    ∃ t, exec .unpack s = .next t ∧ ∀ k, k < 4 * (s.width.toNat * s.height.toNat) →
      memRead t.mem (s.dstAddr.toNat + k) = memRead s.mem (s.srcAddr.toNat + k)

/-- A grid without cells unpacks with success and without an access to memory, wherever the addresses point: an inference the spec
marks as its own (42_bitunpacker.md R98, derived from R95 and R47). -/
def Obligations.EmptyGridUnpacks : Prop :=
  (∀ s : State, s.width = 0#32 ∨ s.height = 0#32 →
    exec .unpack s = .next { s with engine := .idle, done := true }) ∧
  unpackBits [] = []

/-- PACK, then UNPACK of its grid with its dimensions, gives the payload and then zero bytes: an inference the spec marks as its own
(42_bitunpacker.md R99, derived from R86 and R97). -/
def Obligations.UnpackAfterPackGivesThePayload : Prop :=
  ∀ s t u : State, s.Inv → Running .pack s → s.progress.raced = false → PackFits s → exec .pack s = .next t →
    u.Inv → Running .unpack u → u.progress.raced = false → UnpackFits u →
    u.srcAddr = s.dstAddr → u.width = t.width → u.height = t.height →
    (∀ b, s.dstAddr.toNat ≤ b → b < s.dstAddr.toNat + 4 * gridCells s.srcLen.toNat → memRead u.mem b = memRead t.mem b) →
    ∃ v, exec .unpack u = .next v ∧
      (∀ k, k < s.srcLen.toNat → memRead v.mem (u.dstAddr.toNat + k) = memRead s.mem (s.srcAddr.toNat + k)) ∧
      (∀ k, s.srcLen.toNat ≤ k → k < 4 * (t.width.toNat * t.width.toNat) → memRead v.mem (u.dstAddr.toNat + k) = 0#8)

/-! ### Errors, frames and determinism -/

/-- One error, the first of ILLEGAL_CMD, SRC_RANGE, DST_RANGE and OVERLAP (R110). That the error of a command the host has raced
leaves memory as it is, is the model's reading, R111 put before R59 (log entry 9, DEDUCED). -/
def Obligations.FirstErrorIsReported : Prop :=
  ∀ s : State, s.busy = true → s.schedule = [] →
    (∀ why, decode s.cmd = .illegal why → step s = .next (errorState .illegalCmd s)) ∧
    (∀ i r, decode s.cmd = .command i → commandRegions i s = some r →
      (¬ InRange s.platform.memSize r.src.start r.src.len → step s = .next (errorState .srcRange s)) ∧
      (InRange s.platform.memSize r.src.start r.src.len → ¬ InRange s.platform.memSize r.dst.start r.dst.len →
        step s = .next (errorState .dstRange s)) ∧
      (InRange s.platform.memSize r.src.start r.src.len → InRange s.platform.memSize r.dst.start r.dst.len →
        Overlap r.src.start r.src.len r.dst.start r.dst.len → step s = .next (errorState .overlap s)))

/-- An error completion writes STATUS and ends the command, and changes nothing else (R111); only PACK, UNPACK and illegal words
have one, each with its own codes (R108). That this holds also of a command the host has raced is the model's reading, R111 put
before R59 (log entry 9, DEDUCED). -/
def Obligations.ErrorCompletionByItsRule : Prop :=
  (∀ (i : Instr) (s t : State), s.err = false → exec i s = .next t → t.err = true →
    t = { s with errCode := t.errCode, err := true, done := true, engine := .idle } ∧
    (i = .pack ∨ i = .unpack) ∧ t.errCode ∈ [ErrCode.srcRange, .dstRange, .overlap] ∧ t.irq = s.irqEn) ∧
  (∀ (s t : State) (why : IllegalWord), s.busy = true → decode s.cmd = .illegal why → runCommand s = .next t →
    t = { s with errCode := .illegalCmd, err := true, done := true, engine := .idle } ∧ t.irq = s.irqEn)

/-- What each command leaves unchanged when it completes, success or error, raced or not (R42, R75): CMD, the operand
registers, CTRL, WIGN, the platform and the agents; the results under NOP and UNPACK and every error; every byte of memory
under NOP, LAYOUT and every error; and every byte outside the destination region under PACK and UNPACK. For an error of a
command the host has raced this is the model's reading, R111 put before R59 (log entry 9, DEDUCED). -/
def Obligations.CommandFrames : Prop :=
  ∀ (i : Instr) (s t : State), s.Inv → s.busy = true → exec i s = .next t →
    KeepsOperands s t ∧ KeepsSurroundings s t ∧ t.engine = .idle ∧ t.done = true ∧
    (i = .nop ∨ i = .unpack ∨ t.err = true → KeepsResults s t) ∧
    (i = .nop ∨ i = .layout ∨ t.err = true → t.mem = s.mem) ∧
    (t.err = false → t.errCode = .noError) ∧
    (i = .pack → KeepsMemoryOutside s.dstAddr.toNat (4 * gridCells s.srcLen.toNat) s t) ∧
    (i = .unpack → KeepsMemoryOutside s.dstAddr.toNat (4 * (s.width.toNat * s.height.toNat)) s t)

/-- R78: the operand registers and the source bytes determine the outcome: STATUS but for WIGN, the results, and the
destination bytes; no command draws a value of its own. -/
def Obligations.OutcomeIsDetermined : Prop :=
  ∀ (i : Instr) (s u : State), s.Inv → Running i s → s.progress.raced = false → u.Inv → Running i u →
    u.progress.raced = false → u.platform.memSize = s.platform.memSize →
    u.srcAddr = s.srcAddr → u.srcLen = s.srcLen → u.dstAddr = s.dstAddr → u.bitLen = s.bitLen →
    (i = .unpack → u.width = s.width ∧ u.height = s.height) →
    (∀ r, commandRegions i s = some r → ∀ k, k < r.src.len →
      memRead u.mem (r.src.start + k) = memRead s.mem (r.src.start + k)) →
    ∃ t v, exec i s = .next t ∧ exec i u = .next v ∧
      t.done = v.done ∧ t.err = v.err ∧ t.errCode = v.errCode ∧ t.busy = v.busy ∧ t.draws = s.draws ∧ v.draws = u.draws ∧
      (i = .layout ∨ i = .pack → t.err = false → t.pixCount = v.pixCount ∧ t.width = v.width ∧ t.height = v.height ∧
        t.padBits = v.padBits) ∧
      (∀ r, commandRegions i s = some r → t.err = false → ∀ k, k < r.dst.len →
        memRead t.mem (r.dst.start + k) = memRead v.mem (r.dst.start + k))

/-! ### Ordering, races and reset of a running command -/

/-- R58 and R72: whatever single-byte reads and writes the engine takes first, in whatever order and number, and whatever the host
does between them that is no race, the completed command leaves the state that the host's own actions followed by the command in
one step leave. Only what the host read from the destination meanwhile may differ. -/
def Obligations.AnyEngineOrderEqualsOneStep : Prop :=
  ∀ (s : State) (i : Instr) (acts rest : List Action), s.Inv → Running i s → s.progress.raced = false →
    (∀ a ∈ acts, a.noRace s = true) → s.schedule = acts ++ .engineFinish :: rest →
    ∃ h u v, runSteps (hostOnly acts).length { s with schedule := hostOnly acts ++ rest } = .next h ∧ exec i h = .next v ∧
      runSteps (acts.length + 1) s = .next u ∧
      u = { v with answers := u.answers } ∧ u.answers.length = v.answers.length ∧
      ((∀ b, .memRead b ∈ acts → ∀ r, commandRegions i s = some r → r.dst.holds b = false) → u = v)

/-- R58 and R72: while the engine is at work and the host does what is no race, each byte of the destination holds its old value or
the one the completed command leaves there, each other byte what the host last wrote there or its old value, and every register
but CTRL and STATUS reads as at acceptance. A host read of any byte of memory then answers it and is no race (R59, R79). -/
def Obligations.OldOrFinalWhileBusy : Prop :=
  ∀ (s t : State) (i : Instr) (acts rest : List Action), s.Inv → Running i s → s.progress.raced = false →
    exec i s = .next t → (∀ a ∈ acts, a.noRace s = true) → s.schedule = acts ++ rest →
    ∃ u, runSteps acts.length s = .next u ∧ u.busy = true ∧ u.progress.raced = false ∧
      u = { s with engine := u.engine, mem := u.mem, schedule := rest, irqEn := u.irqEn, wign := u.wign,
                   answers := u.answers, draws := u.draws } ∧
      (∀ r, r ≠ .ctrl → r ≠ .status → readReg u r = readReg s r) ∧
      ((∀ a ∈ acts, a.isEngineAccess = true) → ∀ r, readReg u r = readReg s r) ∧
      (∀ r, commandRegions i s = some r → ∀ b, r.dst.holds b = true →
        memRead u.mem b = memRead s.mem b ∨ memRead u.mem b = memRead t.mem b) ∧
      (∀ b, (∀ r, commandRegions i s = some r → r.dst.holds b = false) →
        memRead u.mem b = memRead (hostStored s.mem acts) b) ∧
      (∀ r, commandRegions i s = some r → ∀ b, r.src.holds b = true → memRead u.mem b = memRead s.mem b) ∧
      (∀ b q, b < s.platform.memSize → s.platform.hostCoherent = true →
        step { u with schedule := .memRead b :: q } =
          .next { u with schedule := q, answers := u.answers ++ [.byte (memRead u.mem b)] })

/-- R125: a command in flight at reset, with host accesses between the engine's that are no race, is abandoned: the registers are
at their reset values, each destination byte is old or final, and no other byte has changed but by the host. -/
def Obligations.ResetAbandonsTheCommand : Prop :=
  ∀ (s t : State) (i : Instr) (acts rest : List Action), s.Inv → Running i s → s.progress.raced = false →
    exec i s = .next t → (∀ a ∈ acts, a.noRace s = true) → s.schedule = acts ++ .reset :: rest →
    ∃ u, runSteps (acts.length + 1) s = .next u ∧ u.engine = .idle ∧ u.done = false ∧ u.err = false ∧ u.errCode = .noError ∧
      u.cmd = 0#32 ∧ u.width = 0#32 ∧ u.height = 0#32 ∧ u.pixCount = 0#32 ∧ u.padBits = 0#5 ∧
      (∀ r, commandRegions i s = some r → ∀ k, k < r.dst.len →
        memRead u.mem (r.dst.start + k) = memRead s.mem (r.dst.start + k) ∨
        memRead u.mem (r.dst.start + k) = memRead t.mem (r.dst.start + k)) ∧
      (∀ b, (∀ r, commandRegions i s = some r → b < r.dst.start ∨ r.dst.start + r.dst.len ≤ b) →
        memRead u.mem b = memRead (hostStored s.mem acts) b)

/-- R125, the other direction: for every choice, byte by byte, of old or final there is an order of the engine's accesses that a
reset leaves in memory. -/
def Obligations.EveryMixOfOldAndFinalIsReached : Prop :=
  ∀ (s t : State) (i : Instr) (r : Regions) (final : Nat → Bool), s.Inv → Running i s → s.engine = .busy Progress.fresh →
    exec i s = .next t → t.err = false → commandRegions i s = some r →
    ∃ acts u, (∀ a ∈ acts, a.isEngineAccess = true) ∧
      runSteps (acts.length + 1) { s with schedule := acts ++ [.reset] } = .next u ∧
      ∀ k, k < r.dst.len → memRead u.mem (r.dst.start + k) =
        if final k then memRead t.mem (r.dst.start + k) else memRead s.mem (r.dst.start + k)

/-- R59, in the model's free values (log entry 5): a host write to a byte of the running command's regions is performed, marks
the command as raced and leaves every register and flag and the rest of the progress; bytes the engine had written become free
values, one draw each. -/
def Obligations.HostWriteRacesTheCommand : Prop :=
  ∀ (s : State) (i : Instr) (r : Regions) (a : Nat) (v : Byte) (rest : List Action), s.Inv → Running i s →
    commandRegions i s = some r → (r.src.holds a = true ∨ r.dst.holds a = true) →
    a < s.platform.memSize → s.schedule = .memWrite a v :: rest →
    ∃ t, step s = .next t ∧ t.progress.raced = true ∧ t.progress.written = s.progress.written ∧
      t.progress.read = s.progress.read ∧ Running i t ∧
      t = { s with schedule := rest, engine := t.engine, mem := t.mem, draws := s.draws + s.progress.written.length } ∧
      (∀ k ∈ s.progress.written, memRead t.mem (r.dst.start + k) =
        Config.freeByte (s.draws + s.progress.written.idxOf k)) ∧
      (∀ b, (∀ k ∈ s.progress.written, b ≠ r.dst.start + k) → memRead t.mem b = if b = a then v else memRead s.mem b)

/-- R59, in the model's free values (log entry 5): a raced command completes with its usual STATUS and results, writes nothing
outside its destination, and every destination byte it still had to write gets a free value of its own, the one draw after the
other; a single engine write before the completion gives its byte the next draw. -/
def Obligations.RacedCommandCompletesWithFreeBytes : Prop :=
  ∀ (s : State) (i : Instr) (r : Regions), s.Inv → Running i s → s.progress.raced = true →
    activeTransfer s = some (i, r) →
    (∃ t, exec i s = .next t ∧ t.busy = false ∧ t.done = true ∧ t.err = false ∧ t.errCode = .noError ∧
      (i = .pack → t.pixCount.toNat = (layoutFn (8 * s.srcLen.toNat)).pixCount ∧
        t.width.toNat = (layoutFn (8 * s.srcLen.toNat)).width ∧ t.height = t.width ∧
        t.padBits.toNat = (layoutFn (8 * s.srcLen.toNat)).padBits) ∧
      (i = .unpack → KeepsResults s t) ∧
      KeepsMemoryOutside r.dst.start r.dst.len s t ∧
      (∀ k ∈ s.progress.written, memRead t.mem (r.dst.start + k) = memRead s.mem (r.dst.start + k)) ∧
      (∀ k, k < r.dst.len → k ∉ s.progress.written → memRead t.mem (r.dst.start + k) =
        Config.freeByte (s.draws + (remainingOffsets r.dst.len s.progress.written).idxOf k)) ∧
      t.draws = s.draws + (remainingOffsets r.dst.len s.progress.written).length) ∧
    (∀ (k : Nat) (rest : List Action), k < r.dst.len → k ∉ s.progress.written → (k < r.src.len → k ∈ s.progress.read) →
      s.schedule = .engineWrite k :: rest →
      ∃ t, step s = .next t ∧
        t = { s with schedule := rest, engine := t.engine, mem := t.mem, draws := s.draws + 1 } ∧ t.busy = true ∧
        t.progress.raced = true ∧ t.progress.read = s.progress.read ∧
        (∀ j, j ∈ t.progress.written ↔ j = k ∨ j ∈ s.progress.written) ∧
        (∀ b, memRead t.mem b = if b = r.dst.start + k then Config.freeByte s.draws else memRead s.mem b))

/-- A host write outside both regions of the running command, or with no command in flight, changes that byte and nothing else
(R59, R79), whatever comes next. A host read of an existing byte answers it on a coherent platform (R53) and, by the model's
reading of U3 (log entry 3, DEDUCED), a free byte on another; in either phase it changes nothing else and races nothing. -/
def Obligations.OtherHostWritesDoNotInteract : Prop :=
  (∀ (s : State) (a : Nat) (v : Byte) (rest : List Action), s.Inv → a < s.platform.memSize →
    (∀ r, runningRegions s = some r → r.src.holds a = false ∧ r.dst.holds a = false) →
    s.schedule = .memWrite a v :: rest →
    ∃ t, step s = .next t ∧ t = { s with schedule := rest, mem := t.mem } ∧
      (∀ b, memRead t.mem b = if b = a then v else memRead s.mem b)) ∧
  (∀ (s : State) (a : Nat) (rest : List Action), a < s.platform.memSize → s.schedule = .memRead a :: rest →
    (s.platform.hostCoherent = true →
      step s = .next { s with schedule := rest, answers := s.answers ++ [.byte (memRead s.mem a)] }) ∧
    (s.platform.hostCoherent = false →
      step s = .next { s with schedule := rest, answers := s.answers ++ [.byte (Config.freeByte s.draws)],
                              draws := s.draws + 1 }))

/-- R47: a region in range is one whose every byte exists, and two regions overlap exactly when they share a byte. -/
def Obligations.RegionChecksAreAboutBytes : Prop :=
  (∀ (n : Nat) (r : Region), inRange n r = true ↔ ∀ a, r.holds a = true → a < n) ∧
  (∀ r q : Region, overlaps r q = true ↔ ∃ a, r.holds a = true ∧ q.holds a = true) ∧
  (∀ n a : Nat, inRange n { start := a, len := 0 } = true) ∧
  (∀ (a : Nat) (q : Region), overlaps { start := a, len := 0 } q = false ∧ overlaps q { start := a, len := 0 } = false)

/-! ### Host programs -/

/-- R39: a register write and a completion at the same time are one of two orders, and the machine has both, for every register:
a write to CMD or an operand register that comes first is ignored and recorded, and the completion first lets it through
(95_test_vectors.md P4); CTRL takes it in either order; a STATUS write that comes first clears WIGN alone. -/
def Obligations.WriteAndCompletionInEitherOrder : Prop :=
  ∀ (s t : State) (i : Instr) (r : Reg) (v : Word) (rest : List Action), s.Inv → Running i s →
    exec i { s with schedule := rest } = .next t →
    (s.schedule = wr s.platform r v :: .engineFinish :: rest →
      (r ∈ [Reg.cmd, .srcAddr, .srcLen, .dstAddr, .bitLen, .width, .height] → runSteps 2 s = .next { t with wign := true }) ∧
      (r = .ctrl → runSteps 2 s = .next { t with irqEn := v.getLsbD 0 }) ∧
      (r = .status → runSteps 2 s = .next { t with wign := t.wign && !v.getLsbD 3 }) ∧
      (r ∈ [Reg.id, .pixCount, .padBits] → runSteps 2 s = .next t)) ∧
    (s.schedule = .engineFinish :: wr s.platform r v :: rest → runSteps 2 s = .next (writeReg r v t) ∧
      (r = .srcAddr → writeReg r v t = { t with srcAddr := v }) ∧ (r = .srcLen → writeReg r v t = { t with srcLen := v }) ∧
      (r = .dstAddr → writeReg r v t = { t with dstAddr := v }) ∧ (r = .bitLen → writeReg r v t = { t with bitLen := v }) ∧
      (r = .width → writeReg r v t = { t with width := v }) ∧ (r = .height → writeReg r v t = { t with height := v }) ∧
      (r = .cmd → writeReg r v t = acceptCommand v t) ∧ (r = .ctrl → writeReg r v t = { t with irqEn := v.getLsbD 0 }) ∧
      (r = .status → writeReg r v t = writeStatus v t) ∧ (r ∈ [Reg.id, .pixCount, .padBits] → writeReg r v t = t))

/-- R71: the pseudo-instructions, performed while idle, put a command in flight with the operands they name; ACK clears DONE,
ERR, ERRCODE and WIGN. -/
def Obligations.PseudoInstructionsStartCommands : Prop :=
  ∀ s : State, s.engine = .idle →
    (s.schedule = progNop s.platform → ∃ t, runSteps 1 s = .next t ∧ Running .nop t) ∧
    (∀ n, s.schedule = progLayout s.platform n → ∃ t, runSteps 2 s = .next t ∧ Running .layout t ∧ t.bitLen = n) ∧
    (∀ a l d, s.schedule = progPack s.platform a l d → ∃ t, runSteps 4 s = .next t ∧ Running .pack t ∧ t.srcAddr = a ∧
      t.srcLen = l ∧ t.dstAddr = d) ∧
    (∀ a w h d, s.schedule = progUnpack s.platform a w h d → ∃ t, runSteps 5 s = .next t ∧ Running .unpack t ∧
      t.srcAddr = a ∧ t.width = w ∧ t.height = h ∧ t.dstAddr = d) ∧
    (s.schedule = progAck s.platform → ∃ t, runSteps 1 s = .next t ∧ t.done = false ∧ t.err = false ∧
      t.errCode = .noError ∧ t.wign = false)

/-! ### The result counters -/

/-- R34 and R35: PIX_COUNT and PAD_BITS ignore host writes, read 0 after reset, hold the counts of a LAYOUT or of a PACK that
passes its checks, are kept by UNPACK, NOP and every error completion, and fit their bits. -/
def Obligations.ResultCountersByTheirRules : Prop :=
  (∀ (s : State) (r : Reg) (v : Word) (rest : List Action), r = .pixCount ∨ r = .padBits →
    s.schedule = wr s.platform r v :: rest → step s = .next { s with schedule := rest }) ∧
  (∀ (p : Platform) (m : List Host.Cell),
    readReg (State.resetOn p m) .pixCount = 0#32 ∧ readReg (State.resetOn p m) .padBits = 0#32) ∧
  (∀ s : State, ∃ t, exec .layout s = .next t ∧
    (readReg t .pixCount).toNat = ceilDiv s.bitLen.toNat 32 ∧ (readReg t .pixCount).toNat ≤ 2 ^ 27 ∧
    (readReg t .padBits).toNat = (32 - s.bitLen.toNat % 32) % 32) ∧
  (∀ s : State, PackFits s → ∃ t, exec .pack s = .next t ∧
    (readReg t .pixCount).toNat = ceilDiv (8 * s.srcLen.toNat) 32 ∧ (readReg t .pixCount).toNat ≤ 2 ^ 30 ∧
    (readReg t .padBits).toNat = (32 - 8 * s.srcLen.toNat % 32) % 32) ∧
  (∀ (i : Instr) (s t : State), s.err = false → exec i s = .next t → i = .nop ∨ i = .unpack ∨ t.err = true →
    readReg t .pixCount = readReg s .pixCount ∧ readReg t .padBits = readReg s .padBits) ∧
  (∀ (s t : State) (why : IllegalWord), s.busy = true → decode s.cmd = .illegal why → runCommand s = .next t →
    readReg t .pixCount = readReg s .pixCount ∧ readReg t .padBits = readReg s .padBits) ∧
  (∀ s : State, (readReg s .padBits).extractLsb' 5 27 = 0#27)
end

