-- ==== Sys2Proof/Laws/Grid.lean ====
section
/-!
SUPPORT. What the functions of plain data compute: the integer square root, bits and integers, and each byte of a packed or an
unpacked grid.
-/
namespace Sys2Proof.Machine

/-! ### The integer square root -/

theorem isqrtFuel_bounds (fuel n : Nat) (h : n < 4 ^ fuel) :
    isqrtFuel fuel n * isqrtFuel fuel n ≤ n ∧ n < (isqrtFuel fuel n + 1) * (isqrtFuel fuel n + 1) := by
  induction fuel generalizing n with
  | zero => simp at h; simp [isqrtFuel, h]
  | succ fuel ih =>
    have hq : n / 4 < 4 ^ fuel := by rw [pow_succ] at h; omega
    obtain ⟨hlo, hhi⟩ := ih (n / 4) hq
    simp only [isqrtFuel]
    generalize isqrtFuel fuel (n / 4) = r at hlo hhi
    simp only [isqrtDigit]
    have h1 : 4 * (r * r) ≤ n := by omega
    have h2 : n < 4 * ((r + 1) * (r + 1)) := by omega
    split
    · constructor
      · assumption
      · nlinarith
    · constructor
      · nlinarith
      · omega

/-- `isqrt n` is the greatest integer whose square is at most `n` (spec/00_scope.md R10). -/
theorem isqrt_bounds (n : Nat) : isqrt n * isqrt n ≤ n ∧ n < (isqrt n + 1) * (isqrt n + 1) := by
  refine isqrtFuel_bounds _ n ?_
  calc n < 2 ^ (n.log2 + 1) := Nat.lt_log2_self
    _ ≤ 4 ^ (n.log2 + 1) := Nat.pow_le_pow_left (by decide) _

/-- The two bounds determine the root. -/
theorem isqrt_unique {n m : Nat} (hlo : m * m ≤ n) (hhi : n < (m + 1) * (m + 1)) : isqrt n = m := by
  obtain ⟨h1, h2⟩ := isqrt_bounds n
  rcases Nat.lt_trichotomy (isqrt n) m with h | h | h
  · nlinarith
  · exact h
  · nlinarith

theorem isqrt_mono {m n : Nat} (h : m ≤ n) : isqrt m ≤ isqrt n := by
  by_contra hlt
  have h1 := (isqrt_bounds m).1
  have h2 := (isqrt_bounds n).2
  nlinarith

/-! ### Bits and integers -/

@[simp] theorem bits8_length (v : Byte) : (bits8 v).length = 8 := by simp [bits8]

/-- The eight bits of a byte give the byte back. -/
theorem intOfBits_bits8 : ∀ v : Byte, BitVec.ofNat 8 (intOfBits (bits8 v)) = v := by decide +kernel

theorem intOfBits_replicate_false (n : Nat) : intOfBits (List.replicate n false) = 0 := by
  induction n with
  | zero => rfl
  | succ n ih => simpa [intOfBits, List.replicate_succ] using ih

/-- The eight positions from `8 * k` of a run of bytes are the bits of byte `k`. -/
theorem slice_flatMap_bits8 (P : List Byte) (rest : List Bool) (k : Nat) (hk : k < P.length) :
    slice (P.flatMap bits8 ++ rest) (8 * k) (8 * k + 8) = bits8 (P.getD k 0#8) := by
  induction P generalizing k with
  | nil => simp at hk
  | cons v P ih =>
    cases k with
    | zero =>
      simp only [slice, List.flatMap_cons, List.append_assoc, Nat.mul_zero, List.drop_zero, Nat.zero_add, Nat.sub_zero,
        List.getD_cons_zero]
      rw [List.take_left' (bits8_length v)]
    | succ k =>
      have hk' : k < P.length := by simpa using hk
      rw [List.getD_cons_succ, ← ih k hk']
      simp only [slice, List.flatMap_cons, List.append_assoc]
      have e : 8 * (k + 1) = (bits8 v).length + 8 * k := by rw [bits8_length]; omega
      rw [e, ← List.drop_drop, List.drop_left]
      congr 1
      rw [bits8_length]; omega

theorem flatMap_bits8_length (P : List Byte) : (P.flatMap bits8).length = 8 * P.length := by
  induction P with
  | nil => rfl
  | cons v P ih => simp [List.flatMap_cons, ih]; omega

/-- The padded bitstream is the bits of the payload and its zero padding, as bytes. -/
theorem paddedBits_eq_bytes (P : List Byte) :
    paddedBits P = (P ++ List.replicate ((4 - P.length % 4) % 4) 0#8).flatMap bits8 := by
  have hz : ∀ n, (List.replicate n (0#8)).flatMap bits8 = List.replicate (8 * n) false := by
    intro n
    induction n with
    | zero => rfl
    | succ n ih =>
      have h8 : bits8 0#8 = List.replicate 8 false := by decide
      rw [List.replicate_succ, List.flatMap_cons, ih, h8, Nat.mul_add, Nat.add_comm (8 * n), List.replicate_add]
  have hp : padLength (8 * P.length) = 8 * ((4 - P.length % 4) % 4) := by simp only [padLength]; omega
  rw [List.flatMap_append, hz, paddedBits, payloadBits, hp]

theorem slice_slice (s : List Bool) (i a b n : Nat) (h : b ≤ n) :
    slice (slice s i (i + n)) a b = slice s (i + a) (i + b) := by
  simp only [slice, List.drop_take, List.drop_drop, List.take_take]
  congr 1
  omega

/-- Byte `k` of a run of bytes, read back from its bits. -/
theorem byte_of_slice (Q : List Byte) (k : Nat) (hk : k < Q.length) :
    BitVec.ofNat 8 (intOfBits (slice (Q.flatMap bits8) (8 * k) (8 * k + 8))) = Q.getD k 0#8 := by
  have h := slice_flatMap_bits8 Q [] k hk
  rw [List.append_nil] at h
  rw [h, intOfBits_bits8]

/-! ### Packing -/

theorem getD_append_zeros (P : List Byte) (n k : Nat) :
    (P ++ List.replicate n 0#8).getD k 0#8 = P.getD k 0#8 := by
  simp only [List.getD_eq_getElem?_getD]
  by_cases h : k < P.length
  · rw [List.getElem?_append_left h]
  · rw [List.getElem?_append_right (by omega), List.getElem?_replicate]
    rw [List.getElem?_eq_none (by omega)]
    split <;> rfl

theorem pixelOfChunk_chunk (P : List Byte) (j : Nat) (hj : j < (layoutFn (8 * P.length)).pixCount) :
    pixelOfChunk (chunk P j) =
      { r := P.getD (4 * j) 0#8, g := P.getD (4 * j + 1) 0#8, b := P.getD (4 * j + 2) 0#8, a := P.getD (4 * j + 3) 0#8 } := by
  have hlen : (P ++ List.replicate ((4 - P.length % 4) % 4) 0#8).length = 4 * (layoutFn (8 * P.length)).pixCount := by
    simp [layoutFn, ceilDiv]; omega
  have key : ∀ c, c < 4 → BitVec.ofNat 8 (intOfBits (slice (chunk P j) (8 * c) (8 * c + 8))) = P.getD (4 * j + c) 0#8 := by
    intro c hc
    rw [chunk, slice_slice _ _ _ _ _ (by omega), paddedBits_eq_bytes]
    have e1 : 32 * j + 8 * c = 8 * (4 * j + c) := by omega
    have e2 : 32 * j + (8 * c + 8) = 8 * (4 * j + c) + 8 := by omega
    rw [e1, e2, byte_of_slice _ _ (by omega), getD_append_zeros]
  simp only [pixelOfChunk]
  have k0 := key 0 (by omega)
  have k1 := key 1 (by omega)
  have k2 := key 2 (by omega)
  have k3 := key 3 (by omega)
  simp only [Nat.mul_zero, Nat.add_zero, Nat.zero_add, Nat.mul_one] at k0 k1 k2 k3
  rw [k0, k1, k2, k3]

/-- Every byte of a grid buffer is the payload's, or 0 past its end. -/
theorem packByte_eq_getD (P : List Byte) (k : Nat) : packByte P k = P.getD k 0#8 := by
  by_cases hj : k / 4 < (layoutFn (8 * P.length)).pixCount
  · rw [packByte, packCell, if_pos hj, pixelOfChunk_chunk P _ hj]
    have hk : k = 4 * (k / 4) + k % 4 := by omega
    have hm : k % 4 < 4 := by omega
    generalize k / 4 = q at hk hj
    generalize k % 4 = c at hk hm
    subst hk
    simp only [Pixel.channel]
    have : c = 0 ∨ c = 1 ∨ c = 2 ∨ c = 3 := by omega
    rcases this with rfl | rfl | rfl | rfl <;> simp
  · rw [packByte, packCell, if_neg hj]
    have hlen : P.length ≤ k := by
      simp [layoutFn, ceilDiv] at hj; omega
    rw [List.getD_eq_getElem?_getD, List.getElem?_eq_none hlen]
    simp only [Pixel.channel, Pixel.zero]
    split
    · rfl
    · split
      · rfl
      · split <;> rfl

@[simp] theorem packBytes_length (P : List Byte) : (packBytes P).length = 4 * packCells P.length := by simp [packBytes]

theorem packBytes_getD (P : List Byte) (k : Nat) (hk : k < 4 * packCells P.length) :
    (packBytes P).getD k 0#8 = packByte P k := by
  simp [packBytes, List.getD_eq_getElem?_getD, hk]

/-! ### Unpacking -/

/-- The channels of a grid, in order. -/
theorem unpackBits_eq_bytes (grid : List Pixel) :
    unpackBits grid = (grid.flatMap fun p => [p.r, p.g, p.b, p.a]).flatMap bits8 := by
  simp [unpackBits, List.flatMap_assoc]

theorem readGrid_channels (m : List Host.Cell) (g n : Nat) :
    (readGrid m g n).flatMap (fun p => [p.r, p.g, p.b, p.a]) = readBytes m g (4 * n) := by
  induction n with
  | zero => rfl
  | succ n ih =>
    have e : readGrid m g (n + 1) = readGrid m g n ++
        [{ r := memRead m (g + 4 * n), g := memRead m (g + 4 * n + 1),
           b := memRead m (g + 4 * n + 2), a := memRead m (g + 4 * n + 3) }] := by
      simp [readGrid, List.range_succ]
    rw [e, List.flatMap_append, ih]
    have e4 : 4 * (n + 1) = 4 * n + 1 + 1 + 1 + 1 := by omega
    simp [readBytes, e4, List.range_succ, Nat.add_assoc]

@[simp] theorem readGrid_length (m : List Host.Cell) (g n : Nat) : (readGrid m g n).length = n := by simp [readGrid]

theorem readBytes_getD (m : List Host.Cell) (a n k : Nat) (hk : k < n) : (readBytes m a n).getD k 0#8 = memRead m (a + k) := by
  simp [readBytes, List.getD_eq_getElem?_getD, hk]

@[simp] theorem readBytes_length (m : List Host.Cell) (a n : Nat) : (readBytes m a n).length = n := by simp [readBytes]

/-- Every byte of an unpacked grid buffer is the buffer's byte. -/
theorem unpackByte_readGrid (m : List Host.Cell) (g n k : Nat) (hk : k < 4 * n) :
    unpackByte (readGrid m g n) k = memRead m (g + k) := by
  rw [unpackByte, unpackBits_eq_bytes, readGrid_channels, byte_of_slice _ _ (by simpa using hk), readBytes_getD _ _ _ _ hk]

theorem unpackBytes_readGrid (m : List Host.Cell) (g n : Nat) : unpackBytes (readGrid m g n) = readBytes m g (4 * n) := by
  simp only [unpackBytes, readGrid_length, readBytes]
  exact List.map_congr_left fun k hk => unpackByte_readGrid m g n k (by simpa using hk)

end Sys2Proof.Machine
end

