-- ==== Sys2Proof/Laws/Memory.lean ====
section
/-!
SUPPORT. What the memory operations do: a read after a write, the canonical form kept by every write, and equal memories from
equal reads.
-/
namespace Sys2Proof.Machine

/-! ### The canonical form -/

theorem memory_wf_cons {c : Host.Cell} {m : List Host.Cell} :
    Memory.wf (c :: m) = true ↔ c.2 ≠ 0#8 ∧ (∀ d ∈ m, c.1 < d.1) ∧ Memory.wf m = true := by
  simp [Memory.wf, and_assoc]

/-- Below every listed address a memory reads 0. -/
theorem memRead_eq_zero_of_lt {m : List Host.Cell} {a : Nat} (h : ∀ d ∈ m, a < d.1) : memRead m a = 0#8 := by
  induction m with
  | nil => rfl
  | cons c m ih =>
    have hc : a ≠ c.1 := Nat.ne_of_lt (h c (by simp))
    simp [memRead, hc, ih fun d hd => h d (by simp [hd])]

/-- An address that is not listed reads 0. -/
theorem memRead_eq_zero_of_not_listed {m : List Host.Cell} {a : Nat} (h : ∀ d ∈ m, d.1 ≠ a) : memRead m a = 0#8 := by
  induction m with
  | nil => rfl
  | cons c m ih =>
    have hc : a ≠ c.1 := fun e => h c (by simp) e.symm
    simp [memRead, hc, ih fun d hd => h d (by simp [hd])]

theorem memWrite_addresses {m : List Host.Cell} {a : Nat} {v : Byte} {d : Host.Cell} (hd : d ∈ memWrite m a v) :
    d = (a, v) ∨ d ∈ m := by
  induction m with
  | nil =>
    by_cases hv : v = 0#8 <;> simp_all [memWrite]
  | cons c m ih =>
    simp only [memWrite] at hd
    split at hd
    · split at hd
      · exact .inr hd
      · simpa using hd
    · split at hd
      · split at hd
        · exact .inr (by simp [hd])
        · rcases List.mem_cons.1 hd with h | h
          · exact .inl h
          · exact .inr (by simp [h])
      · rcases List.mem_cons.1 hd with h | h
        · exact .inr (by simp [h])
        · rcases ih h with h | h
          · exact .inl h
          · exact .inr (by simp [h])

/-- A write keeps the canonical form. -/
theorem memWrite_wf {m : List Host.Cell} (a : Nat) (v : Byte) (hm : Memory.wf m = true) :
    Memory.wf (memWrite m a v) = true := by
  induction m with
  | nil => by_cases hv : v = 0#8 <;> simp [memWrite, Memory.wf, hv]
  | cons c m ih =>
    obtain ⟨h0, hlt, hwf⟩ := memory_wf_cons.1 hm
    simp only [memWrite]
    split
    next hac =>
      split
      · exact hm
      next hv =>
        refine memory_wf_cons.2 ⟨hv, fun d hd => ?_, hm⟩
        rcases List.mem_cons.1 hd with rfl | hd
        · exact hac
        · exact hac.trans (hlt d hd)
    next hac =>
      split
      next hEq =>
        split
        · exact hwf
        next hv => exact memory_wf_cons.2 ⟨hv, fun d hd => hEq ▸ hlt d hd, hwf⟩
      next hne =>
        refine memory_wf_cons.2 ⟨h0, fun d hd => ?_, ih hwf⟩
        rcases memWrite_addresses hd with rfl | hd
        · show c.1 < a
          omega
        · exact hlt d hd

/-- A write keeps every listed address below a bound that the written address is below. -/
theorem memWrite_inside {m : List Host.Cell} {a n : Nat} (v : Byte) (hm : ∀ c ∈ m, c.1 < n) (ha : a < n) :
    ∀ c ∈ memWrite m a v, c.1 < n := by
  intro c hc
  rcases memWrite_addresses hc with rfl | hc
  · exact ha
  · exact hm c hc

/-! ### A read after a write -/

/-- A read after a write gives the value written at its address, and the old byte everywhere else. -/
theorem memRead_memWrite {m : List Host.Cell} (hm : Memory.wf m = true) (a : Nat) (v : Byte) (b : Nat) :
    memRead (memWrite m a v) b = if b = a then v else memRead m b := by
  induction m with
  | nil =>
    by_cases hv : v = 0#8 <;> by_cases hb : b = a <;> simp [memWrite, memRead, hv, hb]
  | cons c m ih =>
    obtain ⟨-, hlt, hwf⟩ := memory_wf_cons.1 hm
    simp only [memWrite]
    split
    next hac =>
      split
      next hv =>
        by_cases hb : b = a
        · have : memRead (c :: m) a = 0#8 := memRead_eq_zero_of_lt fun d hd => by
            rcases List.mem_cons.1 hd with rfl | hd
            · exact hac
            · exact hac.trans (hlt d hd)
          simp [hb, hv, this]
        · simp [hb]
      · by_cases hb : b = a <;> simp [memRead, hb]
    next hac =>
      split
      next hEq =>
        split
        next hv =>
          by_cases hb : b = a
          · simp only [hb, if_true, hv]
            exact memRead_eq_zero_of_lt fun d hd => hEq ▸ hlt d hd
          · have hbc : b ≠ c.1 := hEq ▸ hb
            simp [memRead, hb, hbc]
        next hv =>
          by_cases hb : b = a
          · simp [memRead, hb]
          · have hbc : b ≠ c.1 := hEq ▸ hb
            simp [memRead, hb, hbc]
      next hne =>
        simp only [memRead, ih hwf]
        by_cases hb : b = c.1
        · have : b ≠ a := fun e => hne (e ▸ hb)
          simp [hb, Ne.symm hne]
        · simp [hb]

theorem memRead_memWrite_self {m : List Host.Cell} (hm : Memory.wf m = true) (a : Nat) (v : Byte) :
    memRead (memWrite m a v) a = v := by
  simp [memRead_memWrite hm]

theorem memRead_memWrite_of_ne {m : List Host.Cell} (hm : Memory.wf m = true) {a b : Nat} (v : Byte) (h : b ≠ a) :
    memRead (memWrite m a v) b = memRead m b := by
  simp [memRead_memWrite hm, h]

/-! ### Equal memories -/

/-- Two memories in canonical form that read alike are equal. -/
theorem memory_ext {m n : List Host.Cell} (hm : Memory.wf m = true) (hn : Memory.wf n = true)
    (h : ∀ a, memRead m a = memRead n a) : m = n := by
  induction m generalizing n with
  | nil =>
    cases n with
    | nil => rfl
    | cons d n =>
      have := h d.1
      simp [memRead, (memory_wf_cons.1 hn).1.symm] at this
  | cons c m ih =>
    obtain ⟨hc0, hclt, hmwf⟩ := memory_wf_cons.1 hm
    cases n with
    | nil =>
      have := h c.1
      simp [memRead, hc0] at this
    | cons d n =>
      obtain ⟨hd0, hdlt, hnwf⟩ := memory_wf_cons.1 hn
      have hcd : c.1 = d.1 := by
        rcases lt_trichotomy c.1 d.1 with hlt | heq | hgt
        · have h1 := h c.1
          rw [memRead_eq_zero_of_lt (m := d :: n) fun e he => by
            rcases List.mem_cons.1 he with rfl | he
            · exact hlt
            · exact hlt.trans (hdlt e he)] at h1
          simp [memRead, hc0] at h1
        · exact heq
        · have h1 := h d.1
          rw [memRead_eq_zero_of_lt (m := c :: m) fun e he => by
            rcases List.mem_cons.1 he with rfl | he
            · exact hgt
            · exact hgt.trans (hclt e he)] at h1
          simp [memRead] at h1
          exact absurd h1.symm hd0
      have hv : c.2 = d.2 := by
        have h1 := h c.1
        simpa [memRead, hcd] using h1
      have hmn : m = n := ih hmwf hnwf fun a => by
        by_cases ha : a = c.1
        · subst ha
          rw [memRead_eq_zero_of_lt hclt, memRead_eq_zero_of_lt (hcd ▸ hdlt)]
        · have h1 := h a
          have had : a ≠ d.1 := hcd ▸ ha
          simpa [memRead, ha, had] using h1
      rw [hmn, Prod.ext hcd hv]

/-! ### Many writes -/

@[simp] theorem memWriteAll_nil (m : List Host.Cell) : memWriteAll m [] = m := rfl

@[simp] theorem memWriteAll_cons (m : List Host.Cell) (c : Host.Cell) (cells : List Host.Cell) :
    memWriteAll m (c :: cells) = memWriteAll (memWrite m c.1 c.2) cells := rfl

theorem memWriteAll_wf {m : List Host.Cell} (cells : List Host.Cell) (hm : Memory.wf m = true) :
    Memory.wf (memWriteAll m cells) = true := by
  induction cells generalizing m with
  | nil => exact hm
  | cons c cells ih => exact ih (memWrite_wf c.1 c.2 hm)

theorem memWriteAll_inside {m cells : List Host.Cell} {n : Nat} (hm : ∀ c ∈ m, c.1 < n) (hc : ∀ c ∈ cells, c.1 < n) :
    ∀ c ∈ memWriteAll m cells, c.1 < n := by
  induction cells generalizing m with
  | nil => exact hm
  | cons c cells ih =>
    exact ih (memWrite_inside c.2 hm (hc c (by simp))) fun d hd => hc d (by simp [hd])

/-- Many writes leave every address they do not name. -/
theorem memRead_memWriteAll_of_not_mem {m cells : List Host.Cell} {b : Nat} (hm : Memory.wf m = true)
    (hb : ∀ c ∈ cells, c.1 ≠ b) : memRead (memWriteAll m cells) b = memRead m b := by
  induction cells generalizing m with
  | nil => rfl
  | cons c cells ih =>
    rw [memWriteAll_cons, ih (memWrite_wf c.1 c.2 hm) fun d hd => hb d (by simp [hd])]
    exact memRead_memWrite_of_ne hm c.2 (hb c (by simp)).symm

/-- Of many writes to different addresses, each is what its address reads afterwards. -/
theorem memRead_memWriteAll_of_mem {m cells : List Host.Cell} {c : Host.Cell} (hm : Memory.wf m = true)
    (hnd : (cells.map Prod.fst).Nodup) (hc : c ∈ cells) : memRead (memWriteAll m cells) c.1 = c.2 := by
  induction cells generalizing m with
  | nil => cases hc
  | cons d cells ih =>
    rw [List.map_cons, List.nodup_cons] at hnd
    obtain ⟨hd, hnd⟩ := hnd
    rcases List.mem_cons.1 hc with rfl | hc
    · rw [memWriteAll_cons, memRead_memWriteAll_of_not_mem (memWrite_wf c.1 c.2 hm), memRead_memWrite_self hm]
      exact fun e he h => hd (h ▸ List.mem_map_of_mem he)
    · exact ih (memWrite_wf d.1 d.2 hm) hnd hc

/-- Memory with nothing listed is in canonical form. -/
theorem empty_memory_wf : Memory.wf [] = true := rfl

end Sys2Proof.Machine
end

