-- ==== Sys2Proof/Laws/State.lean ====
section
/-!
SUPPORT. For each named update of the state, what every field of the result is.
-/
namespace Sys2Proof.Machine

/-! ### Acceptance -/

@[simp] theorem acceptCommand_platform (v : Word) (s : State) : (acceptCommand v s).platform = s.platform := rfl
@[simp] theorem acceptCommand_engine (v : Word) (s : State) : (acceptCommand v s).engine = .busy Progress.fresh := rfl
@[simp] theorem acceptCommand_irqEn (v : Word) (s : State) : (acceptCommand v s).irqEn = s.irqEn := rfl
@[simp] theorem acceptCommand_done (v : Word) (s : State) : (acceptCommand v s).done = false := rfl
@[simp] theorem acceptCommand_err (v : Word) (s : State) : (acceptCommand v s).err = false := rfl
@[simp] theorem acceptCommand_wign (v : Word) (s : State) : (acceptCommand v s).wign = s.wign := rfl
@[simp] theorem acceptCommand_errCode (v : Word) (s : State) : (acceptCommand v s).errCode = .noError := rfl
@[simp] theorem acceptCommand_cmd (v : Word) (s : State) : (acceptCommand v s).cmd = v := rfl
@[simp] theorem acceptCommand_srcAddr (v : Word) (s : State) : (acceptCommand v s).srcAddr = s.srcAddr := rfl
@[simp] theorem acceptCommand_srcLen (v : Word) (s : State) : (acceptCommand v s).srcLen = s.srcLen := rfl
@[simp] theorem acceptCommand_dstAddr (v : Word) (s : State) : (acceptCommand v s).dstAddr = s.dstAddr := rfl
@[simp] theorem acceptCommand_bitLen (v : Word) (s : State) : (acceptCommand v s).bitLen = s.bitLen := rfl
@[simp] theorem acceptCommand_width (v : Word) (s : State) : (acceptCommand v s).width = s.width := rfl
@[simp] theorem acceptCommand_height (v : Word) (s : State) : (acceptCommand v s).height = s.height := rfl
@[simp] theorem acceptCommand_pixCount (v : Word) (s : State) : (acceptCommand v s).pixCount = s.pixCount := rfl
@[simp] theorem acceptCommand_padBits (v : Word) (s : State) : (acceptCommand v s).padBits = s.padBits := rfl
@[simp] theorem acceptCommand_mem (v : Word) (s : State) : (acceptCommand v s).mem = s.mem := rfl
@[simp] theorem acceptCommand_schedule (v : Word) (s : State) : (acceptCommand v s).schedule = s.schedule := rfl
@[simp] theorem acceptCommand_answers (v : Word) (s : State) : (acceptCommand v s).answers = s.answers := rfl
@[simp] theorem acceptCommand_draws (v : Word) (s : State) : (acceptCommand v s).draws = s.draws := rfl

/-! ### Success completion -/

@[simp] theorem completeOk_platform (s : State) : (completeOk s).platform = s.platform := rfl
@[simp] theorem completeOk_engine (s : State) : (completeOk s).engine = .idle := rfl
@[simp] theorem completeOk_irqEn (s : State) : (completeOk s).irqEn = s.irqEn := rfl
@[simp] theorem completeOk_done (s : State) : (completeOk s).done = true := rfl
@[simp] theorem completeOk_err (s : State) : (completeOk s).err = s.err := rfl
@[simp] theorem completeOk_wign (s : State) : (completeOk s).wign = s.wign := rfl
@[simp] theorem completeOk_errCode (s : State) : (completeOk s).errCode = s.errCode := rfl
@[simp] theorem completeOk_cmd (s : State) : (completeOk s).cmd = s.cmd := rfl
@[simp] theorem completeOk_srcAddr (s : State) : (completeOk s).srcAddr = s.srcAddr := rfl
@[simp] theorem completeOk_srcLen (s : State) : (completeOk s).srcLen = s.srcLen := rfl
@[simp] theorem completeOk_dstAddr (s : State) : (completeOk s).dstAddr = s.dstAddr := rfl
@[simp] theorem completeOk_bitLen (s : State) : (completeOk s).bitLen = s.bitLen := rfl
@[simp] theorem completeOk_width (s : State) : (completeOk s).width = s.width := rfl
@[simp] theorem completeOk_height (s : State) : (completeOk s).height = s.height := rfl
@[simp] theorem completeOk_pixCount (s : State) : (completeOk s).pixCount = s.pixCount := rfl
@[simp] theorem completeOk_padBits (s : State) : (completeOk s).padBits = s.padBits := rfl
@[simp] theorem completeOk_mem (s : State) : (completeOk s).mem = s.mem := rfl
@[simp] theorem completeOk_schedule (s : State) : (completeOk s).schedule = s.schedule := rfl
@[simp] theorem completeOk_answers (s : State) : (completeOk s).answers = s.answers := rfl
@[simp] theorem completeOk_draws (s : State) : (completeOk s).draws = s.draws := rfl

/-! ### Error completion -/

@[simp] theorem raiseError_platform (c : ErrCode) (s : State) : (raiseError c s).platform = s.platform := rfl
@[simp] theorem raiseError_engine (c : ErrCode) (s : State) : (raiseError c s).engine = .idle := rfl
@[simp] theorem raiseError_irqEn (c : ErrCode) (s : State) : (raiseError c s).irqEn = s.irqEn := rfl
@[simp] theorem raiseError_done (c : ErrCode) (s : State) : (raiseError c s).done = true := rfl
@[simp] theorem raiseError_err (c : ErrCode) (s : State) : (raiseError c s).err = true := rfl
@[simp] theorem raiseError_wign (c : ErrCode) (s : State) : (raiseError c s).wign = s.wign := rfl
@[simp] theorem raiseError_errCode (c : ErrCode) (s : State) : (raiseError c s).errCode = c := rfl
@[simp] theorem raiseError_cmd (c : ErrCode) (s : State) : (raiseError c s).cmd = s.cmd := rfl
@[simp] theorem raiseError_srcAddr (c : ErrCode) (s : State) : (raiseError c s).srcAddr = s.srcAddr := rfl
@[simp] theorem raiseError_srcLen (c : ErrCode) (s : State) : (raiseError c s).srcLen = s.srcLen := rfl
@[simp] theorem raiseError_dstAddr (c : ErrCode) (s : State) : (raiseError c s).dstAddr = s.dstAddr := rfl
@[simp] theorem raiseError_bitLen (c : ErrCode) (s : State) : (raiseError c s).bitLen = s.bitLen := rfl
@[simp] theorem raiseError_width (c : ErrCode) (s : State) : (raiseError c s).width = s.width := rfl
@[simp] theorem raiseError_height (c : ErrCode) (s : State) : (raiseError c s).height = s.height := rfl
@[simp] theorem raiseError_pixCount (c : ErrCode) (s : State) : (raiseError c s).pixCount = s.pixCount := rfl
@[simp] theorem raiseError_padBits (c : ErrCode) (s : State) : (raiseError c s).padBits = s.padBits := rfl
@[simp] theorem raiseError_mem (c : ErrCode) (s : State) : (raiseError c s).mem = s.mem := rfl
@[simp] theorem raiseError_schedule (c : ErrCode) (s : State) : (raiseError c s).schedule = s.schedule := rfl
@[simp] theorem raiseError_answers (c : ErrCode) (s : State) : (raiseError c s).answers = s.answers := rfl
@[simp] theorem raiseError_draws (c : ErrCode) (s : State) : (raiseError c s).draws = s.draws := rfl

/-! ### Result registers -/

@[simp] theorem setResults_platform (l : Layout) (s : State) : (setResults l s).platform = s.platform := rfl
@[simp] theorem setResults_engine (l : Layout) (s : State) : (setResults l s).engine = s.engine := rfl
@[simp] theorem setResults_irqEn (l : Layout) (s : State) : (setResults l s).irqEn = s.irqEn := rfl
@[simp] theorem setResults_done (l : Layout) (s : State) : (setResults l s).done = s.done := rfl
@[simp] theorem setResults_err (l : Layout) (s : State) : (setResults l s).err = s.err := rfl
@[simp] theorem setResults_wign (l : Layout) (s : State) : (setResults l s).wign = s.wign := rfl
@[simp] theorem setResults_errCode (l : Layout) (s : State) : (setResults l s).errCode = s.errCode := rfl
@[simp] theorem setResults_cmd (l : Layout) (s : State) : (setResults l s).cmd = s.cmd := rfl
@[simp] theorem setResults_srcAddr (l : Layout) (s : State) : (setResults l s).srcAddr = s.srcAddr := rfl
@[simp] theorem setResults_srcLen (l : Layout) (s : State) : (setResults l s).srcLen = s.srcLen := rfl
@[simp] theorem setResults_dstAddr (l : Layout) (s : State) : (setResults l s).dstAddr = s.dstAddr := rfl
@[simp] theorem setResults_bitLen (l : Layout) (s : State) : (setResults l s).bitLen = s.bitLen := rfl
@[simp] theorem setResults_width (l : Layout) (s : State) : (setResults l s).width = BitVec.ofNat 32 l.width := rfl
@[simp] theorem setResults_height (l : Layout) (s : State) : (setResults l s).height = BitVec.ofNat 32 l.height := rfl
@[simp] theorem setResults_pixCount (l : Layout) (s : State) :
    (setResults l s).pixCount = BitVec.ofNat 32 l.pixCount := rfl
@[simp] theorem setResults_padBits (l : Layout) (s : State) : (setResults l s).padBits = BitVec.ofNat 5 l.padBits := rfl
@[simp] theorem setResults_mem (l : Layout) (s : State) : (setResults l s).mem = s.mem := rfl
@[simp] theorem setResults_schedule (l : Layout) (s : State) : (setResults l s).schedule = s.schedule := rfl
@[simp] theorem setResults_answers (l : Layout) (s : State) : (setResults l s).answers = s.answers := rfl
@[simp] theorem setResults_draws (l : Layout) (s : State) : (setResults l s).draws = s.draws := rfl

/-! ### A write of STATUS -/

@[simp] theorem writeStatus_platform (v : Word) (s : State) : (writeStatus v s).platform = s.platform := rfl
@[simp] theorem writeStatus_engine (v : Word) (s : State) : (writeStatus v s).engine = s.engine := rfl
@[simp] theorem writeStatus_irqEn (v : Word) (s : State) : (writeStatus v s).irqEn = s.irqEn := rfl
@[simp] theorem writeStatus_done (v : Word) (s : State) : (writeStatus v s).done = (s.done && !v.getLsbD 1) := rfl
@[simp] theorem writeStatus_err (v : Word) (s : State) : (writeStatus v s).err = (s.err && !v.getLsbD 2) := rfl
@[simp] theorem writeStatus_wign (v : Word) (s : State) : (writeStatus v s).wign = (s.wign && !v.getLsbD 3) := rfl
@[simp] theorem writeStatus_errCode (v : Word) (s : State) :
    (writeStatus v s).errCode = if v.getLsbD 2 then .noError else s.errCode := rfl
@[simp] theorem writeStatus_cmd (v : Word) (s : State) : (writeStatus v s).cmd = s.cmd := rfl
@[simp] theorem writeStatus_srcAddr (v : Word) (s : State) : (writeStatus v s).srcAddr = s.srcAddr := rfl
@[simp] theorem writeStatus_srcLen (v : Word) (s : State) : (writeStatus v s).srcLen = s.srcLen := rfl
@[simp] theorem writeStatus_dstAddr (v : Word) (s : State) : (writeStatus v s).dstAddr = s.dstAddr := rfl
@[simp] theorem writeStatus_bitLen (v : Word) (s : State) : (writeStatus v s).bitLen = s.bitLen := rfl
@[simp] theorem writeStatus_width (v : Word) (s : State) : (writeStatus v s).width = s.width := rfl
@[simp] theorem writeStatus_height (v : Word) (s : State) : (writeStatus v s).height = s.height := rfl
@[simp] theorem writeStatus_pixCount (v : Word) (s : State) : (writeStatus v s).pixCount = s.pixCount := rfl
@[simp] theorem writeStatus_padBits (v : Word) (s : State) : (writeStatus v s).padBits = s.padBits := rfl
@[simp] theorem writeStatus_mem (v : Word) (s : State) : (writeStatus v s).mem = s.mem := rfl
@[simp] theorem writeStatus_schedule (v : Word) (s : State) : (writeStatus v s).schedule = s.schedule := rfl
@[simp] theorem writeStatus_answers (v : Word) (s : State) : (writeStatus v s).answers = s.answers := rfl
@[simp] theorem writeStatus_draws (v : Word) (s : State) : (writeStatus v s).draws = s.draws := rfl

/-! ### A write of CTRL -/

@[simp] theorem writeCtrl_platform (v : Word) (s : State) : (writeCtrl v s).platform = s.platform := rfl
@[simp] theorem writeCtrl_engine (v : Word) (s : State) : (writeCtrl v s).engine = s.engine := rfl
@[simp] theorem writeCtrl_irqEn (v : Word) (s : State) : (writeCtrl v s).irqEn = v.getLsbD 0 := rfl
@[simp] theorem writeCtrl_done (v : Word) (s : State) : (writeCtrl v s).done = s.done := rfl
@[simp] theorem writeCtrl_err (v : Word) (s : State) : (writeCtrl v s).err = s.err := rfl
@[simp] theorem writeCtrl_wign (v : Word) (s : State) : (writeCtrl v s).wign = s.wign := rfl
@[simp] theorem writeCtrl_errCode (v : Word) (s : State) : (writeCtrl v s).errCode = s.errCode := rfl
@[simp] theorem writeCtrl_cmd (v : Word) (s : State) : (writeCtrl v s).cmd = s.cmd := rfl
@[simp] theorem writeCtrl_srcAddr (v : Word) (s : State) : (writeCtrl v s).srcAddr = s.srcAddr := rfl
@[simp] theorem writeCtrl_srcLen (v : Word) (s : State) : (writeCtrl v s).srcLen = s.srcLen := rfl
@[simp] theorem writeCtrl_dstAddr (v : Word) (s : State) : (writeCtrl v s).dstAddr = s.dstAddr := rfl
@[simp] theorem writeCtrl_bitLen (v : Word) (s : State) : (writeCtrl v s).bitLen = s.bitLen := rfl
@[simp] theorem writeCtrl_width (v : Word) (s : State) : (writeCtrl v s).width = s.width := rfl
@[simp] theorem writeCtrl_height (v : Word) (s : State) : (writeCtrl v s).height = s.height := rfl
@[simp] theorem writeCtrl_pixCount (v : Word) (s : State) : (writeCtrl v s).pixCount = s.pixCount := rfl
@[simp] theorem writeCtrl_padBits (v : Word) (s : State) : (writeCtrl v s).padBits = s.padBits := rfl
@[simp] theorem writeCtrl_mem (v : Word) (s : State) : (writeCtrl v s).mem = s.mem := rfl
@[simp] theorem writeCtrl_schedule (v : Word) (s : State) : (writeCtrl v s).schedule = s.schedule := rfl
@[simp] theorem writeCtrl_answers (v : Word) (s : State) : (writeCtrl v s).answers = s.answers := rfl
@[simp] theorem writeCtrl_draws (v : Word) (s : State) : (writeCtrl v s).draws = s.draws := rfl

/-! ### The rest of a transfer's writes -/

@[simp] theorem writeRemaining_platform (d : Region) (b : List Byte) (s : State) :
    (writeRemaining d b s).platform = s.platform := by
  unfold writeRemaining; split <;> rfl
@[simp] theorem writeRemaining_engine (d : Region) (b : List Byte) (s : State) :
    (writeRemaining d b s).engine = s.engine := by
  unfold writeRemaining; split <;> rfl
@[simp] theorem writeRemaining_irqEn (d : Region) (b : List Byte) (s : State) :
    (writeRemaining d b s).irqEn = s.irqEn := by
  unfold writeRemaining; split <;> rfl
@[simp] theorem writeRemaining_done (d : Region) (b : List Byte) (s : State) :
    (writeRemaining d b s).done = s.done := by
  unfold writeRemaining; split <;> rfl
@[simp] theorem writeRemaining_err (d : Region) (b : List Byte) (s : State) :
    (writeRemaining d b s).err = s.err := by
  unfold writeRemaining; split <;> rfl
@[simp] theorem writeRemaining_wign (d : Region) (b : List Byte) (s : State) :
    (writeRemaining d b s).wign = s.wign := by
  unfold writeRemaining; split <;> rfl
@[simp] theorem writeRemaining_errCode (d : Region) (b : List Byte) (s : State) :
    (writeRemaining d b s).errCode = s.errCode := by
  unfold writeRemaining; split <;> rfl
@[simp] theorem writeRemaining_cmd (d : Region) (b : List Byte) (s : State) :
    (writeRemaining d b s).cmd = s.cmd := by
  unfold writeRemaining; split <;> rfl
@[simp] theorem writeRemaining_srcAddr (d : Region) (b : List Byte) (s : State) :
    (writeRemaining d b s).srcAddr = s.srcAddr := by
  unfold writeRemaining; split <;> rfl
@[simp] theorem writeRemaining_srcLen (d : Region) (b : List Byte) (s : State) :
    (writeRemaining d b s).srcLen = s.srcLen := by
  unfold writeRemaining; split <;> rfl
@[simp] theorem writeRemaining_dstAddr (d : Region) (b : List Byte) (s : State) :
    (writeRemaining d b s).dstAddr = s.dstAddr := by
  unfold writeRemaining; split <;> rfl
@[simp] theorem writeRemaining_bitLen (d : Region) (b : List Byte) (s : State) :
    (writeRemaining d b s).bitLen = s.bitLen := by
  unfold writeRemaining; split <;> rfl
@[simp] theorem writeRemaining_width (d : Region) (b : List Byte) (s : State) :
    (writeRemaining d b s).width = s.width := by
  unfold writeRemaining; split <;> rfl
@[simp] theorem writeRemaining_height (d : Region) (b : List Byte) (s : State) :
    (writeRemaining d b s).height = s.height := by
  unfold writeRemaining; split <;> rfl
@[simp] theorem writeRemaining_pixCount (d : Region) (b : List Byte) (s : State) :
    (writeRemaining d b s).pixCount = s.pixCount := by
  unfold writeRemaining; split <;> rfl
@[simp] theorem writeRemaining_padBits (d : Region) (b : List Byte) (s : State) :
    (writeRemaining d b s).padBits = s.padBits := by
  unfold writeRemaining; split <;> rfl
@[simp] theorem writeRemaining_schedule (d : Region) (b : List Byte) (s : State) :
    (writeRemaining d b s).schedule = s.schedule := by
  unfold writeRemaining; split <;> rfl
@[simp] theorem writeRemaining_answers (d : Region) (b : List Byte) (s : State) :
    (writeRemaining d b s).answers = s.answers := by
  unfold writeRemaining; split <;> rfl

/-! ### Reset -/

@[simp] theorem resetBlock_platform (s : State) : (resetBlock s).platform = s.platform := rfl
@[simp] theorem resetBlock_engine (s : State) : (resetBlock s).engine = .idle := rfl
@[simp] theorem resetBlock_irqEn (s : State) : (resetBlock s).irqEn = false := rfl
@[simp] theorem resetBlock_done (s : State) : (resetBlock s).done = false := rfl
@[simp] theorem resetBlock_err (s : State) : (resetBlock s).err = false := rfl
@[simp] theorem resetBlock_wign (s : State) : (resetBlock s).wign = false := rfl
@[simp] theorem resetBlock_errCode (s : State) : (resetBlock s).errCode = .noError := rfl
@[simp] theorem resetBlock_cmd (s : State) : (resetBlock s).cmd = 0#32 := rfl
@[simp] theorem resetBlock_srcAddr (s : State) : (resetBlock s).srcAddr = 0#32 := rfl
@[simp] theorem resetBlock_srcLen (s : State) : (resetBlock s).srcLen = 0#32 := rfl
@[simp] theorem resetBlock_dstAddr (s : State) : (resetBlock s).dstAddr = 0#32 := rfl
@[simp] theorem resetBlock_bitLen (s : State) : (resetBlock s).bitLen = 0#32 := rfl
@[simp] theorem resetBlock_width (s : State) : (resetBlock s).width = 0#32 := rfl
@[simp] theorem resetBlock_height (s : State) : (resetBlock s).height = 0#32 := rfl
@[simp] theorem resetBlock_pixCount (s : State) : (resetBlock s).pixCount = 0#32 := rfl
@[simp] theorem resetBlock_padBits (s : State) : (resetBlock s).padBits = 0#5 := rfl
@[simp] theorem resetBlock_mem (s : State) : (resetBlock s).mem = s.mem := rfl
@[simp] theorem resetBlock_schedule (s : State) : (resetBlock s).schedule = s.schedule := rfl
@[simp] theorem resetBlock_answers (s : State) : (resetBlock s).answers = s.answers := rfl
@[simp] theorem resetBlock_draws (s : State) : (resetBlock s).draws = s.draws := rfl

/-! ### A host read of the window -/

@[simp] theorem hostRegRead_platform (a n : Nat) (s : State) : (hostRegRead a n s).platform = s.platform := rfl
@[simp] theorem hostRegRead_engine (a n : Nat) (s : State) : (hostRegRead a n s).engine = s.engine := rfl
@[simp] theorem hostRegRead_irqEn (a n : Nat) (s : State) : (hostRegRead a n s).irqEn = s.irqEn := rfl
@[simp] theorem hostRegRead_done (a n : Nat) (s : State) : (hostRegRead a n s).done = s.done := rfl
@[simp] theorem hostRegRead_err (a n : Nat) (s : State) : (hostRegRead a n s).err = s.err := rfl
@[simp] theorem hostRegRead_wign (a n : Nat) (s : State) : (hostRegRead a n s).wign = s.wign := rfl
@[simp] theorem hostRegRead_errCode (a n : Nat) (s : State) : (hostRegRead a n s).errCode = s.errCode := rfl
@[simp] theorem hostRegRead_cmd (a n : Nat) (s : State) : (hostRegRead a n s).cmd = s.cmd := rfl
@[simp] theorem hostRegRead_srcAddr (a n : Nat) (s : State) : (hostRegRead a n s).srcAddr = s.srcAddr := rfl
@[simp] theorem hostRegRead_srcLen (a n : Nat) (s : State) : (hostRegRead a n s).srcLen = s.srcLen := rfl
@[simp] theorem hostRegRead_dstAddr (a n : Nat) (s : State) : (hostRegRead a n s).dstAddr = s.dstAddr := rfl
@[simp] theorem hostRegRead_bitLen (a n : Nat) (s : State) : (hostRegRead a n s).bitLen = s.bitLen := rfl
@[simp] theorem hostRegRead_width (a n : Nat) (s : State) : (hostRegRead a n s).width = s.width := rfl
@[simp] theorem hostRegRead_height (a n : Nat) (s : State) : (hostRegRead a n s).height = s.height := rfl
@[simp] theorem hostRegRead_pixCount (a n : Nat) (s : State) : (hostRegRead a n s).pixCount = s.pixCount := rfl
@[simp] theorem hostRegRead_padBits (a n : Nat) (s : State) : (hostRegRead a n s).padBits = s.padBits := rfl
@[simp] theorem hostRegRead_mem (a n : Nat) (s : State) : (hostRegRead a n s).mem = s.mem := rfl
@[simp] theorem hostRegRead_schedule (a n : Nat) (s : State) : (hostRegRead a n s).schedule = s.schedule := rfl
@[simp] theorem hostRegRead_answers (a n : Nat) (s : State) :
    (hostRegRead a n s).answers = s.answers ++ [portAnswer a n s] := rfl
@[simp] theorem hostRegRead_draws (a n : Nat) (s : State) : (hostRegRead a n s).draws = s.draws := rfl

/-! ### The phase -/

@[simp] theorem busy_of_engine_busy {s : State} {p : Progress} (h : s.engine = .busy p) : s.busy = true := by
  simp [State.busy, h]

@[simp] theorem busy_of_engine_idle {s : State} (h : s.engine = .idle) : s.busy = false := by
  simp [State.busy, h]

/-- The phase is BUSY exactly when the engine holds a progress. -/
theorem busy_iff {s : State} : s.busy = true ↔ ∃ p, s.engine = .busy p := by
  cases h : s.engine <;> simp [State.busy, h]

theorem idle_iff {s : State} : s.busy = false ↔ s.engine = .idle := by
  cases h : s.engine <;> simp [State.busy, h]

@[simp] theorem progress_of_engine_busy {s : State} {p : Progress} (h : s.engine = .busy p) : s.progress = p := by
  simp [State.progress, h]

@[simp] theorem progress_of_engine_idle {s : State} (h : s.engine = .idle) : s.progress = Progress.fresh := by
  simp [State.progress, h]

end Sys2Proof.Machine
end

