-- ==== Sys2Proof/Laws/Transfer.lean ====
section
/-!
SUPPORT. What the shared operations of PACK and UNPACK do: the region checks, the bytes still to write, the final values, and
`exec` in one form for all four commands.
-/
namespace Sys2Proof.Machine

/-! ### Checks -/

theorem inRange_iff (n : Nat) (r : Region) : inRange n r = true ↔ InRange n r.start r.len := by
  simp [inRange, InRange]

theorem overlaps_iff (r q : Region) : overlaps r q = true ↔ Overlap r.start r.len q.start q.len := by
  simp [overlaps, Overlap, and_assoc]

/-- Every check passes. -/
theorem checkRegions_noError_iff (n : Nat) (r : Regions) : checkRegions n r = .noError ↔
    InRange n r.src.start r.src.len ∧ InRange n r.dst.start r.dst.len ∧
      ¬ Overlap r.src.start r.src.len r.dst.start r.dst.len := by
  rw [← inRange_iff, ← inRange_iff, ← overlaps_iff, checkRegions]
  cases inRange n r.src <;> cases inRange n r.dst <;> cases overlaps r.src r.dst <;> simp

theorem checkRegions_srcRange_iff (n : Nat) (r : Regions) :
    checkRegions n r = .srcRange ↔ ¬ InRange n r.src.start r.src.len := by
  rw [← inRange_iff, checkRegions]
  cases inRange n r.src <;> cases inRange n r.dst <;> cases overlaps r.src r.dst <;> simp

theorem checkRegions_dstRange_iff (n : Nat) (r : Regions) : checkRegions n r = .dstRange ↔
    InRange n r.src.start r.src.len ∧ ¬ InRange n r.dst.start r.dst.len := by
  rw [← inRange_iff, ← inRange_iff, checkRegions]
  cases inRange n r.src <;> cases inRange n r.dst <;> cases overlaps r.src r.dst <;> simp

theorem checkRegions_overlap_iff (n : Nat) (r : Regions) : checkRegions n r = .overlap ↔
    InRange n r.src.start r.src.len ∧ InRange n r.dst.start r.dst.len ∧
      Overlap r.src.start r.src.len r.dst.start r.dst.len := by
  rw [← inRange_iff, ← inRange_iff, ← overlaps_iff, checkRegions]
  cases inRange n r.src <;> cases inRange n r.dst <;> cases overlaps r.src r.dst <;> simp

/-- A check never answers ILLEGAL_CMD. -/
theorem checkRegions_ne_illegalCmd (n : Nat) (r : Regions) : checkRegions n r ≠ .illegalCmd := by
  simp only [checkRegions]
  cases inRange n r.src <;> cases inRange n r.dst <;> cases overlaps r.src r.dst <;> simp

theorem packCells_eq_gridCells (L : Nat) : packCells L = gridCells L := rfl

theorem packFits_iff (s : State) : PackFits s ↔ checkRegions s.platform.memSize (packRegions s) = .noError :=
  (checkRegions_noError_iff s.platform.memSize (packRegions s)).symm

theorem unpackFits_iff (s : State) : UnpackFits s ↔ checkRegions s.platform.memSize (unpackRegions s) = .noError :=
  (checkRegions_noError_iff s.platform.memSize (unpackRegions s)).symm

/-! ### Offsets -/

@[simp] theorem mem_remainingOffsets {n k : Nat} {w : List Nat} : k ∈ remainingOffsets n w ↔ k < n ∧ k ∉ w := by
  simp [remainingOffsets]

theorem remainingOffsets_nodup (n : Nat) (w : List Nat) : (remainingOffsets n w).Nodup :=
  List.Nodup.filter _ List.nodup_range

@[simp] theorem mem_insertOffset {j k : Nat} {l : List Nat} : j ∈ insertOffset k l ↔ j = k ∨ j ∈ l := by
  induction l with
  | nil => simp [insertOffset]
  | cons i l ih =>
    simp only [insertOffset]
    split
    · simp
    · split
      next h => subst h; simp
      · simp [ih]; tauto

theorem insertOffset_rising {l : List Nat} (k : Nat) (h : Rising l) : Rising (insertOffset k l) := by
  induction l with
  | nil => simp [insertOffset, Rising]
  | cons i l ih =>
    obtain ⟨hi, hl⟩ := List.pairwise_cons.1 h
    simp only [insertOffset]
    split
    next hk =>
      refine List.pairwise_cons.2 ⟨fun j hj => ?_, h⟩
      rcases List.mem_cons.1 hj with rfl | hj
      · exact hk
      · exact hk.trans (hi j hj)
    · split
      · exact h
      next h1 h2 =>
        refine List.pairwise_cons.2 ⟨fun j hj => ?_, ih hl⟩
        rcases mem_insertOffset.1 hj with rfl | hj
        · omega
        · exact hi j hj

theorem drawnCells_addresses (a d : Nat) (ks : List Nat) : (drawnCells a d ks).map Prod.fst = ks.map (a + ·) := by
  simp [drawnCells, List.mapIdx_eq_zipIdx_map, List.map_map, Function.comp_def]
  rw [show (fun x : Nat × Nat => a + x.1) = (a + ·) ∘ Prod.fst from rfl, ← List.map_map, List.zipIdx_map_fst]

theorem valueCells_addresses (a : Nat) (b : List Byte) (ks : List Nat) :
    (valueCells a b ks).map Prod.fst = ks.map (a + ·) := by
  simp [valueCells]

theorem addresses_nodup {a : Nat} {ks : List Nat} (h : ks.Nodup) : (ks.map (a + ·)).Nodup :=
  List.Nodup.map (fun _ _ e => Nat.add_left_cancel e) h

/-! ### The rest of a transfer -/

theorem writeRemaining_wf {d : Region} {b : List Byte} {s : State} (h : Memory.wf s.mem = true) :
    Memory.wf (writeRemaining d b s).mem = true := by
  simp only [writeRemaining]
  split <;> exact memWriteAll_wf _ h

theorem writeRemaining_inside {d : Region} {b : List Byte} {s : State} {n : Nat} (h : ∀ c ∈ s.mem, c.1 < n)
    (hd : d.len = 0 ∨ d.start + d.len ≤ n) : ∀ c ∈ (writeRemaining d b s).mem, c.1 < n := by
  have key : ∀ cells : List Host.Cell, cells.map Prod.fst = (remainingOffsets d.len s.progress.written).map (d.start + ·) →
      ∀ c ∈ cells, c.1 < n := by
    intro cells hc c hmem
    have : c.1 ∈ cells.map Prod.fst := List.mem_map_of_mem hmem
    rw [hc] at this
    obtain ⟨k, hk, e⟩ := List.mem_map.1 this
    have := (mem_remainingOffsets.1 hk).1
    omega
  simp only [writeRemaining]
  split
  · exact memWriteAll_inside h (key _ (drawnCells_addresses ..))
  · exact memWriteAll_inside h (key _ (valueCells_addresses ..))

/-- The rest of a transfer writes nothing outside the destination region. -/
theorem writeRemaining_outside {d : Region} {b : List Byte} {s : State} (h : Memory.wf s.mem = true) {a : Nat}
    (ha : a < d.start ∨ d.start + d.len ≤ a) : memRead (writeRemaining d b s).mem a = memRead s.mem a := by
  have key : ∀ cells : List Host.Cell, cells.map Prod.fst = (remainingOffsets d.len s.progress.written).map (d.start + ·) →
      ∀ c ∈ cells, c.1 ≠ a := by
    intro cells hc c hmem e
    have : c.1 ∈ cells.map Prod.fst := List.mem_map_of_mem hmem
    rw [hc] at this
    obtain ⟨k, hk, e'⟩ := List.mem_map.1 this
    have := (mem_remainingOffsets.1 hk).1
    omega
  simp only [writeRemaining]
  split
  · exact memRead_memWriteAll_of_not_mem h (key _ (drawnCells_addresses ..))
  · exact memRead_memWriteAll_of_not_mem h (key _ (valueCells_addresses ..))

/-- A byte the engine had already written keeps its value. -/
theorem writeRemaining_written {d : Region} {b : List Byte} {s : State} (h : Memory.wf s.mem = true) {k : Nat}
    (hk : k ∈ s.progress.written) : memRead (writeRemaining d b s).mem (d.start + k) = memRead s.mem (d.start + k) := by
  have key : ∀ cells : List Host.Cell, cells.map Prod.fst = (remainingOffsets d.len s.progress.written).map (d.start + ·) →
      ∀ c ∈ cells, c.1 ≠ d.start + k := by
    intro cells hc c hmem e
    have : c.1 ∈ cells.map Prod.fst := List.mem_map_of_mem hmem
    rw [hc] at this
    obtain ⟨j, hj, e'⟩ := List.mem_map.1 this
    have hjk : j = k := by omega
    exact (mem_remainingOffsets.1 hj).2 (hjk ▸ hk)
  simp only [writeRemaining]
  split
  · exact memRead_memWriteAll_of_not_mem h (key _ (drawnCells_addresses ..))
  · exact memRead_memWriteAll_of_not_mem h (key _ (valueCells_addresses ..))

/-- A byte still to write gets its final value. -/
theorem writeRemaining_value {d : Region} {b : List Byte} {s : State} (h : Memory.wf s.mem = true)
    (hr : s.progress.raced = false) {k : Nat} (hk : k < d.len) (hw : k ∉ s.progress.written) :
    memRead (writeRemaining d b s).mem (d.start + k) = b.getD k 0#8 := by
  simp only [writeRemaining, hr, Bool.false_eq_true, if_false]
  refine memRead_memWriteAll_of_mem (c := (d.start + k, b.getD k 0#8)) h ?_ ?_
  · rw [valueCells_addresses]
    exact addresses_nodup (remainingOffsets_nodup ..)
  · exact List.mem_map.2 ⟨k, mem_remainingOffsets.2 ⟨hk, hw⟩, rfl⟩

/-- A byte still to write of a raced command gets a free value of its own. -/
theorem writeRemaining_drawn {d : Region} {b : List Byte} {s : State} (h : Memory.wf s.mem = true)
    (hr : s.progress.raced = true) {k : Nat} (hk : k < d.len) (hw : k ∉ s.progress.written) :
    memRead (writeRemaining d b s).mem (d.start + k) =
      Config.freeByte (s.draws + (remainingOffsets d.len s.progress.written).idxOf k) := by
  simp only [writeRemaining, hr, if_true]
  have hmem : k ∈ remainingOffsets d.len s.progress.written := mem_remainingOffsets.2 ⟨hk, hw⟩
  refine memRead_memWriteAll_of_mem
    (c := (d.start + k, Config.freeByte (s.draws + (remainingOffsets d.len s.progress.written).idxOf k))) h ?_ ?_
  · rw [drawnCells_addresses]
    exact addresses_nodup (remainingOffsets_nodup ..)
  · have hlt := List.idxOf_lt_length_of_mem hmem
    refine List.mem_mapIdx.2 ⟨_, hlt, ?_⟩
    simp

@[simp] theorem writeRemaining_draws_of_not_raced {d : Region} {b : List Byte} {s : State} (hr : s.progress.raced = false) :
    (writeRemaining d b s).draws = s.draws := by
  simp [writeRemaining, hr]

/-! ### Final values -/

theorem finalBytes_pack (s : State) : finalBytes .pack s = packBytes (payload s) := rfl

theorem finalBytes_unpack (s : State) :
    finalBytes .unpack s = readBytes s.mem s.srcAddr.toNat (4 * unpackCells s) := unpackBytes_readGrid ..

@[simp] theorem payload_length (s : State) : (payload s).length = s.srcLen.toNat := readBytes_length ..

/-- The final value of byte `k` of a destination: the source byte at the same offset, or 0 past the end of the source. -/
theorem finalBytes_getD {i : Instr} {s : State} {r : Regions} (hr : commandRegions i s = some r) {k : Nat}
    (hk : k < r.dst.len) :
    (finalBytes i s).getD k 0#8 = if k < r.src.len then memRead s.mem (r.src.start + k) else 0#8 := by
  cases i with
  | nop => cases hr
  | layout => cases hr
  | pack =>
    cases hr
    have hk' : k < 4 * packCells (payload s).length := (payload_length s).symm ▸ hk
    rw [finalBytes_pack, packBytes_getD _ _ hk', packByte_eq_getD]
    by_cases h : k < (packRegions s).src.len
    · rw [if_pos h]
      exact readBytes_getD _ _ _ _ h
    · rw [if_neg h, List.getD_eq_getElem?_getD, List.getElem?_eq_none ((payload_length s).symm ▸ Nat.le_of_not_lt h)]
      rfl
  | unpack =>
    cases hr
    have hk' : k < (unpackRegions s).src.len := hk
    rw [finalBytes_unpack, if_pos hk']
    exact readBytes_getD _ _ _ _ hk

/-! ### The four commands in one form -/

/-- The result registers a command writes. -/
def commandResults (i : Instr) (s t : State) : State :=
  match i with
  | .nop => t
  | .layout => setResults (layoutFn s.bitLen.toNat) t
  | .pack => setResults (layoutFn (8 * s.srcLen.toNat)) t
  | .unpack => t

/-- A command without regions completes with its results. -/
theorem exec_of_no_regions {i : Instr} {s : State} (h : commandRegions i s = none) :
    exec i s = .next (completeOk (commandResults i s s)) := by
  cases i <;> first | rfl | cases h

/-- A command whose regions pass their checks writes what is left of its destination and completes with its results. -/
theorem exec_of_checks_pass {i : Instr} {s : State} {r : Regions} (h : commandRegions i s = some r)
    (hc : checkRegions s.platform.memSize r = .noError) :
    exec i s = .next (completeOk (commandResults i s (writeRemaining r.dst (finalBytes i s) s))) := by
  cases i <;> cases h <;> simp [exec, execPack, execUnpack, hc, commandResults]

/-- A command whose regions fail a check completes with that error and nothing else. -/
theorem exec_of_check_fails {i : Instr} {s : State} {r : Regions} (h : commandRegions i s = some r)
    (hc : checkRegions s.platform.memSize r ≠ .noError) :
    exec i s = .next (raiseError (checkRegions s.platform.memSize r) s) := by
  cases i <;> cases h <;> simp [exec, execPack, execUnpack, hc]

/-- Every command completes, in one of three ways: without regions, with its transfer done, or with an error. -/
theorem exec_cases (i : Instr) (s : State) :
    (commandRegions i s = none ∧ exec i s = .next (completeOk (commandResults i s s))) ∨
    (∃ r, commandRegions i s = some r ∧ checkRegions s.platform.memSize r = .noError ∧
      exec i s = .next (completeOk (commandResults i s (writeRemaining r.dst (finalBytes i s) s)))) ∨
    (∃ r, commandRegions i s = some r ∧ checkRegions s.platform.memSize r ≠ .noError ∧
      exec i s = .next (raiseError (checkRegions s.platform.memSize r) s)) := by
  cases h : commandRegions i s with
  | none => exact .inl ⟨rfl, exec_of_no_regions h⟩
  | some r =>
    by_cases hc : checkRegions s.platform.memSize r = .noError
    · exact .inr (.inl ⟨r, rfl, hc, exec_of_checks_pass h hc⟩)
    · exact .inr (.inr ⟨r, rfl, hc, exec_of_check_fails h hc⟩)

@[simp] theorem commandResults_platform (i : Instr) (s t : State) : (commandResults i s t).platform = t.platform := by
  cases i <;> rfl
@[simp] theorem commandResults_engine (i : Instr) (s t : State) : (commandResults i s t).engine = t.engine := by
  cases i <;> rfl
@[simp] theorem commandResults_irqEn (i : Instr) (s t : State) : (commandResults i s t).irqEn = t.irqEn := by
  cases i <;> rfl
@[simp] theorem commandResults_done (i : Instr) (s t : State) : (commandResults i s t).done = t.done := by
  cases i <;> rfl
@[simp] theorem commandResults_err (i : Instr) (s t : State) : (commandResults i s t).err = t.err := by
  cases i <;> rfl
@[simp] theorem commandResults_wign (i : Instr) (s t : State) : (commandResults i s t).wign = t.wign := by
  cases i <;> rfl
@[simp] theorem commandResults_errCode (i : Instr) (s t : State) : (commandResults i s t).errCode = t.errCode := by
  cases i <;> rfl
@[simp] theorem commandResults_cmd (i : Instr) (s t : State) : (commandResults i s t).cmd = t.cmd := by
  cases i <;> rfl
@[simp] theorem commandResults_srcAddr (i : Instr) (s t : State) : (commandResults i s t).srcAddr = t.srcAddr := by
  cases i <;> rfl
@[simp] theorem commandResults_srcLen (i : Instr) (s t : State) : (commandResults i s t).srcLen = t.srcLen := by
  cases i <;> rfl
@[simp] theorem commandResults_dstAddr (i : Instr) (s t : State) : (commandResults i s t).dstAddr = t.dstAddr := by
  cases i <;> rfl
@[simp] theorem commandResults_bitLen (i : Instr) (s t : State) : (commandResults i s t).bitLen = t.bitLen := by
  cases i <;> rfl
@[simp] theorem commandResults_mem (i : Instr) (s t : State) : (commandResults i s t).mem = t.mem := by
  cases i <;> rfl
@[simp] theorem commandResults_schedule (i : Instr) (s t : State) : (commandResults i s t).schedule = t.schedule := by
  cases i <;> rfl
@[simp] theorem commandResults_answers (i : Instr) (s t : State) : (commandResults i s t).answers = t.answers := by
  cases i <;> rfl
@[simp] theorem commandResults_draws (i : Instr) (s t : State) : (commandResults i s t).draws = t.draws := by
  cases i <;> rfl

end Sys2Proof.Machine
end

