-- ==== Sys2Proof/Laws/Port.lean ====
section
/-!
SUPPORT. What an access at the register port reaches, the decoded word of each command, and what the command in flight depends
on.
-/
namespace Sys2Proof.Machine

/-! ### The register port -/

theorem regAt_offset (r : Reg) : regAt r.offset = some r := by cases r <;> rfl

theorem regAt_eq_some {off : Nat} {r : Reg} (h : regAt off = some r) : off = r.offset := by
  unfold regAt at h
  split at h <;> first | (cases h; rfl) | exact absurd h (by simp)

theorem reg_offset_lt (r : Reg) : r.offset < 0x40 := by cases r <;> decide

theorem reg_offset_aligned (r : Reg) : r.offset % 4 = 0 := by cases r <;> decide

/-- A 32-bit access at an aligned offset of the window reaches that offset. -/
theorem portAccess_aligned (p : Platform) {off : Nat} (hlt : off < 0x40) (ha : off % 4 = 0) :
    portAccess p (p.regBase + off) 4 = .aligned off := by
  have e : p.regBase + off - p.regBase = off := by omega
  unfold portAccess
  rw [if_pos ⟨by omega, by omega, by omega⟩, if_pos ⟨rfl, by omega, e.symm ▸ ha⟩, e]

/-- The only accesses that reach an offset are the 32-bit ones at it. -/
theorem portAccess_eq_aligned {p : Platform} {addr size off : Nat} (h : portAccess p addr size = .aligned off) :
    size = 4 ∧ addr = p.regBase + off ∧ off < 0x40 ∧ off % 4 = 0 := by
  simp only [portAccess] at h
  split at h
  · split at h
    · cases h; omega
    · cases h
  · cases h

@[simp] theorem hostRegWrite_wr (s : State) (r : Reg) (v : Word) :
    hostRegWrite (s.platform.regBase + r.offset) 4 v s = writeReg r v s := by
  simp [hostRegWrite, portAccess_aligned s.platform (reg_offset_lt r) (reg_offset_aligned r), regAt_offset]

@[simp] theorem portAnswer_rd (s : State) (r : Reg) :
    portAnswer (s.platform.regBase + r.offset) 4 s = .word (readReg s r) := by
  simp [portAnswer, portAccess_aligned s.platform (reg_offset_lt r) (reg_offset_aligned r), regAt_offset]

/-- A host write at the port either reaches a register or changes nothing. -/
theorem hostRegWrite_cases (addr size : Nat) (v : Word) (s : State) :
    (∃ r : Reg, size = 4 ∧ addr = s.platform.regBase + r.offset ∧ hostRegWrite addr size v s = writeReg r v s) ∨
      hostRegWrite addr size v s = s := by
  unfold hostRegWrite
  split
  next off h =>
    obtain ⟨hs, ha, -, -⟩ := portAccess_eq_aligned h
    split
    next r hr => exact .inl ⟨r, hs, regAt_eq_some hr ▸ ha, rfl⟩
    · exact .inr rfl
  · exact .inr rfl
  · exact .inr rfl

/-- While BUSY a register write changes at most CTRL and the three W1C flags of STATUS and WIGN. -/
theorem writeReg_of_busy {s : State} (h : s.busy = true) (r : Reg) (v : Word) :
    writeReg r v s = s ∨ writeReg r v s = writeCtrl v s ∨ writeReg r v s = writeStatus v s ∨
      writeReg r v s = { s with wign := true } := by
  cases r <;> simp [writeReg, lockedWrite, h]

/-! ### Words -/

@[simp] theorem decode_encode (i : Instr) : decode (encode i) = .command i := by cases i <;> decide

theorem runningCommand_of_running {i : Instr} {s : State} (h : Running i s) : runningCommand s = some i := by
  obtain ⟨hb, hc⟩ := h
  obtain ⟨p, hp⟩ := busy_iff.1 hb
  simp [runningCommand, hp, hc, Decoded.instr?]

/-- With the engine's turn a command in flight is executed. -/
theorem runCommand_of_running {i : Instr} {s : State} (h : Running i s) : runCommand s = exec i s := by
  obtain ⟨hb, hc⟩ := h
  obtain ⟨p, hp⟩ := busy_iff.1 hb
  simp [runCommand, hp, hc]

/-! ### What the command in flight depends on -/

theorem commandRegions_congr {s t : State} (i : Instr) (h1 : t.srcAddr = s.srcAddr) (h2 : t.srcLen = s.srcLen)
    (h3 : t.dstAddr = s.dstAddr) (h4 : t.width = s.width) (h5 : t.height = s.height) :
    commandRegions i t = commandRegions i s := by
  cases i <;> simp [commandRegions, packRegions, unpackRegions, unpackCells, h1, h2, h3, h4, h5]

/-- A state with the same phase, command, operands and platform has the same command in flight over the same regions. -/
theorem activeTransfer_congr {s t : State} (hb : t.busy = s.busy) (hc : t.cmd = s.cmd) (h1 : t.srcAddr = s.srcAddr)
    (h2 : t.srcLen = s.srcLen) (h3 : t.dstAddr = s.dstAddr) (h4 : t.width = s.width) (h5 : t.height = s.height)
    (hp : t.platform = s.platform) : activeTransfer t = activeTransfer s := by
  have hr : runningCommand t = runningCommand s := by
    unfold runningCommand
    cases h : s.engine <;> cases h' : t.engine <;> simp_all [State.busy]
  simp only [activeTransfer, hr, commandRegions_congr _ h1 h2 h3 h4 h5, hp]

/-- What an active transfer is: a command in flight with regions that pass their checks. -/
theorem activeTransfer_eq_some {s : State} {i : Instr} {r : Regions} : activeTransfer s = some (i, r) ↔
    runningCommand s = some i ∧ commandRegions i s = some r ∧ checkRegions s.platform.memSize r = .noError := by
  unfold activeTransfer
  constructor
  · intro h
    split at h
    · cases h
    next j hj =>
      split at h
      · cases h
      next q hq =>
        split at h
        next hc => cases h; exact ⟨hj, hq, hc⟩
        · cases h
  · rintro ⟨h1, h2, h3⟩
    simp [h1, h2, h3]

/-- The final values are those of the same source bytes. -/
theorem finalBytes_congr {s t : State} {i : Instr} {r : Regions} (hs : commandRegions i s = some r)
    (ht : commandRegions i t = some r)
    (hm : ∀ k, k < r.src.len → memRead t.mem (r.src.start + k) = memRead s.mem (r.src.start + k)) {k : Nat}
    (hk : k < r.dst.len) : (finalBytes i t).getD k 0#8 = (finalBytes i s).getD k 0#8 := by
  rw [finalBytes_getD hs hk, finalBytes_getD ht hk]
  split
  next h => exact hm k h
  · rfl

/-- Regions that pass their checks share no byte. -/
theorem regions_disjoint {n : Nat} {r : Regions} (h : checkRegions n r = .noError) {j k : Nat} (hj : j < r.src.len)
    (hk : k < r.dst.len) : r.src.start + j ≠ r.dst.start + k := by
  obtain ⟨-, -, h⟩ := (checkRegions_noError_iff n r).1 h
  simp only [Overlap, not_and] at h
  intro e
  exact h (by omega) (by omega) (by omega) (by omega)

theorem dst_in_memory {n : Nat} {r : Regions} (h : checkRegions n r = .noError) :
    r.dst.len = 0 ∨ r.dst.start + r.dst.len ≤ n := ((checkRegions_noError_iff n r).1 h).2.1

end Sys2Proof.Machine
end

