-- ==== Sys2Proof/Laws/Engine.lean ====
section
/-!
SUPPORT. Everything an engine access can do, and everything a host write to memory can do.
-/
namespace Sys2Proof.Machine

theorem mayWrite_iff {k : Nat} {r : Regions} {p : Progress} :
    mayWrite k r p = true ↔ k < r.dst.len ∧ k ∉ p.written ∧ (k < r.src.len → k ∈ p.read) := by
  simp only [mayWrite, Bool.and_eq_true, decide_eq_true_eq, Bool.or_eq_true, Bool.not_eq_true', List.contains_eq_mem,
    decide_eq_false_iff_not, and_assoc]
  constructor
  · rintro ⟨h1, h2, h3⟩
    exact ⟨h1, h2, fun hk => h3.resolve_left (by omega)⟩
  · rintro ⟨h1, h2, h3⟩
    refine ⟨h1, h2, ?_⟩
    by_cases hk : k < r.src.len
    · exact .inr (h3 hk)
    · exact .inl (by omega)

/-- An engine read either does nothing or adds an offset of the source region to the progress of the active transfer. -/
theorem engineRead_cases (k : Nat) (s : State) :
    engineRead k s = s ∨ ∃ p i r, s.engine = .busy p ∧ activeTransfer s = some (i, r) ∧ k < r.src.len ∧
      engineRead k s = { s with engine := .busy { p with read := insertOffset k p.read } } := by
  unfold engineRead
  split
  next p i r hp ha =>
    split
    next hk => exact .inr ⟨p, i, r, hp, ha, hk, rfl⟩
    · exact .inl rfl
  · exact .inl rfl

/-- An engine write either does nothing or writes one byte of the destination region of the active transfer that was still to
write: its final value, or a free one if the command is raced. -/
theorem engineWrite_cases (k : Nat) (s : State) :
    engineWrite k s = s ∨ ∃ p i r v d, s.engine = .busy p ∧ activeTransfer s = some (i, r) ∧ mayWrite k r p = true ∧
      (p.raced = false → v = (finalBytes i s).getD k 0#8 ∧ d = s.draws) ∧
      (p.raced = true → v = Config.freeByte s.draws ∧ d = s.draws + 1) ∧
      engineWrite k s = { s with mem := memWrite s.mem (r.dst.start + k) v, draws := d,
                                 engine := .busy { p with written := insertOffset k p.written } } := by
  unfold engineWrite
  split
  next p i r hp ha =>
    split
    next hk =>
      split
      next hr =>
        exact .inr ⟨p, i, r, _, _, hp, ha, hk, fun h => by simp [hr] at h, fun _ => ⟨rfl, rfl⟩, rfl⟩
      next hr =>
        exact .inr ⟨p, i, r, _, s.draws, hp, ha, hk, fun _ => ⟨rfl, rfl⟩, fun h => absurd h hr, rfl⟩
    · exact .inl rfl
  · exact .inl rfl

/-- A race of a command in flight over regions `r`. -/
theorem raceCommand_of_running {s : State} {p : Progress} {r : Regions} (hp : s.engine = .busy p)
    (hr : runningRegions s = some r) : raceCommand s =
      { s with engine := .busy { p with raced := true },
               mem := memWriteAll s.mem (drawnCells r.dst.start s.draws p.written),
               draws := s.draws + p.written.length } := by
  simp [raceCommand, hp, hr]

/-- A host write to memory either writes its byte only, or is a race: it also turns the bytes the engine had written into free
values. -/
theorem hostMemStore_cases (a : Nat) (v : Byte) (s : State) :
    (inRunningRegions a s = false ∧ hostMemStore a v s = { s with mem := memWrite s.mem a v }) ∨
      ∃ p r, s.engine = .busy p ∧ runningRegions s = some r ∧ (r.src.holds a = true ∨ r.dst.holds a = true) ∧
        hostMemStore a v s =
          { s with mem := memWriteAll (memWrite s.mem a v) (drawnCells r.dst.start s.draws p.written),
                   engine := .busy { p with raced := true }, draws := s.draws + p.written.length } := by
  unfold hostMemStore
  split
  next h =>
    right
    have hrr : ∀ m, runningRegions { s with mem := m } = runningRegions s := fun m => by
      unfold runningRegions
      rw [show runningCommand { s with mem := m } = runningCommand s from rfl]
      cases runningCommand s with
      | none => rfl
      | some i => exact commandRegions_congr i rfl rfl rfl rfl rfl
    unfold inRunningRegions at h
    split at h
    · cases h
    next r hr =>
      have hp : ∃ p, s.engine = .busy p := by
        cases he : s.engine with
        | idle => simp [runningRegions, runningCommand, he] at hr
        | busy p => exact ⟨p, rfl⟩
      obtain ⟨p, hp⟩ := hp
      refine ⟨p, r, hp, hr, by simpa using h, ?_⟩
      exact raceCommand_of_running (s := { s with mem := memWrite s.mem a v }) hp ((hrr _).trans hr)
  next h => exact .inl ⟨by simpa using h, rfl⟩

/-- When the host can make an access to memory. -/
theorem hostMemAccess_eq_next {a : Nat} {s s' t : State} : hostMemAccess a s s' = .next t ↔
    a < s.platform.memSize ∧ t = s' := by
  unfold hostMemAccess
  split
  next h => simp; omega
  next h => simp [eq_comm]; omega

/-- An access to an address that exists goes through. -/
theorem hostMemAccess_of_lt {a : Nat} {s : State} (s' : State) (h : a < s.platform.memSize) :
    hostMemAccess a s s' = .next s' := hostMemAccess_eq_next.2 ⟨h, rfl⟩

/-- A host read of memory changes the host's answers and the draws only. -/
theorem hostMemLoad_frame (a : Nat) (s : State) :
    hostMemLoad a s = { s with answers := (hostMemLoad a s).answers, draws := (hostMemLoad a s).draws } := by
  unfold hostMemLoad
  split <;> rfl

@[simp] theorem hostMemLoad_platform (a : Nat) (s : State) : (hostMemLoad a s).platform = s.platform := by
  rw [hostMemLoad_frame]
@[simp] theorem hostMemLoad_engine (a : Nat) (s : State) : (hostMemLoad a s).engine = s.engine := by
  rw [hostMemLoad_frame]
@[simp] theorem hostMemLoad_irqEn (a : Nat) (s : State) : (hostMemLoad a s).irqEn = s.irqEn := by
  rw [hostMemLoad_frame]
@[simp] theorem hostMemLoad_done (a : Nat) (s : State) : (hostMemLoad a s).done = s.done := by
  rw [hostMemLoad_frame]
@[simp] theorem hostMemLoad_err (a : Nat) (s : State) : (hostMemLoad a s).err = s.err := by
  rw [hostMemLoad_frame]
@[simp] theorem hostMemLoad_wign (a : Nat) (s : State) : (hostMemLoad a s).wign = s.wign := by
  rw [hostMemLoad_frame]
@[simp] theorem hostMemLoad_errCode (a : Nat) (s : State) : (hostMemLoad a s).errCode = s.errCode := by
  rw [hostMemLoad_frame]
@[simp] theorem hostMemLoad_cmd (a : Nat) (s : State) : (hostMemLoad a s).cmd = s.cmd := by
  rw [hostMemLoad_frame]
@[simp] theorem hostMemLoad_srcAddr (a : Nat) (s : State) : (hostMemLoad a s).srcAddr = s.srcAddr := by
  rw [hostMemLoad_frame]
@[simp] theorem hostMemLoad_srcLen (a : Nat) (s : State) : (hostMemLoad a s).srcLen = s.srcLen := by
  rw [hostMemLoad_frame]
@[simp] theorem hostMemLoad_dstAddr (a : Nat) (s : State) : (hostMemLoad a s).dstAddr = s.dstAddr := by
  rw [hostMemLoad_frame]
@[simp] theorem hostMemLoad_bitLen (a : Nat) (s : State) : (hostMemLoad a s).bitLen = s.bitLen := by
  rw [hostMemLoad_frame]
@[simp] theorem hostMemLoad_width (a : Nat) (s : State) : (hostMemLoad a s).width = s.width := by
  rw [hostMemLoad_frame]
@[simp] theorem hostMemLoad_height (a : Nat) (s : State) : (hostMemLoad a s).height = s.height := by
  rw [hostMemLoad_frame]
@[simp] theorem hostMemLoad_pixCount (a : Nat) (s : State) : (hostMemLoad a s).pixCount = s.pixCount := by
  rw [hostMemLoad_frame]
@[simp] theorem hostMemLoad_padBits (a : Nat) (s : State) : (hostMemLoad a s).padBits = s.padBits := by
  rw [hostMemLoad_frame]
@[simp] theorem hostMemLoad_mem (a : Nat) (s : State) : (hostMemLoad a s).mem = s.mem := by
  rw [hostMemLoad_frame]
@[simp] theorem hostMemLoad_schedule (a : Nat) (s : State) : (hostMemLoad a s).schedule = s.schedule := by
  rw [hostMemLoad_frame]

theorem hostMemLoad_of_coherent {a : Nat} {s : State} (h : s.platform.hostCoherent = true) :
    hostMemLoad a s = { s with answers := s.answers ++ [.byte (memRead s.mem a)] } := by simp [hostMemLoad, h]

theorem hostMemLoad_of_not_coherent {a : Nat} {s : State} (h : s.platform.hostCoherent = false) :
    hostMemLoad a s = { s with answers := s.answers ++ [.byte (Config.freeByte s.draws)], draws := s.draws + 1 } := by
  simp [hostMemLoad, h]

/-! ### The progress a command can have made -/

/-- The progress of an active transfer. -/
theorem progressOk_some {s : State} {p : Progress} {i : Instr} {r : Regions} (h : activeTransfer s = some (i, r)) :
    ProgressOk s p ↔ (Rising p.read ∧ Rising p.written ∧ (∀ k ∈ p.read, k < r.src.len) ∧
    (∀ k ∈ p.written, k < r.dst.len ∧ (k < r.src.len → k ∈ p.read)) ∧
    (p.raced = false → ∀ k ∈ p.written, memRead s.mem (r.dst.start + k) = (finalBytes i s).getD k 0#8)) := by
  simp only [ProgressOk, h]

/-- A command that reaches no memory makes no progress. -/
theorem progressOk_none {s : State} {p : Progress} (h : activeTransfer s = none) :
    ProgressOk s p ↔ p.read = [] ∧ p.written = [] := by
  simp only [ProgressOk, h]

/-- A command that has just been accepted has made no progress. -/
theorem progressOk_fresh (s : State) : ProgressOk s Progress.fresh := by
  cases h : activeTransfer s with
  | none => exact (progressOk_none h).2 ⟨rfl, rfl⟩
  | some x => exact (progressOk_some h).2 ⟨.nil, .nil, by simp [Progress.fresh], by simp [Progress.fresh],
      by simp [Progress.fresh]⟩

/-- A state whose engine has made no progress meets the invariant as soon as its platform, memory and flags do. -/
theorem inv_of_no_progress {s : State} (hp : s.platform.WellFormed = true) (hm : Memory.wf s.mem = true)
    (hi : ∀ c ∈ s.mem, c.1 < s.platform.memSize) (hb : s.busy = true → s.done = false ∧ s.err = false)
    (he : s.err = false ↔ s.errCode = .noError) (h : s.engine = .idle ∨ s.engine = .busy Progress.fresh) : s.Inv where
  platform := hp
  memWf := hm
  memInside := hi
  busyFlags := hb
  errCode := he
  progress p hp := by
    rcases h with h | h <;> rw [h] at hp <;> cases hp
    exact progressOk_fresh s

end Sys2Proof.Machine
end

