-- ==== Sys2Proof/Laws/PerInstr.lean ====
section
/-!
SUPPORT. What holds of every command as syntax, one lemma a constructor.
-/
namespace Sys2Proof.Laws

/-- The command's word has RSV = 0 and an OP of the opcode map, and the command is well formed (spec/30_encoding.md R64, R66). -/
def CommandWord.Statement (i : Instr) : Prop :=
  commandRsv (encode i) = 0#24 ∧ wellFormedWord (encode i) = true ∧ i.WellFormed = true

theorem CommandWord.nop : CommandWord.Statement .nop := ⟨by decide, by decide, rfl⟩

theorem CommandWord.layout : CommandWord.Statement .layout := ⟨by decide, by decide, rfl⟩

theorem CommandWord.pack : CommandWord.Statement .pack := ⟨by decide, by decide, rfl⟩

theorem CommandWord.unpack : CommandWord.Statement .unpack := ⟨by decide, by decide, rfl⟩

end Sys2Proof.Laws
end

