-- ==== Sys2Proof/Tests/Slice0.lean ====
section
/-!
SUPPORT. The model's own tests: ill-formed terms refused, every command's word decoded, vectors of 95_test_vectors.md, and a
witness for the hypotheses of every statement that has some. Expected values come from the spec.
-/
namespace Sys2Proof.Machine

/-! ### Well-formedness: an ill-formed term for each check -/

theorem test_platform_well_formed : Config.referencePlatform.WellFormed = true := by decide

theorem test_platform_without_memory_refused :
    Platform.WellFormed { regBase := 0, memSize := 0, hostCoherent := true } = false := by decide

theorem test_platform_memory_too_large_refused :
    Platform.WellFormed { regBase := 0, memSize := 2 ^ 32 + 1, hostCoherent := true } = false := by decide

theorem test_platform_misaligned_base_refused :
    Platform.WellFormed { regBase := 0x1002, memSize := 0x10000, hostCoherent := true } = false := by decide

theorem test_word_reserved_bits_refused : wellFormedWord 0x00000102#32 = false := by decide

theorem test_word_unused_op_refused : wellFormedWord 0x00000004#32 = false := by decide

theorem test_memory_forms_refused : Memory.wf [(3, 1#8), (2, 1#8)] = false ∧ Memory.wf [(3, 0#8)] = false := by decide

/-! ### Decoding: the words of 30_encoding.md R66 bit by bit, and illegal words of 95_test_vectors.md 2.5 -/

theorem test_decode_nop : decode 0b00000000000000000000000000000000#32 = .command .nop := by decide

theorem test_decode_layout : decode 0b00000000000000000000000000000001#32 = .command .layout := by decide

theorem test_decode_pack : decode 0b00000000000000000000000000000010#32 = .command .pack := by decide

theorem test_decode_unpack : decode 0b00000000000000000000000000000011#32 = .command .unpack := by decide

theorem test_decode_unused_op : decode 0x000000FF#32 = .illegal (.unassignedOp 0xFF#8) := by decide

theorem test_decode_reserved_bits : decode 0x80000002#32 = .illegal (.reservedBits 0x800000#24) := by decide

/-! ### Small states -/

/-- "Hello", the payload of 95_test_vectors.md P1. -/
def hello : List Byte := [0x48#8, 0x65#8, 0x6C#8, 0x6C#8, 0x6F#8]

/-- "Hello" at 0x100. -/
def helloMem : List Host.Cell := [(0x100, 0x48#8), (0x101, 0x65#8), (0x102, 0x6C#8), (0x103, 0x6C#8), (0x104, 0x6F#8)]

/-- The grid of "Hello" at 0x200. -/
def gridMem : List Host.Cell := [(0x200, 0x48#8), (0x201, 0x65#8), (0x202, 0x6C#8), (0x203, 0x6C#8), (0x204, 0x6F#8)]

/-- After reset with memory `m` and operands `a`, `l`, `d`, with command `i` just accepted. -/
def accepted (i : Instr) (m : List Host.Cell) (a l d : Word) : State :=
  { State.resetOn Config.referencePlatform m with
    srcAddr := a, srcLen := l, dstAddr := d, cmd := encode i, engine := .busy Progress.fresh }

/-- PACK of "Hello" from 0x100 to 0x200, just accepted. -/
def packing : State := accepted .pack helloMem 0x100#32 5#32 0x200#32

/-- UNPACK of the 2 by 2 grid of "Hello" from 0x200 to 0x300, just accepted. -/
def unpacking : State :=
  { accepted .unpack gridMem 0x200#32 5#32 0x300#32 with width := 2#32, height := 2#32 }

/-- The same state with `acts` scheduled. -/
def scheduled (acts : List Action) (s : State) : State := { s with schedule := acts }

/-- The same state on a platform whose host is not coherent with the engine. -/
def incoherent (s : State) : State := { s with platform := { s.platform with hostCoherent := false } }

/-- The same state on a platform with its register window at 0x1000. -/
def windowed (s : State) : State := { s with platform := { s.platform with regBase := 0x1000 } }

/-- A state with one scheduled register write. -/
def writing (r : Reg) (v : Word) (s : State) : State := scheduled [wr s.platform r v] s

theorem accepted_inv (i : Instr) (m : List Host.Cell) (a l d : Word) (hm : Memory.wf m = true)
    (hi : ∀ c ∈ m, c.1 < 0x10000) : (accepted i m a l d).Inv :=
  inv_of_no_progress (show Config.referencePlatform.WellFormed = true by decide) hm hi (fun _ => ⟨rfl, rfl⟩)
    ⟨fun _ => rfl, fun _ => rfl⟩ (.inr rfl)

theorem packing_inv : packing.Inv := accepted_inv _ _ _ _ _ (by decide) (by decide)

theorem unpacking_inv : unpacking.Inv :=
  inv_of_no_progress (by decide) (by decide) (by decide) (fun _ => ⟨rfl, rfl⟩) ⟨fun _ => rfl, fun _ => rfl⟩ (.inr rfl)

/-- What a step's next state shows through `f`. -/
def after (f : State → Word) (o : Host.Outcome State Fault Refusal) : Option Word :=
  match o with
  | .next t => some (f t)
  | .fault _ => none
  | .refused _ => none

/-! ### Commands: two tests each at most -/

/-- 95_test_vectors.md 2.5: NOP. -/
theorem test_nop_status : after statusWord (step (accepted .nop [] 0#32 0#32 0#32)) = some 0x00000002#32 := by decide

/-- 95_test_vectors.md 2.2: the last `n` with width 3, and the first with width 4. -/
theorem test_layout_width_steps :
    after State.width (step { accepted .layout [] 0#32 0#32 0#32 with bitLen := 256#32 }) = some 3#32 ∧
      after State.width (step { accepted .layout [] 0#32 0#32 0#32 with bitLen := 257#32 }) = some 4#32 := by decide

/-- 95_test_vectors.md 2.2: the largest operand. -/
theorem test_layout_largest :
    layoutFn 0xFFFFFFFF = { pixCount := 134217728, width := 11586, height := 11586, padBits := 1 } := by decide +kernel

/-- 95_test_vectors.md P1: the first pixel, the last payload byte and the slack. -/
theorem test_pack_hello :
    (match step packing with
      | .next t => readBytes t.mem 0x200 6
      | .fault _ => []
      | .refused _ => []) = hello ++ [0x00#8] := by decide

/-- 95_test_vectors.md 2.3: one byte too many at the top of memory. -/
theorem test_pack_top_of_memory :
    after statusWord (step (accepted .pack [] 0x100#32 13#32 0xFFDC#32)) = some 0x00000002#32 ∧
      after statusWord (step (accepted .pack [] 0x100#32 13#32 0xFFDD#32)) = some 0x00000306#32 := by decide

/-- 95_test_vectors.md P2: the copy of the grid. -/
theorem test_unpack_hello :
    (match step unpacking with
      | .next t => readBytes t.mem 0x300 6
      | .fault _ => []
      | .refused _ => []) = hello ++ [0x00#8] := by decide

/-- 95_test_vectors.md 2.4: the product does not wrap, and the same region overlaps itself. -/
theorem test_unpack_errors :
    after statusWord (step { unpacking with width := 0x10000#32, height := 0x10000#32 }) = some 0x00000206#32 ∧
      after statusWord (step { unpacking with dstAddr := 0x200#32 }) = some 0x00000406#32 := by decide

/-! ### Registers (95_test_vectors.md 2.6) and the first instruction after reset -/

theorem test_ctrl_keeps_one_bit : after ctrlWord (step (writing .ctrl 0xFFFFFFFF#32 .reset)) = some 0x00000001#32 := by decide

theorem test_write_while_busy_sets_wign : after statusWord (step (writing .width 7#32 packing)) = some 0x00000009#32 := by decide

theorem test_status_partial_acknowledge :
    after statusWord (step (writing .status 0x2#32 (raiseError .dstRange .reset))) = some 0x00000304#32 := by decide

theorem test_misaligned_write_ignored :
    after ctrlWord (step (scheduled [.regWrite 0x06 4 0xFFFFFFFF#32] .reset)) = some 0x00000000#32 := by decide

theorem test_host_memory_beyond_the_end_stops :
    (match step (scheduled [.memRead 0x10000] .reset) with
      | .next _ => false
      | .fault r => decide (r = .noSuchMemory 0x10000)
      | .refused _ => false) = true := by decide

theorem test_first_word_after_reset_runs :
    after statusWord (step (State.reset.withFetchWord 32 2)) = some 0x00000002#32 ∧
      after statusWord (step (State.reset.withFetchWord 32 4)) = some 0x00000106#32 := by decide

/-! ### Witnesses: a state that meets the hypotheses of each statement, clause by clause -/

theorem witness_CommandWordsDecodeExactly :
    commandRsv 0x00000100#32 ≠ 0#24 ∧ commandRsv 0x00000004#32 = 0#24 ∧ 0x04#8 ≤ commandOp 0x00000004#32 ∧
      0x04#8 ≤ commandOp 0x000000FF#32 := by decide

theorem witness_IllegalWordsCompleteWithAnError :
    4 ≤ (4#32 : Word).toNat ∧ (State.reset).engine = .idle ∧
      (scheduled [wr State.reset.platform .cmd 4#32, .engineFinish] .reset).schedule =
        wr State.reset.platform .cmd 4#32 :: .engineFinish :: [] := by decide

theorem witness_StepRunsTheDecodedCommand :
    packing.busy = true ∧ decode packing.cmd = .command .pack ∧ packing.schedule = [] ∧
      (scheduled [.engineFinish] packing).busy = true ∧ (scheduled [.engineFinish] packing).schedule = .engineFinish :: [] := by
  decide

theorem witness_ResetMeetsTheInvariant :
    Config.referencePlatform.WellFormed = true ∧ Memory.wf helloMem = true ∧
      ∀ c ∈ helloMem, c.1 < Config.referencePlatform.memSize := by decide

theorem witness_StepKeepsTheInvariant : packing.Inv ∧ ∃ t, step packing = .next t := ⟨packing_inv, _, rfl⟩

theorem witness_ResetByItsRule : (scheduled [.reset] packing).schedule = .reset :: [] := rfl

theorem witness_AcceptanceByItsRule :
    (writing .cmd 3#32 .reset).schedule = wr (writing .cmd 3#32 .reset).platform .cmd 3#32 :: [] ∧
      (writing .cmd 3#32 .reset).busy = false ∧
      (writing .cmd 3#32 packing).schedule = wr (writing .cmd 3#32 packing).platform .cmd 3#32 :: [] ∧
      (writing .cmd 3#32 packing).busy = true := by decide

theorem witness_BusyLocksTheRegisters :
    (writing .srcAddr 1#32 packing).schedule = wr (writing .srcAddr 1#32 packing).platform .srcAddr 1#32 :: [] ∧
      (writing .srcAddr 1#32 packing).busy = true ∧ (writing .cmd 1#32 .reset).busy = false ∧
      (writing .cmd 1#32 .reset).schedule = wr (writing .cmd 1#32 .reset).platform .cmd 1#32 :: [] ∧
      (scheduled [rd packing.platform .width] packing).schedule = rd packing.platform .width :: [] := by decide

/-- A step that leaves a command in flight. -/
theorem witness_BusyLocksTheRegisters_in_flight :
    (writing .ctrl 1#32 packing).busy = true ∧
      ∃ t, step (writing .ctrl 1#32 packing) = .next t ∧ t.busy = true := ⟨rfl, _, rfl, rfl⟩

theorem witness_StatusWriteOneToClear :
    (writing .status 0xE#32 packing).schedule = wr (writing .status 0xE#32 packing).platform .status 0xE#32 :: [] ∧
      ((raiseError .overlap packing).err = false ↔ (raiseError .overlap packing).errCode = .noError) := by decide

theorem witness_CtrlByItsRule :
    (writing .ctrl 1#32 packing).schedule = wr (writing .ctrl 1#32 packing).platform .ctrl 1#32 :: [] ∧
      (1#32 : Word).getLsbD 0 = true ∧ (2#32 : Word).getLsbD 0 = false := by decide

theorem witness_ReadOnlyWordsIgnoreWrites :
    0x00 ∈ [0x00, 0x28, 0x2C, 0x30, 0x34, 0x38, 0x3C] ∧
      (scheduled [.regWrite (State.reset.platform.regBase + 0x3C) 4 1#32] .reset).schedule =
        .regWrite (State.reset.platform.regBase + 0x3C) 4 1#32 :: [] ∧
      State.reset.platform.regBase + 0x40 ≤ 0x40 ∧
      (scheduled [.regRead 0x40 4] .reset).schedule = .regRead 0x40 4 :: [] ∧
      0xFFC + 4 ≤ (windowed .reset).platform.regBase ∧
      (windowed (scheduled [.regWrite 0xFFC 4 1#32] .reset)).schedule = .regWrite 0xFFC 4 1#32 :: [] := by decide

/-- A narrow access, a misaligned one, one across the end of the window and one across its start. -/
theorem witness_IrregularAccessesHaveNoEffect :
    0x00 < State.reset.platform.regBase + 0x40 ∧ State.reset.platform.regBase < 0x00 + 1 ∧ (1 : Nat) ≠ 4 ∧
      0x3E < State.reset.platform.regBase + 0x40 ∧ State.reset.platform.regBase < 0x3E + 4 ∧
      (0x3E - State.reset.platform.regBase) % 4 ≠ 0 ∧
      (scheduled [.regWrite 0x3E 4 1#32] .reset).schedule = .regWrite 0x3E 4 1#32 :: [] ∧
      (scheduled [.regRead 0x00 1] .reset).schedule = .regRead 0x00 1 :: [] ∧
      0xFFE < (windowed .reset).platform.regBase ∧ (windowed .reset).platform.regBase < 0xFFE + 4 ∧
      (windowed (scheduled [.regRead 0xFFE 4] .reset)).schedule = .regRead 0xFFE 4 :: [] := by decide

theorem witness_RegisterReadsHaveNoSideEffect :
    (scheduled [.regRead (State.reset.platform.regBase + 0x08) 4] .reset).schedule =
        .regRead (State.reset.platform.regBase + 0x08) 4 :: [] ∧
      (scheduled [.regWrite (State.reset.platform.regBase + 0x24) 4 7#32] .reset).schedule =
        .regWrite (State.reset.platform.regBase + 0x24) 4 7#32 :: [] := ⟨rfl, rfl⟩

/-- Every clause: a write to each counter, a PACK that passes its checks, an error of PACK, and an illegal word. -/
theorem witness_ResultCountersByTheirRules :
    (writing .pixCount 7#32 packing).schedule = wr (writing .pixCount 7#32 packing).platform .pixCount 7#32 :: [] ∧
      (writing .padBits 7#32 .reset).schedule = wr (writing .padBits 7#32 .reset).platform .padBits 7#32 :: [] ∧
      PackFits packing ∧ packing.err = false ∧ (∃ t, exec .nop packing = .next t) ∧
      (∃ t, exec .pack (accepted .pack [] 0x20000#32 4#32 0#32) = .next t ∧ t.err = true) ∧
      State.busy { packing with cmd := 0x102#32 } = true ∧
      decode (State.cmd { packing with cmd := 0x102#32 }) = .illegal (.reservedBits 1#24) :=
  ⟨rfl, rfl, by decide, rfl, ⟨_, rfl⟩, ⟨_, rfl, rfl⟩, rfl, by decide⟩

theorem witness_IrqIsEnabledDone :
    readReg packing .ctrl = readReg State.reset .ctrl ∧ readReg (completeOk packing) .status = 2#32 ∧
      readReg (completeOk packing) .status = readReg (completeOk unpacking) .status := by decide

theorem witness_CompletionRaisesIrq :
    State.Inv { packing with irqEn := true } ∧ State.busy { packing with irqEn := true } = true ∧
      ∃ t, runCommand { packing with irqEn := true } = .next t :=
  ⟨inv_of_no_progress (by decide) (by decide) (by decide) (fun _ => ⟨rfl, rfl⟩) ⟨fun _ => rfl, fun _ => rfl⟩ (.inr rfl),
    rfl, _, rfl⟩

/-- A step that starts a command, one that ends it, and one that clears every flag. -/
theorem witness_OnlyTheseEventsChangeFlags :
    (∃ t, step (writing .cmd 0#32 .reset) = .next t ∧ t.busy = true) ∧
      (∃ t, step packing = .next t ∧ t.busy = false ∧ t.done = true) ∧
      (∃ t, step (accepted .pack [] 0x20000#32 4#32 0#32) = .next t ∧ t.err = true) ∧
      (∃ t, step (writing .width 1#32 packing) = .next t ∧ t.wign = true) ∧
      (∃ t, step (writing .status 0xE#32 { raiseError .overlap .reset with wign := true }) = .next t ∧
        t.done = false ∧ t.err = false ∧ t.wign = false) :=
  ⟨⟨_, rfl, rfl⟩, ⟨_, rfl, rfl, rfl⟩, ⟨_, rfl, rfl⟩, ⟨_, rfl, rfl⟩, ⟨_, rfl, rfl, rfl, rfl⟩⟩

theorem witness_ErrKeepsDoneUntilAcknowledged :
    ((raiseError .dstRange .reset).err = true → (raiseError .dstRange .reset).done = true) ∧
      ∃ t, step (writing .status 0x2#32 (raiseError .dstRange .reset)) = .next t ∧ t.err = true ∧ t.done = false :=
  ⟨fun _ => rfl, _, rfl, rfl, rfl⟩

theorem witness_ResultsStayInAgreement :
    (accepted .layout [] 0#32 0#32 0#32).err = false ∧
      (∃ t, exec .layout (accepted .layout [] 0#32 0#32 0#32) = .next t ∧ t.err = false) ∧
      ResultsAgree (setResults (layoutFn 40) .reset) ∧
      (∃ t, step (writing .bitLen 9#32 (setResults (layoutFn 40) .reset)) = .next t) ∧
      (writing .bitLen 9#32 (setResults (layoutFn 40) .reset)).nextAction ≠ .reset ∧
      (∀ v, wr Config.referencePlatform .bitLen 9#32 ≠ wr Config.referencePlatform .width v ∧
        wr Config.referencePlatform .bitLen 9#32 ≠ wr Config.referencePlatform .height v) :=
  ⟨rfl, ⟨_, rfl, rfl⟩, by decide, ⟨_, rfl⟩, by decide, fun v => by simp [wr, Reg.offset]⟩

/-- With a transfer in flight, and without one. -/
theorem witness_OnlyTheDestinationIsWritten :
    packing.Inv ∧ (∃ t, step packing = .next t) ∧ packing.nextAction = .engineFinish ∧
      activeTransfer packing = some (.pack, packRegions packing) ∧ activeTransfer State.reset = none :=
  ⟨packing_inv, ⟨_, rfl⟩, rfl, rfl, rfl⟩

/-- A host access outside memory, an allowed one at the last byte, and one on a platform that is not coherent. -/
theorem witness_OnlyHostMemoryAccessesStop :
    (scheduled [.memRead 0xFFFF] .reset).nextAction.accessible Config.referencePlatform = true ∧
      step (scheduled [.memWrite 0x10000 1#8] .reset) = .fault (.noSuchMemory 0x10000) ∧
      (∃ t, step (incoherent (scheduled [.memRead 0] .reset)) = .next t) := ⟨by decide, rfl, _, rfl⟩

theorem witness_EveryCommandEnds :
    (scheduled [.memRead 0x200, .regRead 0x08 4] packing).busy = true ∧
      ∀ a ∈ (scheduled [.memRead 0x200, .regRead 0x08 4] packing).schedule, a.accessible packing.platform = true := by decide

theorem witness_CompletionEndsTheCommand : packing.busy = true ∧ packing.schedule = [] := by decide

theorem witness_NopByItsRule :
    (accepted .nop [] 0#32 0#32 0#32).Inv ∧ Running .nop (accepted .nop [] 0#32 0#32 0#32) :=
  ⟨accepted_inv _ _ _ _ _ rfl (by simp), by decide⟩

theorem witness_LayoutByItsRule :
    (accepted .layout [] 0#32 0#32 0#32).Inv ∧ Running .layout (accepted .layout [] 0#32 0#32 0#32) ∧
      (layoutFn 97).pixCount = 2 * 2 ∧ (layoutFn 0).pixCount = 0 * 0 :=
  ⟨accepted_inv _ _ _ _ _ rfl (by simp), by decide, by decide, by decide⟩

theorem witness_LayoutBounds : (2 ^ 32 - 1 : Nat) ≤ 2 ^ 32 - 1 := by decide

theorem witness_PerfectSquaresGetAWiderGrid :
    (layoutFn 97).pixCount = 4 ∧ (layoutFn 257).pixCount = 9 ∧ (layoutFn 0).pixCount = 0 := by decide

theorem witness_LayoutGrowsInSteps : (96 : Nat) ≤ 97 ∧ (1 : Nat) ≤ 1 ∧ 32 * (2 ^ 2 - 1) + 1 ≤ 97 := by decide

theorem witness_PixelsAreTheirChunks : 1 < (paddedBits hello).length / 32 := by decide

theorem witness_PixelWordsOfAPack : 0 < gridCells hello.length ∧ 3 < gridCells hello.length := by decide

/-- A destination that does not fit by one byte, and the longest payload. -/
theorem witness_PackBounds :
    InRange (accepted .pack [] 0x100#32 13#32 0xFFDD#32).platform.memSize 0x100 13 ∧
      (accepted .pack [] 0x100#32 13#32 0xFFDD#32).platform.memSize < 0xFFDD + 4 * gridCells 13 ∧
      (accepted .pack [] 0#32 0xFFFFFFFF#32 0#32).platform.WellFormed = true ∧
      (accepted .pack [] 0#32 0xFFFFFFFF#32 0#32).srcLen = 0xFFFFFFFF#32 := by decide

/-- One state for each clause: SRC_RANGE by one byte, DST_RANGE, OVERLAP, success, and the example. -/
theorem witness_PackByItsRule :
    ¬ InRange 0x10000 (accepted .pack [] 0xFFFF#32 2#32 0x200#32).srcAddr.toNat 2 ∧
      (InRange 0x10000 0xFFFC 4 ∧ ¬ InRange 0x10000 0xFFF4 (4 * gridCells 4)) ∧
      (InRange 0x10000 0x100 8 ∧ InRange 0x10000 0x104 (4 * gridCells 8) ∧ Overlap 0x100 8 0x104 (4 * gridCells 8)) ∧
      PackFits (accepted .pack [] 0x100#32 8#32 0x108#32) ∧
      (packing.Inv ∧ Running .pack packing ∧ packing.progress.raced = false ∧ PackFits packing) ∧
      (packing.srcAddr = 0x100#32 ∧ packing.srcLen = 5#32 ∧ packing.dstAddr = 0x200#32 ∧ payload packing = hello) :=
  ⟨by decide, by decide, by decide, by decide, ⟨packing_inv, by decide, rfl, by decide⟩, by decide⟩

/-- The hypotheses of the statements about a successful PACK: PackCopiesAndZeroFills, EveryPackHasSlack,
PackPaddingIsCorrect. -/
theorem witness_successful_pack :
    packing.Inv ∧ Running .pack packing ∧ packing.progress.raced = false ∧ PackFits packing :=
  ⟨packing_inv, by decide, rfl, by decide⟩

/-- An empty payload at the very end of memory. -/
theorem witness_EmptyPayloadPacks :
    (accepted .pack [] 0xFFFFFFFF#32 0#32 0xFFFC#32).Inv ∧
      Running .pack (accepted .pack [] 0xFFFFFFFF#32 0#32 0xFFFC#32) ∧
      (accepted .pack [] 0xFFFFFFFF#32 0#32 0xFFFC#32).progress.raced = false ∧
      (accepted .pack [] 0xFFFFFFFF#32 0#32 0xFFFC#32).srcLen = 0#32 ∧
      (accepted .pack [] 0xFFFFFFFF#32 0#32 0xFFFC#32).dstAddr.toNat + 4 ≤
        (accepted .pack [] 0xFFFFFFFF#32 0#32 0xFFFC#32).platform.memSize :=
  ⟨accepted_inv _ _ _ _ _ rfl (by simp), by decide, rfl, rfl, by decide⟩

theorem witness_PackFailsOnlyForPlacement :
    packing.Inv ∧ Running .pack packing ∧ PackFits packing ∧
      ¬ PackFits (accepted .pack helloMem 0x100#32 5#32 0xFFF8#32) :=
  ⟨packing_inv, by decide, by decide, by decide⟩

theorem witness_LayoutAgreesWithPack :
    PackFits packing ∧ packing.srcLen.toNat ≤ 536870911 ∧
      State.bitLen { accepted .layout [] 0#32 0#32 0#32 with bitLen := 40#32 } = 40#32 ∧
      (40#32 : Word).toNat = 8 * packing.srcLen.toNat := by decide

/-- One grid for each clause: SRC_RANGE, DST_RANGE, OVERLAP by one pixel, and success with the example. -/
theorem witness_UnpackByItsRule :
    ¬ InRange 0x10000 0x100 (4 * (0x80 * 0x80)) ∧
      (InRange 0x10000 0x100 (4 * (2 * 2)) ∧ ¬ InRange 0x10000 0xFFF4 (4 * (2 * 2))) ∧
      (InRange 0x10000 0x200 16 ∧ InRange 0x10000 0x20C 16 ∧ Overlap 0x200 16 0x20C 16) ∧
      (unpacking.Inv ∧ Running .unpack unpacking ∧ unpacking.progress.raced = false ∧ UnpackFits unpacking) ∧
      readBytes unpacking.mem 0x200 16 = hello ++ List.replicate 11 0#8 :=
  ⟨by decide, by decide, by decide, ⟨unpacking_inv, by decide, rfl, by decide⟩, by decide⟩

theorem witness_UnpackCopiesTheGrid :
    unpacking.Inv ∧ Running .unpack unpacking ∧ unpacking.progress.raced = false ∧ UnpackFits unpacking :=
  ⟨unpacking_inv, by decide, rfl, by decide⟩

theorem witness_EmptyGridUnpacks :
    State.width { unpacking with width := 0#32 } = 0#32 ∧ State.height { unpacking with height := 0#32 } = 0#32 := by decide

theorem witness_UnpackAfterPackGivesThePayload :
    (packing.Inv ∧ Running .pack packing ∧ packing.progress.raced = false ∧ PackFits packing) ∧
      (unpacking.Inv ∧ Running .unpack unpacking ∧ unpacking.progress.raced = false ∧ UnpackFits unpacking) ∧
      ∃ t, exec .pack packing = .next t ∧ unpacking.srcAddr = packing.dstAddr ∧ unpacking.width = t.width ∧
        unpacking.height = t.height ∧ packing.dstAddr.toNat = 0x200 ∧ 4 * gridCells packing.srcLen.toNat = 16 ∧
        (∀ b, 0x200 ≤ b → b < 0x200 + 16 → memRead unpacking.mem b = memRead t.mem b) :=
  ⟨⟨packing_inv, by decide, rfl, by decide⟩, ⟨unpacking_inv, by decide, rfl, by decide⟩, _, rfl, by decide, by decide,
    by decide, by decide, by decide, fun b h1 h2 => by
      have h : readBytes unpacking.mem 0x200 16 = readBytes
        (memWriteAll packing.mem (valueCells 0x200 (finalBytes .pack packing) (remainingOffsets 16 []))) 0x200 16 := by decide
      have h' := congrArg (fun l => l.getD (b - 0x200) 0#8) h
      simp only [readBytes, List.getD_eq_getElem?_getD, List.getElem?_map, List.getElem?_range (show b - 0x200 < 16 by omega),
        Option.map_some, Option.getD_some, show 0x200 + (b - 0x200) = b by omega] at h'
      exact h'⟩

/-- An illegal word, and a PACK to which all three of the other errors apply (95_test_vectors.md 2.3). -/
theorem witness_FirstErrorIsReported :
    State.busy { packing with cmd := 0x102#32 } = true ∧ State.schedule { packing with cmd := 0x102#32 } = [] ∧
      packing.busy = true ∧ packing.schedule = [] ∧
      decode (State.cmd { packing with cmd := 0x102#32 }) = .illegal (.reservedBits 1#24) ∧
      decode packing.cmd = .command .pack ∧ commandRegions .pack packing = some (packRegions packing) ∧
      ¬ InRange 0x10000 0x20000 4 ∧ (InRange 0x10000 0xFFFC 4 ∧ ¬ InRange 0x10000 0xFFF4 16) ∧
      (InRange 0x10000 0x100 8 ∧ InRange 0x10000 0x104 16 ∧ Overlap 0x100 8 0x104 16) := by decide

theorem witness_ErrorCompletionByItsRule :
    (accepted .pack [] 0x20000#32 4#32 0#32).err = false ∧
      (∃ t, exec .pack (accepted .pack [] 0x20000#32 4#32 0#32) = .next t ∧ t.err = true) ∧
      State.busy { packing with cmd := 0x102#32 } = true ∧
      decode (State.cmd { packing with cmd := 0x102#32 }) = .illegal (.reservedBits 1#24) ∧
      (∃ t, runCommand { packing with cmd := 0x102#32 } = .next t) := ⟨rfl, ⟨_, rfl, rfl⟩, rfl, by decide, ⟨_, rfl⟩⟩

theorem witness_CommandFrames :
    packing.Inv ∧ packing.busy = true ∧ (∃ t, exec .pack packing = .next t) ∧
      (∃ t, exec .layout (accepted .layout [] 0#32 0#32 0#32) = .next t) := ⟨packing_inv, rfl, ⟨_, rfl⟩, ⟨_, rfl⟩⟩

/-- Two states that agree on the operands and the source bytes, and on nothing else. -/
theorem witness_OutcomeIsDetermined :
    packing.Inv ∧ (accepted .pack ((0x10, 7#8) :: helloMem) 0x100#32 5#32 0x200#32).Inv ∧
      Running .pack (accepted .pack ((0x10, 7#8) :: helloMem) 0x100#32 5#32 0x200#32) ∧
      packing.progress.raced = false ∧ Running .pack packing ∧ commandRegions .pack packing = some (packRegions packing) ∧
      packing.platform = (accepted .pack ((0x10, 7#8) :: helloMem) 0x100#32 5#32 0x200#32).platform ∧
      ∀ k, k < 5 → memRead ((0x10, 7#8) :: helloMem) (0x100 + k) = memRead packing.mem (0x100 + k) :=
  ⟨packing_inv, accepted_inv _ _ _ _ _ (by decide) (by decide), by decide, rfl, by decide, rfl, rfl, by decide⟩

/-- What may happen between acceptance and completion: the engine reads and writes byte 3, the host reads that byte, writes the
byte after the payload, sets IRQ_EN, acknowledges and writes a locked register. -/
def betweenEngineSteps : List Action :=
  [.engineRead 3, .memRead 0x203, .engineWrite 3, .memRead 0x203, .memWrite 0x105 9#8, .regWrite 0x04 4 1#32,
    .regWrite 0x08 4 0xE#32, .regWrite 0x20 4 7#32]

/-- A completion, or a reset, follows: AnyEngineOrderEqualsOneStep, OldOrFinalWhileBusy, ResetAbandonsTheCommand. -/
theorem witness_engine_accesses :
    (scheduled (betweenEngineSteps ++ [.engineFinish]) packing).Inv ∧
      Running .pack (scheduled (betweenEngineSteps ++ [.engineFinish]) packing) ∧
      packing.progress.raced = false ∧
      (∃ t, exec .pack (scheduled (betweenEngineSteps ++ [.engineFinish]) packing) = .next t) ∧
      (∀ a ∈ betweenEngineSteps, a.noRace (scheduled (betweenEngineSteps ++ [.engineFinish]) packing) = true) ∧
      (∀ a ∈ [Action.engineRead 3, .engineWrite 3], a.isEngineAccess = true) ∧
      (scheduled (betweenEngineSteps ++ [.engineFinish]) packing).schedule = betweenEngineSteps ++ .engineFinish :: [] ∧
      (scheduled (betweenEngineSteps ++ [.reset]) packing).schedule = betweenEngineSteps ++ .reset :: [] ∧
      (∀ b, Action.memRead b ∉ [Action.engineRead 3, .engineWrite 3]) ∧ 0x203 < packing.platform.memSize ∧
      packing.platform.hostCoherent = true :=
  ⟨inv_of_no_progress (by decide) (by decide) (by decide) (fun _ => ⟨rfl, rfl⟩) ⟨fun _ => rfl, fun _ => rfl⟩ (.inr rfl),
    by decide, rfl, ⟨_, rfl⟩, by decide, by decide, rfl, rfl, by simp, by decide, rfl⟩

theorem witness_EveryMixOfOldAndFinalIsReached :
    packing.Inv ∧ Running .pack packing ∧ packing.engine = .busy Progress.fresh ∧
      (∃ t, exec .pack packing = .next t ∧ t.err = false) ∧ commandRegions .pack packing = some (packRegions packing) :=
  ⟨packing_inv, by decide, rfl, ⟨_, rfl, rfl⟩, rfl⟩

/-- A host write to the first source byte, and one to the last destination byte. -/
theorem witness_HostWriteRacesTheCommand :
    packing.Inv ∧ Running .pack packing ∧ commandRegions .pack packing = some (packRegions packing) ∧
      (packRegions packing).src.holds 0x100 = true ∧ (packRegions packing).dst.holds 0x20F = true ∧
      0x20F < packing.platform.memSize ∧
      (scheduled [.memWrite 0x20F 1#8] packing).schedule = .memWrite 0x20F 1#8 :: [] :=
  ⟨packing_inv, by decide, rfl, by decide, by decide, by decide, rfl⟩

/-- A PACK the host has raced, with nothing written yet: the engine's next write may be of byte 5, past the payload. -/
theorem witness_RacedCommandCompletesWithFreeBytes :
    Running .pack { packing with engine := .busy { Progress.fresh with raced := true } } ∧
      (State.progress { packing with engine := .busy { Progress.fresh with raced := true } }).raced = true ∧
      State.Inv { packing with engine := .busy { Progress.fresh with raced := true } } ∧
      activeTransfer { packing with engine := .busy { Progress.fresh with raced := true } } =
        some (.pack, packRegions packing) ∧
      5 < (packRegions packing).dst.len ∧ ¬ 5 < (packRegions packing).src.len ∧
      (scheduled [.engineWrite 5] { packing with engine := .busy { Progress.fresh with raced := true } }).schedule =
        .engineWrite 5 :: [] :=
  ⟨by decide, rfl, ⟨by decide, by decide, by decide, fun _ => ⟨rfl, rfl⟩, ⟨fun _ => rfl, fun _ => rfl⟩, fun p h => by
    cases h
    exact (progressOk_some (i := .pack) (r := packRegions packing) rfl).2
      ⟨.nil, .nil, by simp [Progress.fresh], by simp [Progress.fresh], by simp⟩⟩, rfl, by decide, by decide, rfl⟩

/-- The bytes just outside both regions of a running PACK, and a read on either kind of platform. -/
theorem witness_OtherHostWritesDoNotInteract :
    packing.Inv ∧ 0x105 < packing.platform.memSize ∧
      runningRegions packing = some (packRegions packing) ∧
      (packRegions packing).src.holds 0x105 = false ∧ (packRegions packing).dst.holds 0x105 = false ∧
      (packRegions packing).dst.holds 0x1FF = false ∧ (packRegions packing).dst.holds 0x210 = false ∧
      (scheduled [.memWrite 0x105 1#8, .engineFinish] packing).schedule = .memWrite 0x105 1#8 :: [.engineFinish] ∧
      (scheduled [.memRead 0x105] packing).schedule = .memRead 0x105 :: [] ∧ packing.platform.hostCoherent = true ∧
      (incoherent (scheduled [.memRead 0x105] packing)).platform.hostCoherent = false :=
  ⟨packing_inv, by decide, rfl, by decide, by decide, by decide, by decide, rfl, rfl, rfl, rfl⟩

/-- 95_test_vectors.md P4, both outcomes. -/
theorem witness_WriteAndCompletionInEitherOrder :
    packing.Inv ∧ Running .pack packing ∧ (∃ t, exec .pack { packing with schedule := [] } = .next t) ∧
      (∀ r, (scheduled [wr packing.platform r 0x400#32, .engineFinish] packing).schedule =
        wr packing.platform r 0x400#32 :: .engineFinish :: []) ∧
      (∀ r, (scheduled [.engineFinish, wr packing.platform r 0x400#32] packing).schedule =
        .engineFinish :: wr packing.platform r 0x400#32 :: []) :=
  ⟨packing_inv, by decide, ⟨_, rfl⟩, fun _ => rfl, fun _ => rfl⟩

theorem witness_PseudoInstructionsStartCommands :
    (State.reset).engine = .idle ∧
      (scheduled (progUnpack State.reset.platform 0x200#32 2#32 2#32 0x300#32) .reset).schedule =
        progUnpack State.reset.platform 0x200#32 2#32 2#32 0x300#32 ∧
      (scheduled (progAck State.reset.platform) .reset).schedule = progAck State.reset.platform := ⟨rfl, rfl, rfl⟩

end Sys2Proof.Machine
end

section
/-!
PROOFS of the statements about the registers: reset values, host writes and reads at the register port, the lock while
BUSY, `irq`, and the result counters (spec/10_state.md).
-/
namespace Sys2Proof.Machine

/-! ### A step that performs an access at the register port -/

theorem step_of_cons {s : State} {a : Action} {rest : List Action} (h : s.schedule = a :: rest) :
    step s = act a { s with schedule := rest } := by
  simp only [step, h]

theorem step_of_nil {s : State} (h : s.schedule = []) : step s = runCommand s := by
  simp only [step, h]

theorem step_regWrite {s : State} {addr size : Nat} {v : Word} {rest : List Action}
    (h : s.schedule = .regWrite addr size v :: rest) :
    step s = .next (hostRegWrite addr size v { s with schedule := rest }) := step_of_cons h

theorem step_regRead {s : State} {addr size : Nat} {rest : List Action} (h : s.schedule = .regRead addr size :: rest) :
    step s = .next (hostRegRead addr size { s with schedule := rest }) := step_of_cons h

theorem step_wr {s : State} {r : Reg} {v : Word} {rest : List Action} (h : s.schedule = wr s.platform r v :: rest) :
    step s = .next (writeReg r v { s with schedule := rest }) :=
  (step_regWrite h).trans (congrArg _ (hostRegWrite_wr { s with schedule := rest } r v))

/-- The schedule is no part of what a register reads as. -/
@[simp] theorem readReg_schedule (s : State) (l : List Action) (r : Reg) :
    readReg { s with schedule := l } r = readReg s r := by
  cases r <;> rfl

theorem step_rd {s : State} {r : Reg} {rest : List Action} (h : s.schedule = rd s.platform r :: rest) :
    step s = .next { s with schedule := rest, answers := s.answers ++ [.word (readReg s r)] } := by
  have ha := portAnswer_rd { s with schedule := rest } r
  rw [readReg_schedule] at ha
  rw [step_regRead h, hostRegRead, ha]

/-! ### Accesses that reach no writable register (R23, R34 to R36) -/

theorem writeReg_of_readOnly {r : Reg} (hr : r ∈ [Reg.id, .pixCount, .padBits]) (v : Word) (s : State) :
    writeReg r v s = s := by
  cases r <;> simp [writeReg] at hr ⊢

theorem step_wr_of_readOnly {s : State} {r : Reg} {v : Word} {rest : List Action}
    (hr : r ∈ [Reg.id, .pixCount, .padBits]) (h : s.schedule = wr s.platform r v :: rest) :
    step s = .next { s with schedule := rest } := by
  rw [step_wr h, writeReg_of_readOnly hr]

theorem portAccess_of_reserved (p : Platform) {off : Nat} (h : off ∈ [0x30, 0x34, 0x38, 0x3C]) :
    portAccess p (p.regBase + off) 4 = .aligned off ∧ regAt off = none := by
  simp only [List.mem_cons, List.not_mem_nil, or_false] at h
  exact ⟨portAccess_aligned p (by omega) (by omega), by rcases h with rfl | rfl | rfl | rfl <;> rfl⟩

theorem hostRegWrite_of_reserved {s : State} {off : Nat} (v : Word) (h : off ∈ [0x30, 0x34, 0x38, 0x3C]) :
    hostRegWrite (s.platform.regBase + off) 4 v s = s := by
  obtain ⟨hp, hn⟩ := portAccess_of_reserved s.platform h
  simp only [hostRegWrite, hp, hn]

theorem portAnswer_of_reserved {s : State} {off : Nat} (h : off ∈ [0x30, 0x34, 0x38, 0x3C]) :
    portAnswer (s.platform.regBase + off) 4 s = .word 0#32 := by
  obtain ⟨hp, hn⟩ := portAccess_of_reserved s.platform h
  simp only [portAnswer, hp, hn]

theorem portAccess_of_outside {p : Platform} {addr size : Nat} (h : addr + size ≤ p.regBase ∨ p.regBase + 0x40 ≤ addr) :
    portAccess p addr size = .outside :=
  if_neg (by omega)

theorem hostRegWrite_of_outside {s : State} {addr size : Nat} (v : Word)
    (h : portAccess s.platform addr size = .outside) : hostRegWrite addr size v s = s := by
  simp only [hostRegWrite, h]

theorem portAnswer_of_outside {s : State} {addr size : Nat} (h : portAccess s.platform addr size = .outside) :
    portAnswer addr size s = .notThisBlock := by
  simp only [portAnswer, h]

/-- Settles O13: each read-only offset is a register whose write does nothing or a reserved word, which holds no register. -/
theorem readOnlyWordsIgnoreWrites : Obligations.ReadOnlyWordsIgnoreWrites := by
  refine ⟨fun s off v rest hoff h => ?_, fun _ => rfl, by decide, fun s off => portAnswer_of_reserved,
    fun s addr size v rest hout => ?_⟩
  · have hsplit : (∃ r ∈ [Reg.id, .pixCount, .padBits], off = r.offset) ∨ off ∈ [0x30, 0x34, 0x38, 0x3C] := by
      simpa [Reg.offset, or_assoc] using hoff
    rcases hsplit with ⟨r, hr, rfl⟩ | hres
    · exact step_wr_of_readOnly hr h
    · exact (step_regWrite h).trans (congrArg _ (hostRegWrite_of_reserved (s := { s with schedule := rest }) v hres))
  · have hacc := portAccess_of_outside hout
    constructor
    · intro h
      exact (step_regWrite h).trans (congrArg _ (hostRegWrite_of_outside (s := { s with schedule := rest }) v hacc))
    · intro h
      have ha := portAnswer_of_outside (s := { s with schedule := rest }) hacc
      rw [step_regRead h, hostRegRead, ha]

/-! ### The registers the phase locks (R38) -/

theorem lockedWrite_of_busy {s : State} (h : s.busy = true) (t : State) : lockedWrite t s = { s with wign := true } :=
  if_pos h

theorem lockedWrite_of_idle {s : State} (h : s.busy = false) (t : State) : lockedWrite t s = t := by
  simp [lockedWrite, h]

/-- CMD and the operand registers: those that a host write does not reach while BUSY. -/
abbrev lockedRegs : List Reg := [.cmd, .srcAddr, .srcLen, .dstAddr, .bitLen, .width, .height]

theorem writeReg_locked_of_busy {s : State} {r : Reg} (v : Word) (hr : r ∈ lockedRegs) (h : s.busy = true) :
    writeReg r v s = { s with wign := true } := by
  cases r <;> simp [writeReg, lockedWrite_of_busy h] at hr ⊢

theorem writeReg_cmd_of_idle {s : State} (v : Word) (h : s.busy = false) : writeReg .cmd v s = acceptCommand v s :=
  lockedWrite_of_idle h _

theorem readReg_writeReg_same_of_idle {s : State} {r : Reg} (v : Word) (hr : r ∈ lockedRegs) (h : s.busy = false) :
    readReg (writeReg r v s) r = v := by
  cases r <;> simp [writeReg, lockedWrite_of_idle h, readReg] at hr ⊢

/-- Only the write of CMD, which is an acceptance, reaches a second register: it clears flags of STATUS. -/
theorem readReg_writeReg_other_of_idle {s : State} {r q : Reg} (v : Word) (hr : r ∈ lockedRegs) (h : s.busy = false)
    (hq : q ≠ r) (hs : q = .status → r ≠ .cmd) : readReg (writeReg r v s) q = readReg s q := by
  cases r <;> simp [writeReg, lockedWrite_of_idle h] at hr ⊢
  all_goals cases q <;> simp [readReg, ctrlWord, statusWord, State.busy] at hq hs ⊢

/-- What a register write leaves alone in either phase. -/
theorem writeReg_frame (r : Reg) (v : Word) (s : State) :
    (writeReg r v s).mem = s.mem ∧ (writeReg r v s).schedule = s.schedule := by
  cases hb : s.busy <;> cases r <;> simp [writeReg, lockedWrite, hb]

/-! ### Steps that leave the command in flight -/

theorem exec_ends_idle {i : Instr} {s t : State} (h : exec i s = .next t) : t.engine = .idle := by
  rcases exec_cases i s with ⟨-, he⟩ | ⟨r, -, -, he⟩ | ⟨r, -, -, he⟩ <;> rw [he] at h <;> cases h <;> rfl

/-- After the engine's turn no command is in flight. -/
theorem runCommand_ends_idle {s t : State} (h : runCommand s = .next t) : t.engine = .idle := by
  unfold runCommand at h
  split at h
  next hi => cases h; exact hi
  · split at h
    · exact exec_ends_idle h
    · cases h; rfl

/-- The registers other than CTRL and STATUS read as before. -/
def KeepsRegisters (s t : State) : Prop := KeepsOperands s t ∧ KeepsResults s t

theorem KeepsRegisters.refl (s : State) : KeepsRegisters s s := ⟨⟨rfl, rfl, rfl, rfl, rfl⟩, ⟨rfl, rfl, rfl, rfl⟩⟩

theorem KeepsRegisters.readReg_eq {s t : State} (h : KeepsRegisters s t) {q : Reg} (hc : q ≠ .ctrl) (hs : q ≠ .status) :
    readReg t q = readReg s q := by
  obtain ⟨⟨h1, h2, h3, h4, h5⟩, ⟨h6, h7, h8, h9⟩⟩ := h
  cases q <;> simp_all [readReg]

theorem hostRegWrite_keepsRegisters_of_busy {s : State} (hb : s.busy = true) (addr size : Nat) (v : Word) :
    KeepsRegisters s (hostRegWrite addr size v s) := by
  rcases hostRegWrite_cases addr size v s with ⟨r, -, -, e⟩ | e
  · rcases writeReg_of_busy hb r v with e' | e' | e' | e' <;> rw [e, e'] <;> exact .refl s
  · rw [e]; exact .refl s

theorem hostMemLoad_keepsRegisters (a : Nat) (s : State) : KeepsRegisters s (hostMemLoad a s) := by
  rw [hostMemLoad_frame]; exact .refl s

theorem hostMemStore_keepsRegisters (a : Nat) (v : Byte) (s : State) : KeepsRegisters s (hostMemStore a v s) := by
  rcases hostMemStore_cases a v s with ⟨-, e⟩ | ⟨p, r, -, -, -, e⟩ <;> rw [e] <;> exact .refl s

theorem engineRead_keepsRegisters (k : Nat) (s : State) : KeepsRegisters s (engineRead k s) := by
  rcases engineRead_cases k s with e | ⟨p, i, r, -, -, -, e⟩ <;> rw [e] <;> exact .refl s

theorem engineWrite_keepsRegisters (k : Nat) (s : State) : KeepsRegisters s (engineWrite k s) := by
  rcases engineWrite_cases k s with e | ⟨p, i, r, v, d, -, -, -, -, -, e⟩ <;> rw [e] <;> exact .refl s

/-- No action that leaves the command in flight reaches its operands or the results. -/
theorem act_keepsRegisters_in_flight {a : Action} {s t : State} (hb : s.busy = true) (h : act a s = .next t)
    (ht : t.busy = true) : KeepsRegisters s t := by
  cases a with
  | regRead addr size => cases h; exact .refl s
  | regWrite addr size v => cases h; exact hostRegWrite_keepsRegisters_of_busy hb addr size v
  | memRead a => obtain ⟨-, rfl⟩ := hostMemAccess_eq_next.1 h; exact hostMemLoad_keepsRegisters a s
  | memWrite a v => obtain ⟨-, rfl⟩ := hostMemAccess_eq_next.1 h; exact hostMemStore_keepsRegisters a v s
  | reset => cases h; cases ht
  | engineRead k => cases h; exact engineRead_keepsRegisters k s
  | engineWrite k => cases h; exact engineWrite_keepsRegisters k s
  | engineFinish => simp [busy_of_engine_idle (runCommand_ends_idle h)] at ht

theorem step_keepsRegisters_in_flight {s t : State} (hb : s.busy = true) (h : step s = .next t) (ht : t.busy = true) :
    KeepsRegisters s t := by
  cases hs : s.schedule with
  | nil =>
    rw [step_of_nil hs] at h
    exact act_keepsRegisters_in_flight (a := .engineFinish) hb h ht
  | cons a rest =>
    rw [step_of_cons hs] at h
    exact act_keepsRegisters_in_flight (s := { s with schedule := rest }) hb h ht

/-- Settles O10: the locked write in either phase, the registers along steps that leave the command in flight, and reads. -/
theorem busyLocksTheRegisters : Obligations.BusyLocksTheRegisters := by
  refine ⟨fun s r v rest hr h => ⟨fun hb => ?_, fun hi => ?_⟩,
    fun s t q hb h ht hc hs => (step_keepsRegisters_in_flight hb h ht).readReg_eq hc hs, fun s q rest h => step_rd h⟩
  · rw [step_wr h, writeReg_locked_of_busy (s := { s with schedule := rest }) v hr hb]
  · obtain ⟨hmem, hsch⟩ := writeReg_frame r v { s with schedule := rest }
    refine ⟨_, step_wr h, readReg_writeReg_same_of_idle v hr hi, hmem, hsch, fun q hq hst => ?_, ?_⟩
    · exact (readReg_writeReg_other_of_idle (s := { s with schedule := rest }) v hr hi hq hst).trans (readReg_schedule s rest q)
    · rintro rfl
      exact writeReg_cmd_of_idle (s := { s with schedule := rest }) v hi

/-! ### The result counters (R34, R35) -/

@[simp] theorem readReg_pixCount (s : State) : readReg s .pixCount = s.pixCount := rfl

@[simp] theorem readReg_padBits_toNat (s : State) : (readReg s .padBits).toNat = s.padBits.toNat := by
  have := s.padBits.isLt
  simp [readReg]
  omega

theorem readReg_padBits_reserved (s : State) : (readReg s .padBits).extractLsb' 5 27 = 0#27 := by
  refine BitVec.eq_of_getLsbD_eq fun i hi => ?_
  simp [readReg, BitVec.getLsbD_of_ge]

/-- The counters hold the counts of `n` bits uncut, for every `n` that LAYOUT or PACK can have. -/
theorem readReg_counters_of_layoutFn {t : State} {n : Nat} (hn : n < 2 ^ 35)
    (hpix : t.pixCount = BitVec.ofNat 32 (layoutFn n).pixCount) (hpad : t.padBits = BitVec.ofNat 5 (layoutFn n).padBits) :
    (readReg t .pixCount).toNat = ceilDiv n 32 ∧ (readReg t .padBits).toNat = (32 - n % 32) % 32 := by
  simp only [readReg_pixCount, readReg_padBits_toNat, hpix, hpad, layoutFn, padLength, ceilDiv, BitVec.toNat_ofNat]
  omega

theorem exec_pack_counters {s : State} (h : PackFits s) :
    ∃ t, exec .pack s = .next t ∧ t.pixCount = BitVec.ofNat 32 (layoutFn (8 * s.srcLen.toNat)).pixCount ∧
      t.padBits = BitVec.ofNat 5 (layoutFn (8 * s.srcLen.toNat)).padBits :=
  ⟨_, exec_of_checks_pass (i := .pack) rfl ((packFits_iff s).1 h), rfl, rfl⟩

/-- The two counters read as before. -/
def KeepsCounters (s t : State) : Prop := t.pixCount = s.pixCount ∧ t.padBits = s.padBits

theorem KeepsCounters.readReg_eq {s t : State} (h : KeepsCounters s t) :
    readReg t .pixCount = readReg s .pixCount ∧ readReg t .padBits = readReg s .padBits := by
  obtain ⟨hpix, hpad⟩ := h
  simp [readReg, hpix, hpad]

/-- Only LAYOUT and PACK have results. -/
theorem commandResults_of_no_results {i : Instr} (hi : i = .nop ∨ i = .unpack) (s t : State) :
    commandResults i s t = t := by
  rcases hi with rfl | rfl <;> rfl

/-- A command without results, and every error completion, leaves the counters. -/
theorem exec_keepsCounters {i : Instr} {s t : State} (he : s.err = false) (h : exec i s = .next t)
    (hi : (i = .nop ∨ i = .unpack) ∨ t.err = true) : KeepsCounters s t := by
  have hres : t.err = s.err → ∀ u, commandResults i s u = u := fun ht =>
    commandResults_of_no_results (hi.resolve_right (by simp [ht, he])) s
  rcases exec_cases i s with ⟨-, e⟩ | ⟨r, -, -, e⟩ | ⟨r, -, -, e⟩ <;> rw [e] at h <;> cases h
  · simp [KeepsCounters, hres (by simp)]
  · simp [KeepsCounters, hres (by simp)]
  · exact ⟨rfl, rfl⟩

theorem runCommand_of_illegal {s : State} {why : IllegalWord} (hb : s.busy = true) (hd : decode s.cmd = .illegal why) :
    runCommand s = .next (raiseError .illegalCmd s) := by
  obtain ⟨p, hp⟩ := busy_iff.1 hb
  simp only [runCommand, hp, hd]

/-- Settles O60: the counters clause by clause, the results through the layout function and the frames through the three ways
a command completes. -/
theorem resultCountersByTheirRules : Obligations.ResultCountersByTheirRules := by
  refine ⟨fun s r v rest hr h => step_wr_of_readOnly (by simp [hr]) h, fun p m => ⟨rfl, rfl⟩, fun s => ?_, fun s hfit => ?_,
    fun i s t he h hi => (exec_keepsCounters he h (or_assoc.2 hi)).readReg_eq, fun s t why hb hd h => ?_, fun s => ?_⟩
  · have hlt := s.bitLen.isLt
    obtain ⟨hpix, hpad⟩ := readReg_counters_of_layoutFn
      (t := completeOk (setResults (layoutFn s.bitLen.toNat) s)) (by omega) rfl rfl
    exact ⟨_, rfl, hpix, by rw [hpix, ceilDiv]; omega, hpad⟩
  · have hlt := s.srcLen.isLt
    obtain ⟨t, ht, hp, hq⟩ := exec_pack_counters hfit
    obtain ⟨hpix, hpad⟩ := readReg_counters_of_layoutFn (by omega) hp hq
    exact ⟨t, ht, hpix, by rw [hpix, ceilDiv]; omega, hpad⟩
  · rw [runCommand_of_illegal hb hd] at h
    cases h
    exact KeepsCounters.readReg_eq ⟨rfl, rfl⟩
  · exact readReg_padBits_reserved s

/-! ### CTRL, STATUS and `irq` (R24 to R26, R40) -/

theorem ctrlWord_getLsbD_zero (s : State) : (ctrlWord s).getLsbD 0 = s.irqEn :=
  BitVec.getLsbD_concat_zero

theorem statusWord_getLsbD_one (s : State) : (statusWord s).getLsbD 1 = s.done :=
  BitVec.getLsbD_concat_succ.trans BitVec.getLsbD_concat_zero

theorem ctrlWord_eq_and_one {s : State} {v : Word} (h : s.irqEn = v.getLsbD 0) : ctrlWord s = v &&& 1#32 := by
  rw [ctrlWord, h, BitVec.and_one_eq_setWidth_ofBool_getLsbD]
  cases v.getLsbD 0 <;> rfl

/-- A W1C bit `f` and the bit `b` written to it. -/
theorem writeOneClears_eq_ite (f b : Bool) : (f && !b) = if b then false else f := by
  cases b <;> simp

theorem irq_eq_and_bits (s : State) :
    s.irq = ((readReg s .ctrl).getLsbD 0 && (readReg s .status).getLsbD 1) := by
  simp only [readReg, ctrlWord_getLsbD_zero, statusWord_getLsbD_one, State.irq]

theorem ctrlWord_resetOn (p : Platform) (m : List Host.Cell) : ctrlWord (State.resetOn p m) = 0#32 := by
  simp only [ctrlWord, State.resetOn]
  decide

theorem statusWord_resetOn (p : Platform) (m : List Host.Cell) : statusWord (State.resetOn p m) = 0#32 := by
  simp only [statusWord, State.resetOn, State.busy]
  decide

/-- Settles O5: every register but ID reads 0, the two flag words because every flag in them is clear. -/
theorem resetValues : Obligations.ResetValues := by
  refine fun p m => ⟨rfl, fun r hr => ?_, rfl, rfl, rfl⟩
  cases r with
  | id => exact absurd rfl hr
  | ctrl => exact ctrlWord_resetOn p m
  | status => exact statusWord_resetOn p m
  | _ => rfl

/-- Settles O11: the write is `writeStatus`, whose four flags are as stated. -/
theorem statusWriteOneToClear : Obligations.StatusWriteOneToClear := by
  intro s v rest h
  refine ⟨writeStatus v { s with schedule := rest }, step_wr h, rfl, writeOneClears_eq_ite .., writeOneClears_eq_ite .., rfl,
    writeOneClears_eq_ite .., fun hs => ?_⟩
  rw [writeStatus_err, writeStatus_errCode]
  cases v.getLsbD 2
  · simpa using hs
  · simp

/-- Settles O12: the write is `writeCtrl`, which stores bit 0 alone. -/
theorem ctrlByItsRule : Obligations.CtrlByItsRule := by
  refine ⟨fun s v rest h => ⟨writeCtrl v { s with schedule := rest }, step_wr h, rfl, ctrlWord_eq_and_one rfl,
    fun hv => ?_, fun hv => ?_⟩, fun _ _ => rfl⟩
  · rw [State.irq, writeCtrl_irqEn, hv, Bool.true_and]
  · rw [State.irq, writeCtrl_irqEn, hv, Bool.false_and]

/-- Settles O17: the two bits are those `irq` is made of, so what CTRL and STATUS read determines it. -/
theorem irqIsEnabledDone : Obligations.IrqIsEnabledDone :=
  ⟨irq_eq_and_bits, fun s t hc hs => by rw [irq_eq_and_bits, irq_eq_and_bits, hc, hs]⟩

end Sys2Proof.Machine
end

section
/-!
PROOFS of the statements about the command word: the decoder against the encoder, and what becomes of a word that selects no
command (spec/30_encoding.md R64 to R68).
-/
namespace Sys2Proof.Machine

/-! ### The fields of a command word (R64) -/

theorem commandRsv_toNat (w : Word) : (commandRsv w).toNat = w.toNat / 256 := by
  rw [commandRsv, BitVec.extractLsb'_toNat, Nat.shiftRight_eq_div_pow]
  have := w.isLt
  omega

theorem commandOp_toNat (w : Word) : (commandOp w).toNat = w.toNat % 256 := by
  rw [commandOp, BitVec.extractLsb'_toNat, Nat.shiftRight_zero]

theorem commandRsv_eq_zero_iff (w : Word) : commandRsv w = 0#24 ↔ w.toNat < 256 := by
  rw [BitVec.toNat_eq, commandRsv_toNat, BitVec.toNat_ofNat]
  omega

theorem four_le_commandOp_iff (w : Word) : 0x04#8 ≤ commandOp w ↔ 4 ≤ w.toNat % 256 := by
  rw [BitVec.le_def, commandOp_toNat, BitVec.toNat_ofNat]

theorem wellFormedWord_iff (w : Word) : wellFormedWord w = true ↔ w.toNat < 4 := by
  rw [wellFormedWord, Bool.and_eq_true, decide_eq_true_eq, decide_eq_true_eq]
  omega

/-! ### The decoder, case by case (R66, R67) -/

theorem decode_of_reserved {w : Word} (h : commandRsv w ≠ 0#24) : decode w = .illegal (.reservedBits (commandRsv w)) :=
  if_pos h

theorem decode_of_unassigned {w : Word} (hr : commandRsv w = 0#24) (ho : 0x04#8 ≤ commandOp w) :
    decode w = .illegal (.unassignedOp (commandOp w)) := by
  have hne : ∀ op : BitVec 8, op < 0x04#8 → commandOp w ≠ op := fun op hop e => BitVec.not_lt.2 ho (e ▸ hop)
  simp [decode, hr, hne]

theorem exists_encode_iff (w : Word) : (∃ i, w = encode i) ↔ w.toNat < 4 := by
  constructor
  · rintro ⟨i, rfl⟩
    cases i <;> decide
  · intro h
    have hw : w = 0#32 ∨ w = 1#32 ∨ w = 2#32 ∨ w = 3#32 := by bv_omega
    rcases hw with rfl | rfl | rfl | rfl
    exacts [⟨.nop, rfl⟩, ⟨.layout, rfl⟩, ⟨.pack, rfl⟩, ⟨.unpack, rfl⟩]

theorem decode_illegal_of_four_le {w : Word} (h : 4 ≤ w.toNat) : ∃ why, decode w = .illegal why := by
  by_cases hr : commandRsv w = 0#24
  · have hlt := (commandRsv_eq_zero_iff w).1 hr
    exact ⟨_, decode_of_unassigned hr ((four_le_commandOp_iff w).2 (by omega))⟩
  · exact ⟨_, decode_of_reserved hr⟩

theorem decode_command_of_lt_four {w : Word} (h : w.toNat < 4) : ∃ i, w = encode i ∧ decode w = .command i := by
  obtain ⟨i, rfl⟩ := (exists_encode_iff w).2 h
  exact ⟨i, rfl, decode_encode i⟩

theorem decode_illegal_iff (w : Word) : (∃ why, decode w = .illegal why) ↔ 4 ≤ w.toNat := by
  refine ⟨fun ⟨why, hd⟩ => ?_, decode_illegal_of_four_le⟩
  by_contra hlt
  obtain ⟨i, -, hi⟩ := decode_command_of_lt_four (Nat.lt_of_not_le hlt)
  exact nomatch hd.symm.trans hi

theorem decode_eq_command_iff (w : Word) (i : Instr) : decode w = .command i ↔ w = encode i := by
  constructor
  · intro hd
    rcases Nat.lt_or_ge w.toNat 4 with hlt | hge
    · obtain ⟨j, hw, hj⟩ := decode_command_of_lt_four hlt
      obtain rfl : i = j := Decoded.command.inj (hd.symm.trans hj)
      exact hw
    · obtain ⟨why, hi⟩ := decode_illegal_of_four_le hge
      exact nomatch hd.symm.trans hi
  · rintro rfl
    exact decode_encode i

/-- Settles O1: a word below 4 is some command's own word and every other word is illegal, so a command is decoded from no word
but its own. -/
theorem commandWordsDecodeExactly : Obligations.CommandWordsDecodeExactly :=
  ⟨⟨rfl, rfl, rfl, rfl⟩, fun w => ⟨decode_eq_command_iff w, decode_of_reserved, decode_of_unassigned⟩⟩

/-! ### An illegal word, from its acceptance to its completion (R68) -/

theorem step_engineFinish {s : State} {rest : List Action} (h : s.schedule = .engineFinish :: rest) :
    step s = runCommand { s with schedule := rest } := step_of_cons h

theorem runSteps_succ {s t : State} (n : Nat) (h : step s = .next t) : runSteps (n + 1) s = runSteps n t := by
  rw [runSteps, h]

theorem runSteps_one (s : State) : runSteps 1 s = step s := by
  rw [runSteps]
  cases step s <;> rfl

/-- A CMD write in phase IDLE is the acceptance of its word, whatever the word is (R73). -/
theorem step_wr_cmd_of_idle {s : State} {w : Word} {rest : List Action} (hi : s.engine = .idle)
    (h : s.schedule = wr s.platform .cmd w :: rest) : step s = .next (acceptCommand w { s with schedule := rest }) := by
  have hb : State.busy { s with schedule := rest } = false := busy_of_engine_idle hi
  rw [step_wr h, writeReg_cmd_of_idle w hb]

theorem runCommand_acceptCommand_of_illegal {w : Word} (hw : 4 ≤ w.toNat) (s : State) :
    runCommand (acceptCommand w s) = .next (raiseError .illegalCmd (acceptCommand w s)) := by
  obtain ⟨why, hd⟩ := decode_illegal_of_four_le hw
  exact runCommand_of_illegal rfl hd

/-- Settles O3: the first step is the acceptance and the second the error completion, which together set CMD and the flags
alone. -/
theorem illegalWordsCompleteWithAnError : Obligations.IllegalWordsCompleteWithAnError := by
  refine fun w => ⟨decode_illegal_iff w, wellFormedWord_iff w, fun hw s rest hi h => ?_⟩
  have haccept := step_wr_cmd_of_idle hi h
  refine ⟨haccept, ?_⟩
  calc runSteps 2 s
      = step (acceptCommand w { s with schedule := .engineFinish :: rest }) := by
        rw [runSteps_succ 1 haccept, runSteps_one]
    _ = runCommand (acceptCommand w { s with schedule := rest }) := step_engineFinish rfl
    _ = .next (raiseError .illegalCmd (acceptCommand w { s with schedule := rest })) :=
        runCommand_acceptCommand_of_illegal hw _

end Sys2Proof.Machine
end

section
/-!
PROOFS of the statements about commands as a whole: acceptance, NOP, and the outcome that the operands and the source bytes
determine (spec/40_commands.md R73, R78, R80).
-/
namespace Sys2Proof.Machine

/-! ### From acceptance to completion (R73, R74) -/

/-- Settles O9: the step writes CMD, which is an acceptance while idle and a locked write while BUSY. -/
theorem acceptanceByItsRule : Obligations.AcceptanceByItsRule := by
  refine fun s v rest h => ⟨fun hi => ?_, fun hb => ?_⟩
  · exact ⟨_, step_wr_cmd_of_idle (idle_iff.1 hi) h, rfl, rfl, Bool.and_false s.irqEn⟩
  · rw [step_wr h, writeReg_locked_of_busy (s := { s with schedule := rest }) v (by decide) hb]

theorem runSteps_two_of_wr_cmd {s : State} {w : Word} {rest : List Action} (hi : s.engine = .idle)
    (h : s.schedule = wr s.platform .cmd w :: .engineFinish :: rest) :
    runSteps 2 s = runCommand (acceptCommand w { s with schedule := rest }) := by
  rw [runSteps_succ 1 (step_wr_cmd_of_idle hi h), runSteps_one]
  exact step_engineFinish rfl

theorem runCommand_acceptCommand_encode (i : Instr) (s : State) :
    runCommand (acceptCommand (encode i) s) = exec i (acceptCommand (encode i) s) :=
  runCommand_of_running ⟨rfl, rfl⟩

/-- While a command is in flight ERR and ERRCODE are clear (R44 (a), (b)). -/
theorem State.Inv.no_error_of_busy {s : State} (h : s.Inv) (hb : s.busy = true) :
    s.err = false ∧ s.errCode = .noError := by
  obtain ⟨-, herr⟩ := h.busyFlags hb
  exact ⟨herr, h.errCode.1 herr⟩

/-! ### NOP (R80) -/

theorem exec_nop (s : State) : exec .nop s = .next (completeOk s) := rfl

theorem statusWord_resetOn_done (p : Platform) (m : List Host.Cell) :
    statusWord { State.resetOn p m with done := true } = 0x00000002#32 := by
  simp only [statusWord, State.resetOn, State.busy]
  decide

/-- Settles O26: NOP is the success completion alone, and from reset the acceptance before it stores in CMD the 0 it holds. -/
theorem nopByItsRule : Obligations.NopByItsRule := by
  refine ⟨exec_nop, fun w => decode_eq_command_iff w .nop, fun s hinv hrun => hinv.no_error_of_busy hrun.1,
    fun p m => ⟨?_, statusWord_resetOn_done p m⟩⟩
  calc runSteps 2 { State.resetOn p m with schedule := progNop p ++ [.engineFinish] }
      = runCommand (acceptCommand (encode .nop) (State.resetOn p m)) := runSteps_two_of_wr_cmd rfl rfl
    _ = exec .nop (acceptCommand (encode .nop) (State.resetOn p m)) := runCommand_acceptCommand_encode ..
    _ = .next { State.resetOn p m with done := true } := exec_nop _

/-! ### What determines a command's outcome (R78) -/

/-- The regions of a command depend on its operands; WIDTH and HEIGHT are operands of UNPACK alone. -/
theorem commandRegions_eq_of_operands {i : Instr} {s u : State} (hsrc : u.srcAddr = s.srcAddr)
    (hlen : u.srcLen = s.srcLen) (hdst : u.dstAddr = s.dstAddr)
    (hdim : i = .unpack → u.width = s.width ∧ u.height = s.height) : commandRegions i u = commandRegions i s := by
  cases i with
  | nop => rfl
  | layout => rfl
  | pack => simp [commandRegions, packRegions, hsrc, hlen, hdst]
  | unpack =>
    obtain ⟨hw, hh⟩ := hdim rfl
    exact commandRegions_congr .unpack hsrc hlen hdst hw hh

/-- The results of LAYOUT and PACK depend on BIT_LEN and SRC_LEN, and not on the states they are computed in or written to. -/
theorem commandResults_eq_of_operands {i : Instr} (hi : i = .layout ∨ i = .pack) {s u : State}
    (hbits : u.bitLen = s.bitLen) (hlen : u.srcLen = s.srcLen) (s' u' : State) :
    (commandResults i s s').pixCount = (commandResults i u u').pixCount ∧
      (commandResults i s s').width = (commandResults i u u').width ∧
      (commandResults i s s').height = (commandResults i u u').height ∧
      (commandResults i s s').padBits = (commandResults i u u').padBits := by
  rcases hi with rfl | rfl <;> simp [commandResults, hbits, hlen]

/-- The rest of an unraced transfer leaves its final value in every destination byte: those the engine had written hold it
already, by the invariant. -/
theorem writeRemaining_eq_final {i : Instr} {s : State} {r : Regions} (hinv : s.Inv) (hrun : Running i s)
    (hraced : s.progress.raced = false) (hr : commandRegions i s = some r)
    (hc : checkRegions s.platform.memSize r = .noError) {k : Nat} (hk : k < r.dst.len) :
    memRead (writeRemaining r.dst (finalBytes i s) s).mem (r.dst.start + k) = (finalBytes i s).getD k 0#8 := by
  by_cases hw : k ∈ s.progress.written
  · rw [writeRemaining_written hinv.memWf hw]
    obtain ⟨p, hp⟩ := busy_iff.1 hrun.1
    rw [progress_of_engine_busy hp] at hraced hw
    have ha : activeTransfer s = some (i, r) := activeTransfer_eq_some.2 ⟨runningCommand_of_running hrun, hr, hc⟩
    obtain ⟨-, -, -, -, hfinal⟩ := (progressOk_some ha).1 (hinv.progress p hp)
    exact hfinal hraced k hw
  · exact writeRemaining_value hinv.memWf hraced hk hw

/-- Settles O49: equal operands give equal regions, hence the same one of the three ways to complete; with the transfer done,
each destination byte is the final value computed from the source bytes. -/
theorem outcomeIsDetermined : Obligations.OutcomeIsDetermined := by
  intro i s u hs hrs hraceds hu hru hracedu hsize hsrc hlen hdst hbits hdim hbytes
  have hregions := commandRegions_eq_of_operands hsrc hlen hdst hdim
  obtain ⟨herrs, hcodes⟩ := hs.no_error_of_busy hrs.1
  obtain ⟨herru, hcodeu⟩ := hu.no_error_of_busy hru.1
  rcases exec_cases i s with ⟨hr, hexec⟩ | ⟨r, hr, hc, hexec⟩ | ⟨r, hr, hc, hexec⟩
  · exact ⟨_, _, hexec, exec_of_no_regions (hregions.trans hr), rfl, by simp [herrs, herru], by simp [hcodes, hcodeu], rfl,
      by simp, by simp, fun hi _ => commandResults_eq_of_operands hi hbits hlen _ _,
      fun q hq => nomatch hr.symm.trans hq⟩
  · have hru' := hregions.trans hr
    have hcu : checkRegions u.platform.memSize r = .noError := hsize ▸ hc
    refine ⟨_, _, hexec, exec_of_checks_pass hru' hcu, rfl, by simp [herrs, herru], by simp [hcodes, hcodeu], rfl,
      by simp [hraceds], by simp [hracedu], fun hi _ => commandResults_eq_of_operands hi hbits hlen _ _,
      fun q hq _ k hk => ?_⟩
    obtain rfl : r = q := Option.some.inj (hr.symm.trans hq)
    rw [completeOk_mem, completeOk_mem, commandResults_mem, commandResults_mem,
      writeRemaining_eq_final hs hrs hraceds hr hc hk, writeRemaining_eq_final hu hru hracedu hru' hcu hk,
      finalBytes_congr hr hru' (hbytes r hr) hk]
  · have hcu : checkRegions u.platform.memSize r ≠ .noError := hsize ▸ hc
    exact ⟨_, _, hexec, exec_of_check_fails (hregions.trans hr) hcu, rfl, rfl, by simp [hsize], rfl, rfl, rfl,
      fun _ herr => (nomatch herr), fun _ _ herr => (nomatch herr)⟩

end Sys2Proof.Machine
end

section
/-!
PROOFS of the statements about PACK and its pixels: the channels and the word of a pixel as integers of its chunk's bits, the
empty payload, and the errors of PACK (spec/41_bitpacker.md R82, R89, R92).
-/
namespace Sys2Proof.Machine

/-! ### Bits and integers (R11, R12) -/

theorem intOfBits_concat (s : List Bool) (b : Bool) : intOfBits (s ++ [b]) = 2 * intOfBits s + b.toNat :=
  List.foldl_concat ..

theorem intOfBits_append (s t : List Bool) : intOfBits (s ++ t) = 2 ^ t.length * intOfBits s + intOfBits t := by
  induction t using List.reverseRecOn with
  | nil => simp [intOfBits]
  | append_singleton t b ih =>
    rw [← List.append_assoc, intOfBits_concat, intOfBits_concat, ih, List.length_append, List.length_singleton, pow_succ]
    ring

theorem intOfBits_lt (s : List Bool) : intOfBits s < 2 ^ s.length := by
  induction s using List.reverseRecOn with
  | nil => simp [intOfBits]
  | append_singleton s b ih =>
    have hb := b.toNat_lt
    rw [intOfBits_concat, List.length_append, List.length_singleton, pow_succ]
    omega

theorem slice_length (s : List Bool) {i j : Nat} (h : j ≤ s.length) : (slice s i j).length = j - i := by
  simp only [slice, List.length_take, List.length_drop]
  omega

theorem slice_append_slice (s : List Bool) {i j k : Nat} (hij : i ≤ j) (hjk : j ≤ k) :
    slice s i j ++ slice s j k = slice s i k := by
  have hj : s.drop j = (s.drop i).drop (j - i) := by rw [List.drop_drop, Nat.add_sub_cancel' hij]
  rw [slice, slice, slice, hj, ← List.take_add]
  congr 1
  omega

theorem slice_zero_length (s : List Bool) : slice s 0 s.length = s := List.take_length

/-- Eight more positions of a slice are one more digit in base 256. -/
theorem intOfBits_slice_add_eight {s : List Bool} {i j : Nat} (hij : i ≤ j) (hj : j + 8 ≤ s.length) :
    intOfBits (slice s i (j + 8)) = 2 ^ 8 * intOfBits (slice s i j) + intOfBits (slice s j (j + 8)) := by
  rw [← slice_append_slice s hij (Nat.le_add_right j 8), intOfBits_append, slice_length s hj, Nat.add_sub_cancel_left]

/-! ### The pixel of a chunk (R82) -/

/-- A channel takes its eight bits uncut: "Each channel value is in 0 to 255." -/
theorem toNat_ofNat_intOfBits_slice (c : List Bool) (i : Nat) :
    (BitVec.ofNat 8 (intOfBits (slice c i (i + 8)))).toNat = intOfBits (slice c i (i + 8)) := by
  have hlen : (slice c i (i + 8)).length ≤ 8 := by
    simp only [slice, List.length_take]
    omega
  rw [BitVec.toNat_ofNat, Nat.mod_eq_of_lt]
  exact (intOfBits_lt _).trans_le (Nat.pow_le_pow_right (by decide) hlen)

theorem toNat_append_byte {n : Nat} (x : BitVec n) (y : Byte) : (x ++ y).toNat = 2 ^ 8 * x.toNat + y.toNat := by
  rw [BitVec.toNat_append, ← Nat.shiftLeft_add_eq_or_of_lt y.isLt, Nat.shiftLeft_eq, Nat.mul_comm]

theorem pixel_word_toNat (p : Pixel) :
    p.word.toNat = 2 ^ 8 * (2 ^ 8 * (2 ^ 8 * p.r.toNat + p.g.toNat) + p.b.toNat) + p.a.toNat := by
  simp only [Pixel.word, toNat_append_byte]

theorem pixelOfChunk_channels_toNat (c : List Bool) :
    (pixelOfChunk c).r.toNat = intOfBits (slice c 0 8) ∧ (pixelOfChunk c).g.toNat = intOfBits (slice c 8 16) ∧
    (pixelOfChunk c).b.toNat = intOfBits (slice c 16 24) ∧ (pixelOfChunk c).a.toNat = intOfBits (slice c 24 32) :=
  ⟨toNat_ofNat_intOfBits_slice c 0, toNat_ofNat_intOfBits_slice c 8, toNat_ofNat_intOfBits_slice c 16,
    toNat_ofNat_intOfBits_slice c 24⟩

theorem pixelOfChunk_word_toNat {c : List Bool} (h : c.length = 32) : (pixelOfChunk c).word.toNat = intOfBits c := by
  obtain ⟨hr, hg, hb, ha⟩ := pixelOfChunk_channels_toNat c
  have h32 : intOfBits c = 2 ^ 8 * intOfBits (slice c 0 24) + intOfBits (slice c 24 32) := by
    conv_lhs => rw [← slice_zero_length c, h]
    exact intOfBits_slice_add_eight (j := 24) (by decide) h.ge
  have h24 : intOfBits (slice c 0 24) = 2 ^ 8 * intOfBits (slice c 0 16) + intOfBits (slice c 16 24) :=
    intOfBits_slice_add_eight (by decide) (by omega)
  have h16 : intOfBits (slice c 0 16) = 2 ^ 8 * intOfBits (slice c 0 8) + intOfBits (slice c 8 16) :=
    intOfBits_slice_add_eight (by decide) (by omega)
  rw [pixel_word_toNat, hr, hg, hb, ha, h32, h24, h16]

/-! ### The chunks of a payload (R81) -/

theorem paddedBits_length (P : List Byte) : (paddedBits P).length = 32 * (layoutFn (8 * P.length)).pixCount := by
  simp only [paddedBits, payloadBits, List.length_append, flatMap_bits8_length, List.length_replicate, padLength, layoutFn,
    ceilDiv]
  omega

theorem chunk_length {P : List Byte} {j : Nat} (h : j < (layoutFn (8 * P.length)).pixCount) : (chunk P j).length = 32 := by
  rw [chunk, slice_length _ (by rw [paddedBits_length]; omega), Nat.add_sub_cancel_left]

theorem packCell_of_lt {P : List Byte} {j : Nat} (h : j < (layoutFn (8 * P.length)).pixCount) :
    packCell P j = pixelOfChunk (chunk P j) := if_pos h

/-- Settles O31: a cell below the pixel count is the pixel of its chunk; the four eight-bit groups of the chunk are its digits
in base 256, which are the channels. -/
theorem pixelsAreTheirChunks : Obligations.PixelsAreTheirChunks := by
  intro P j hj
  rw [paddedBits_length, Nat.mul_div_cancel_left _ (by decide)] at hj
  rw [packCell_of_lt hj]
  obtain ⟨hr, hg, hb, ha⟩ := pixelOfChunk_channels_toNat (chunk P j)
  exact ⟨hr, hg, hb, ha, pixelOfChunk_word_toNat (chunk_length hj)⟩

/-! ### PACK, with its checks passed and failed (R84) -/

/-- The rest of an unraced transfer reaches memory alone. -/
theorem writeRemaining_frame_of_not_raced {s : State} (d : Region) (b : List Byte) (h : s.progress.raced = false) :
    writeRemaining d b s = { s with mem := (writeRemaining d b s).mem } := by
  simp [writeRemaining, h]

/-- Memory after a PACK that passed its checks. -/
def packedMem (s : State) : List Host.Cell := (writeRemaining (packRegions s).dst (finalBytes .pack s) s).mem

theorem exec_pack_of_fits {s : State} (hraced : s.progress.raced = false) (hfit : PackFits s) :
    exec .pack s = .next (completeOk (setResults (layoutFn (8 * s.srcLen.toNat)) { s with mem := packedMem s })) := by
  rw [exec_of_checks_pass (i := .pack) rfl ((packFits_iff s).1 hfit), commandResults,
    writeRemaining_frame_of_not_raced _ _ hraced]
  rfl

/-- Each destination byte is the source byte at its offset, or 0 past the end of the source (R86). -/
theorem memRead_packedMem {s : State} (hinv : s.Inv) (hrun : Running .pack s) (hraced : s.progress.raced = false)
    (hfit : PackFits s) {k : Nat} (hk : k < 4 * gridCells s.srcLen.toNat) :
    memRead (packedMem s) (s.dstAddr.toNat + k) =
      if k < s.srcLen.toNat then memRead s.mem (s.srcAddr.toNat + k) else 0#8 :=
  (writeRemaining_eq_final (i := .pack) hinv hrun hraced rfl ((packFits_iff s).1 hfit) hk).trans
    (finalBytes_getD (i := .pack) rfl hk)

theorem memRead_packedMem_outside {s : State} (hinv : s.Inv) {a : Nat}
    (h : a < s.dstAddr.toNat ∨ s.dstAddr.toNat + 4 * gridCells s.srcLen.toNat ≤ a) :
    memRead (packedMem s) a = memRead s.mem a :=
  writeRemaining_outside (d := (packRegions s).dst) hinv.memWf h

/-- PACK completes, raced or not, and its checks alone decide whether it sets ERR. -/
theorem exec_pack_err (s : State) : ∃ t, exec .pack s = .next t ∧ (PackFits s → t.err = s.err) ∧
    (¬ PackFits s → t.err = true) := by
  by_cases h : PackFits s
  · exact ⟨_, exec_of_checks_pass (i := .pack) rfl ((packFits_iff s).1 h), fun _ => by simp, absurd h⟩
  · exact ⟨_, exec_of_check_fails (i := .pack) rfl (mt (packFits_iff s).2 h), fun hf => absurd hf h, fun _ => rfl⟩

/-- Settles O40: ERR is 0 while PACK is in flight, so it is 1 afterwards exactly when a check fails. -/
theorem packFailsOnlyForPlacement : Obligations.PackFailsOnlyForPlacement := by
  intro s hinv hrun
  obtain ⟨herr, -⟩ := hinv.no_error_of_busy hrun.1
  obtain ⟨t, ht, hpass, hfail⟩ := exec_pack_err s
  exact ⟨t, ht, fun h1 hfit => by simp [hpass hfit, herr] at h1, hfail⟩

/-! ### The empty payload (R89) -/

/-- A running PACK reads no byte past its source region. -/
theorem engineRead_pack_of_le {s : State} (hrun : Running .pack s) {k : Nat} (hk : s.srcLen.toNat ≤ k) :
    engineRead k s = s := by
  rcases engineRead_cases k s with h | ⟨p, i, r, -, ha, hlt, -⟩
  · exact h
  · obtain ⟨hi, hr, -⟩ := activeTransfer_eq_some.1 ha
    obtain rfl : Instr.pack = i := Option.some.inj ((runningCommand_of_running hrun).symm.trans hi)
    obtain rfl : packRegions s = r := Option.some.inj hr
    exact absurd hlt (Nat.not_lt.2 hk)

theorem gridCells_zero : gridCells 0 = 1 := by decide

theorem layoutFn_zero : layoutFn 0 = { pixCount := 0, width := 1, height := 1, padBits := 0 } := by decide

/-- An empty source is in range wherever it starts, and overlaps nothing. -/
theorem packFits_of_empty {s : State} (hlen : s.srcLen.toNat = 0) (hdst : s.dstAddr.toNat + 4 ≤ s.platform.memSize) :
    PackFits s := by
  rw [PackFits, hlen, gridCells_zero]
  exact ⟨.inl rfl, .inr hdst, fun h => absurd h.1 (Nat.lt_irrefl 0)⟩

/-- Settles O37: the empty source passes its checks, its layout is one cell with no pixel, and every one of the 4 destination
bytes lies past the end of the source. -/
theorem emptyPayloadPacks : Obligations.EmptyPayloadPacks := by
  intro s hinv hrun hraced hlen hdst
  have hlen0 : s.srcLen.toNat = 0 := by rw [hlen]; rfl
  have hfit := packFits_of_empty hlen0 hdst
  have hsize : 4 * gridCells s.srcLen.toNat = 4 := by rw [hlen0, gridCells_zero]
  have hexec := exec_pack_of_fits hraced hfit
  rw [hlen0, Nat.mul_zero, layoutFn_zero] at hexec
  refine ⟨fun k => engineRead_pack_of_le hrun (hlen0 ▸ k.zero_le), _, hexec, rfl, fun k hk => ?_, fun b hb => ?_⟩
  · exact (memRead_packedMem hinv hrun hraced hfit (hk.trans_eq hsize.symm)).trans (if_neg (by omega))
  · exact memRead_packedMem_outside hinv (hsize.symm ▸ hb)

end Sys2Proof.Machine
end

section
/-!
PROOFS of the statement about LAYOUT: its results for every BIT_LEN, and the corner cases of the layout function
(spec/43_layout.md R101, R102).
-/
namespace Sys2Proof.Machine

/-! ### The layout function where its root is known (R101) -/

/-- A root of the pixel count, known by its two bounds, gives the whole layout. -/
theorem layoutFn_eq_of_root {n c m : Nat} (hc : ceilDiv n 32 = c) (hlo : m * m ≤ c) (hhi : c < (m + 1) * (m + 1)) :
    layoutFn n = { pixCount := c, width := m + 1, height := m + 1, padBits := padLength n } := by
  rw [layoutFn, hc, isqrt_unique hlo hhi]

theorem layoutFn_of_one_pixel {n : Nat} (h1 : 1 ≤ n) (h32 : n ≤ 32) :
    layoutFn n = { pixCount := 1, width := 2, height := 2, padBits := padLength n } :=
  layoutFn_eq_of_root (m := 1) (by rw [ceilDiv]; omega) (by decide) (by decide)

theorem layoutFn_width_of_square {m n : Nat} (h : (layoutFn n).pixCount = m * m) : (layoutFn n).width = m + 1 := by
  rw [layoutFn_eq_of_root h le_rfl (Nat.mul_self_lt_mul_self m.lt_succ_self)]

/-- The largest BIT_LEN: the root of 134217728 is 11585. -/
theorem layoutFn_largest :
    layoutFn (2 ^ 32 - 1) = { pixCount := 134217728, width := 11586, height := 11586, padBits := 1 } :=
  layoutFn_eq_of_root (m := 11585) (by decide) (by decide) (by decide)

theorem layoutFn_forty : layoutFn 40 = { pixCount := 2, width := 2, height := 2, padBits := 24 } :=
  layoutFn_eq_of_root (m := 1) (by decide) (by decide) (by decide)

/-! ### LAYOUT (R102) -/

theorem exec_layout (s : State) :
    exec .layout s = .next (completeOk (setResults (layoutFn s.bitLen.toNat) s)) := rfl

theorem isqrt_le_self (n : Nat) : isqrt n ≤ n :=
  (Nat.le_mul_self _).trans (isqrt_bounds n).1

/-- WIDTH takes the width of every bit length that LAYOUT or PACK can have, uncut. -/
theorem layoutFn_width_lt {n : Nat} (hn : n < 2 ^ 35) : (layoutFn n).width < 2 ^ 32 :=
  calc isqrt (ceilDiv n 32) + 1 ≤ ceilDiv n 32 + 1 := Nat.succ_le_succ (isqrt_le_self _)
    _ < 2 ^ 32 := by rw [ceilDiv]; omega

/-- Settles O27: the results fit their registers, so each reads as the layout of BIT_LEN, and the corner cases are roots known
by their bounds. -/
theorem layoutByItsRule : Obligations.LayoutByItsRule := by
  refine ⟨fun s => ?_, fun w => decode_eq_command_iff w .layout, layoutFn_zero,
    fun n h1 h32 => by simp [layoutFn_of_one_pixel h1 h32], fun m n => layoutFn_width_of_square, layoutFn_largest,
    layoutFn_forty⟩
  have hlt : s.bitLen.toNat < 2 ^ 35 := s.bitLen.isLt.trans (by decide)
  obtain ⟨hpix, hpad⟩ := readReg_counters_of_layoutFn
    (t := completeOk (setResults (layoutFn s.bitLen.toNat) s)) hlt rfl rfl
  have hwidth : (completeOk (setResults (layoutFn s.bitLen.toNat) s)).width.toNat =
      isqrt (ceilDiv s.bitLen.toNat 32) + 1 := (BitVec.toNat_ofNat ..).trans (Nat.mod_eq_of_lt (layoutFn_width_lt hlt))
  exact ⟨_, exec_layout s, rfl, hpix, hwidth, rfl, (readReg_padBits_toNat _).symm.trans hpad, rfl, rfl, rfl, hpad,
    fun hinv hrun => hinv.no_error_of_busy hrun.1⟩

end Sys2Proof.Machine
end

section
/-!
PROOFS of the statement about reset: the reset input in either phase, and a completion at the same time
(spec/70_reset_and_hazards.md R124).
-/
namespace Sys2Proof.Machine

theorem step_reset {s : State} {rest : List Action} (h : s.schedule = .reset :: rest) :
    step s = .next (resetBlock { s with schedule := rest }) := step_of_cons h

/-- The schedule, the answers and the draws, which reset keeps, are no part of what a register reads as. -/
@[simp] theorem readReg_resetBlock (s : State) (r : Reg) :
    readReg (resetBlock s) r = readReg (State.resetOn s.platform s.mem) r := by
  cases r <;> rfl

/-- An idle engine has nothing to complete (R123). -/
theorem runCommand_of_idle {s : State} (h : s.engine = .idle) : runCommand s = .next s := by
  simp only [runCommand, h]

/-- Settles O8: the registers read as after power-up with the same platform and memory, and the engine that a completion would
need is idle. -/
theorem resetByItsRule : Obligations.ResetByItsRule := by
  intro s rest h
  obtain ⟨hid, hzero, -, hirq, -⟩ := resetValues s.platform s.mem
  exact ⟨_, step_reset h, (readReg_resetBlock _ _).trans hid, fun r hr => (readReg_resetBlock _ r).trans (hzero r hr),
    rfl, hirq, rfl, rfl, rfl, rfl, runCommand_of_idle rfl⟩

end Sys2Proof.Machine
end

section
/-!
PROOFS of the statements about every step: the next action that a step performs, what no action changes, and the invariant that
every action keeps (spec/10_state.md 5, spec/20_memory.md 5).
-/
namespace Sys2Proof.Machine

/-! ### A step as its next action -/

theorem step_eq_act (s : State) : step s = act s.nextAction { s with schedule := s.schedule.tail } := by
  cases h : s.schedule with
  | nil =>
    have hs : { s with schedule := [] } = s := by rw [← h]
    rw [step_of_nil h, State.nextAction, h, List.tail_nil, hs]
    rfl
  | cons a rest => rw [step_of_cons h, State.nextAction, h, List.tail_cons]

/-! ### What no action changes -/

theorem writeReg_platform (r : Reg) (v : Word) (s : State) : (writeReg r v s).platform = s.platform := by
  cases hb : s.busy <;> cases r <;> simp [writeReg, lockedWrite, hb]

/-- The platform and what the agents have scheduled. -/
def KeepsAgents (s t : State) : Prop := t.platform = s.platform ∧ t.schedule = s.schedule

theorem hostRegWrite_keepsAgents (addr size : Nat) (v : Word) (s : State) :
    KeepsAgents s (hostRegWrite addr size v s) := by
  rcases hostRegWrite_cases addr size v s with ⟨r, -, -, e⟩ | e <;> rw [e]
  · exact ⟨writeReg_platform r v s, (writeReg_frame r v s).2⟩
  · exact ⟨rfl, rfl⟩

theorem hostMemStore_keepsAgents (a : Nat) (v : Byte) (s : State) : KeepsAgents s (hostMemStore a v s) := by
  rcases hostMemStore_cases a v s with ⟨-, e⟩ | ⟨p, r, -, -, -, e⟩ <;> rw [e] <;> exact ⟨rfl, rfl⟩

theorem engineRead_keepsAgents (k : Nat) (s : State) : KeepsAgents s (engineRead k s) := by
  rcases engineRead_cases k s with e | ⟨p, i, r, -, -, -, e⟩ <;> rw [e] <;> exact ⟨rfl, rfl⟩

theorem engineWrite_keepsAgents (k : Nat) (s : State) : KeepsAgents s (engineWrite k s) := by
  rcases engineWrite_cases k s with e | ⟨p, i, r, v, d, -, -, -, -, -, e⟩ <;> rw [e] <;> exact ⟨rfl, rfl⟩

/-- Success or error, raced or not, a command keeps its operands and what no command touches, and ends with DONE = 1. -/
theorem exec_frame {i : Instr} {s t : State} (h : exec i s = .next t) :
    KeepsOperands s t ∧ KeepsSurroundings s t ∧ t.engine = .idle ∧ t.done = true := by
  rcases exec_cases i s with ⟨-, e⟩ | ⟨r, -, -, e⟩ | ⟨r, -, -, e⟩ <;> rw [e] at h <;> cases h <;>
    simp [KeepsOperands, KeepsSurroundings]

/-- The engine's turn: nothing while idle, else the decoded command or the error of an illegal word. -/
theorem runCommand_cases (s : State) :
    (s.engine = .idle ∧ runCommand s = .next s) ∨ (∃ i, Running i s ∧ runCommand s = exec i s) ∨
      ∃ why, s.busy = true ∧ decode s.cmd = .illegal why ∧ runCommand s = .next (raiseError .illegalCmd s) := by
  cases hb : s.busy with
  | false => exact .inl ⟨idle_iff.1 hb, runCommand_of_idle (idle_iff.1 hb)⟩
  | true =>
    cases hd : decode s.cmd with
    | command i =>
      have hrun : Running i s := ⟨hb, (decode_eq_command_iff s.cmd i).1 hd⟩
      exact .inr (.inl ⟨i, hrun, runCommand_of_running hrun⟩)
    | illegal why => exact .inr (.inr ⟨why, rfl, rfl, runCommand_of_illegal hb hd⟩)

theorem runCommand_keepsAgents {s t : State} (h : runCommand s = .next t) : KeepsAgents s t := by
  rcases runCommand_cases s with ⟨-, e⟩ | ⟨i, -, e⟩ | ⟨why, -, -, e⟩ <;> rw [e] at h
  · cases h; exact ⟨rfl, rfl⟩
  · obtain ⟨-, ⟨-, -, hp, hs, -⟩, -⟩ := exec_frame h
    exact ⟨hp, hs⟩
  · cases h; exact ⟨rfl, rfl⟩

theorem act_keepsAgents {a : Action} {s t : State} (h : act a s = .next t) : KeepsAgents s t := by
  cases a with
  | regRead addr size => cases h; exact ⟨rfl, rfl⟩
  | regWrite addr size v => cases h; exact hostRegWrite_keepsAgents addr size v s
  | memRead a => obtain ⟨-, rfl⟩ := hostMemAccess_eq_next.1 h; exact ⟨hostMemLoad_platform a s, hostMemLoad_schedule a s⟩
  | memWrite a v => obtain ⟨-, rfl⟩ := hostMemAccess_eq_next.1 h; exact hostMemStore_keepsAgents a v s
  | reset => cases h; exact ⟨rfl, rfl⟩
  | engineRead k => cases h; exact engineRead_keepsAgents k s
  | engineWrite k => cases h; exact engineWrite_keepsAgents k s
  | engineFinish => exact runCommand_keepsAgents h

/-! ### The invariant under changes the engine's progress does not see -/

theorem State.Inv.with_agents {s : State} (h : s.Inv) (l : List Action) (a : List Answer) (d : Nat) :
    State.Inv { s with schedule := l, answers := a, draws := d } :=
  ⟨h.platform, h.memWf, h.memInside, h.busyFlags, h.errCode, h.progress⟩

theorem State.Inv.with_schedule {s : State} (h : s.Inv) (l : List Action) : State.Inv { s with schedule := l } :=
  h.with_agents l s.answers s.draws

theorem State.Inv.with_flags {s : State} (h : s.Inv) {q d e w : Bool} {c : ErrCode}
    (hb : s.busy = true → d = false ∧ e = false) (he : e = false ↔ c = .noError) :
    State.Inv { s with irqEn := q, done := d, err := e, errCode := c, wign := w } :=
  ⟨h.platform, h.memWf, h.memInside, hb, he, h.progress⟩

theorem State.Inv.with_operands_of_idle {s : State} (h : s.Inv) (hi : s.engine = .idle) (a l d b w g : Word) :
    State.Inv { s with srcAddr := a, srcLen := l, dstAddr := d, bitLen := b, width := w, height := g } :=
  inv_of_no_progress h.platform h.memWf h.memInside h.busyFlags h.errCode (.inl hi)

theorem writeStatus_keeps_inv {s : State} (h : s.Inv) (v : Word) : (writeStatus v s).Inv := by
  refine h.with_flags (fun hb => ?_) ?_
  · obtain ⟨hd, he⟩ := h.busyFlags hb
    simp [hd, he]
  · have he := h.errCode
    cases v.getLsbD 2 <;> simp [he]

theorem acceptCommand_keeps_inv {s : State} (h : s.Inv) (v : Word) : (acceptCommand v s).Inv :=
  inv_of_no_progress h.platform h.memWf h.memInside (fun _ => ⟨rfl, rfl⟩) ⟨fun _ => rfl, fun _ => rfl⟩ (.inr rfl)

theorem resetBlock_keeps_inv {s : State} (h : s.Inv) : (resetBlock s).Inv :=
  inv_of_no_progress h.platform h.memWf h.memInside (fun hb => nomatch hb) ⟨fun _ => rfl, fun _ => rfl⟩ (.inl rfl)

theorem writeReg_keeps_inv {s : State} (h : s.Inv) (r : Reg) (v : Word) : (writeReg r v s).Inv := by
  cases hb : s.busy with
  | true =>
    rcases writeReg_of_busy hb r v with e | e | e | e <;> rw [e]
    · exact h
    · exact h.with_flags h.busyFlags h.errCode
    · exact writeStatus_keeps_inv h v
    · exact h.with_flags h.busyFlags h.errCode
  | false =>
    have hi := idle_iff.1 hb
    cases r <;> simp only [writeReg, lockedWrite_of_idle hb]
    case ctrl => exact h.with_flags h.busyFlags h.errCode
    case status => exact writeStatus_keeps_inv h v
    case cmd => exact acceptCommand_keeps_inv h v
    case id | pixCount | padBits => exact h
    all_goals exact h.with_operands_of_idle hi ..

theorem hostRegWrite_keeps_inv {s : State} (h : s.Inv) (addr size : Nat) (v : Word) : (hostRegWrite addr size v s).Inv := by
  rcases hostRegWrite_cases addr size v s with ⟨r, -, -, e⟩ | e <;> rw [e]
  · exact writeReg_keeps_inv h r v
  · exact h

theorem hostMemLoad_keeps_inv {s : State} (h : s.Inv) (a : Nat) : (hostMemLoad a s).Inv := by
  rw [hostMemLoad_frame]
  exact h.with_agents ..

/-! ### The command in flight, from one state to another -/

/-- The phase, the platform and every register but CTRL and STATUS are as before: the same command is in flight, if any is. -/
structure SameCommand (s t : State) : Prop where
  busy : t.busy = s.busy
  platform : t.platform = s.platform
  registers : KeepsRegisters s t

theorem SameCommand.runningCommand {s t : State} (h : SameCommand s t) : runningCommand t = runningCommand s := by
  obtain ⟨⟨hcmd, -⟩, -⟩ := h.registers
  have hb := h.busy
  cases hs : s.engine <;> cases ht : t.engine <;> simp_all [State.busy, Machine.runningCommand]

theorem SameCommand.commandRegions {s t : State} (h : SameCommand s t) (i : Instr) :
    commandRegions i t = commandRegions i s := by
  obtain ⟨⟨-, hsrc, hlen, hdst, -⟩, hw, hh, -⟩ := h.registers
  exact commandRegions_congr i hsrc hlen hdst hw hh

theorem SameCommand.runningRegions {s t : State} (h : SameCommand s t) : runningRegions t = runningRegions s := by
  simp only [Machine.runningRegions, h.runningCommand, h.commandRegions]

theorem SameCommand.inRunningRegions {s t : State} (h : SameCommand s t) (a : Nat) :
    inRunningRegions a t = inRunningRegions a s := by
  simp only [Machine.inRunningRegions, h.runningRegions]

theorem SameCommand.activeTransfer {s t : State} (h : SameCommand s t) : activeTransfer t = activeTransfer s := by
  simp only [Machine.activeTransfer, h.runningCommand, h.commandRegions, h.platform]

theorem SameCommand.running {s t : State} (h : SameCommand s t) {i : Instr} (hrun : Running i s) : Running i t := by
  obtain ⟨⟨hcmd, -⟩, -⟩ := h.registers
  exact ⟨h.busy.trans hrun.1, hcmd.trans hrun.2⟩

/-- Memory, progress, flags and the agents' lists are no part of the command in flight. -/
theorem sameCommand_of_engine {s t : State} {p q : Progress} (hs : s.engine = .busy p) (ht : t.engine = .busy q)
    (hp : t.platform = s.platform) (hr : KeepsRegisters s t) : SameCommand s t :=
  ⟨(busy_of_engine_busy ht).trans (busy_of_engine_busy hs).symm, hp, hr⟩

theorem runningRegions_of_activeTransfer {s : State} {i : Instr} {r : Regions} (h : activeTransfer s = some (i, r)) :
    runningRegions s = some r := by
  obtain ⟨hi, hr, -⟩ := activeTransfer_eq_some.1 h
  simp [runningRegions, hi, hr]

/-! ### The engine's progress under writes to memory -/

/-- The progress of a command stays one it can have made as long as an unraced command finds its source bytes and the bytes it
has written as they were. -/
theorem ProgressOk.of_same_bytes {s t : State} {p q : Progress} (h : ProgressOk s p) (hst : SameCommand s t)
    (hread : q.read = p.read) (hwritten : q.written = p.written) (hraced : q.raced = false → p.raced = false)
    (hm : ∀ i r, activeTransfer s = some (i, r) → q.raced = false →
      (∀ k, k < r.src.len → memRead t.mem (r.src.start + k) = memRead s.mem (r.src.start + k)) ∧
      ∀ k ∈ p.written, memRead t.mem (r.dst.start + k) = memRead s.mem (r.dst.start + k)) : ProgressOk t q := by
  have ht := hst.activeTransfer
  cases ha : activeTransfer s with
  | none =>
    obtain ⟨hr0, hw0⟩ := (progressOk_none ha).1 h
    exact (progressOk_none (ht.trans ha)).2 ⟨hread.trans hr0, hwritten.trans hw0⟩
  | some x =>
    obtain ⟨i, r⟩ := x
    obtain ⟨h1, h2, h3, h4, h5⟩ := (progressOk_some ha).1 h
    obtain ⟨-, hr, -⟩ := activeTransfer_eq_some.1 ha
    rw [progressOk_some (ht.trans ha), hread, hwritten]
    refine ⟨h1, h2, h3, h4, fun hq k hk => ?_⟩
    obtain ⟨hsrc, hdst⟩ := hm i r ha hq
    rw [finalBytes_congr hr ((hst.commandRegions i).trans hr) hsrc (h4 k hk).1, ← h5 (hraced hq) k hk]
    exact hdst k hk

/-- A write to an address outside both regions of the command in flight leaves the bytes its progress is about. -/
theorem State.Inv.with_mem_outside {s : State} (h : s.Inv) {a : Nat} (v : Byte) (ha : a < s.platform.memSize)
    (hout : inRunningRegions a s = false) : State.Inv { s with mem := memWrite s.mem a v } := by
  refine ⟨h.platform, memWrite_wf a v h.memWf, memWrite_inside v h.memInside ha, h.busyFlags, h.errCode, fun p hp => ?_⟩
  refine (h.progress p hp).of_same_bytes ⟨rfl, rfl, .refl s⟩ rfl rfl id fun i r hact _ => ?_
  obtain ⟨-, -, hc⟩ := activeTransfer_eq_some.1 hact
  obtain ⟨-, -, -, hw, -⟩ := (progressOk_some hact).1 (h.progress p hp)
  have hne : r.src.holds a = false ∧ r.dst.holds a = false := by
    simpa [inRunningRegions, runningRegions_of_activeTransfer hact] using hout
  simp only [Region.holds, Bool.and_eq_false_iff, decide_eq_false_iff_not] at hne
  refine ⟨fun k hk => memRead_memWrite_of_ne h.memWf v ?_, fun k hk => memRead_memWrite_of_ne h.memWf v ?_⟩
  · omega
  · have := (hw k hk).1
    omega

/-- The bytes that a command has written so far exist. -/
theorem drawnCells_inside {s : State} (h : s.Inv) {p : Progress} {r : Regions} (hp : s.engine = .busy p)
    (hr : runningRegions s = some r) (d : Nat) : ∀ c ∈ drawnCells r.dst.start d p.written, c.1 < s.platform.memSize := by
  intro c hc
  have hmem : c.1 ∈ p.written.map (r.dst.start + ·) := drawnCells_addresses r.dst.start d p.written ▸ List.mem_map_of_mem hc
  obtain ⟨k, hk, e⟩ := List.mem_map.1 hmem
  cases hact : activeTransfer s with
  | none =>
    obtain ⟨-, hw⟩ := (progressOk_none hact).1 (h.progress p hp)
    simp [hw] at hk
  | some x =>
    obtain ⟨i, q⟩ := x
    obtain rfl : q = r := Option.some.inj ((runningRegions_of_activeTransfer hact).symm.trans hr)
    obtain ⟨-, -, -, hw, -⟩ := (progressOk_some hact).1 (h.progress p hp)
    obtain ⟨-, -, hc⟩ := activeTransfer_eq_some.1 hact
    have hlt := (hw k hk).1
    have hin := dst_in_memory hc
    omega

theorem hostMemStore_keeps_inv {s : State} (h : s.Inv) {a : Nat} (v : Byte) (ha : a < s.platform.memSize) :
    (hostMemStore a v s).Inv := by
  rcases hostMemStore_cases a v s with ⟨hout, e⟩ | ⟨p, r, hp, hr, -, e⟩ <;> rw [e]
  · exact h.with_mem_outside v ha hout
  · refine ⟨h.platform, memWriteAll_wf _ (memWrite_wf a v h.memWf),
      memWriteAll_inside (memWrite_inside v h.memInside ha) (drawnCells_inside h hp hr _),
      fun _ => h.busyFlags (busy_of_engine_busy hp), h.errCode, fun q hq => ?_⟩
    obtain rfl := Engine.busy.inj hq
    exact (h.progress p hp).of_same_bytes (sameCommand_of_engine hp rfl rfl (.refl s)) rfl rfl (fun hf => nomatch hf)
      fun _ _ _ hf => nomatch hf

theorem engineRead_keeps_inv {s : State} (h : s.Inv) (k : Nat) : (engineRead k s).Inv := by
  rcases engineRead_cases k s with e | ⟨p, i, r, hp, ha, hk, e⟩ <;> rw [e]
  · exact h
  · refine ⟨h.platform, h.memWf, h.memInside, fun _ => h.busyFlags (busy_of_engine_busy hp), h.errCode, fun q hq => ?_⟩
    obtain rfl := Engine.busy.inj hq
    obtain ⟨h1, h2, h3, h4, h5⟩ := (progressOk_some ha).1 (h.progress p hp)
    have hst : SameCommand s { s with engine := .busy { p with read := insertOffset k p.read } } :=
      sameCommand_of_engine hp rfl rfl (.refl s)
    refine (progressOk_some (hst.activeTransfer.trans ha)).2 ⟨insertOffset_rising k h1, h2, fun j hj => ?_,
      fun j hj => ⟨(h4 j hj).1, fun hlt => mem_insertOffset.2 (.inr ((h4 j hj).2 hlt))⟩, ?_⟩
    · rcases mem_insertOffset.1 hj with rfl | hj
      · exact hk
      · exact h3 j hj
    · exact h5

/-- The byte that an engine write stores lies outside the source, so the final values are as before. -/
theorem engineWrite_keeps_inv {s : State} (h : s.Inv) (k : Nat) : (engineWrite k s).Inv := by
  rcases engineWrite_cases k s with e | ⟨p, i, r, v, d, hp, ha, hk, hv, -, e⟩ <;> rw [e]
  · exact h
  · obtain ⟨-, hr, hc⟩ := activeTransfer_eq_some.1 ha
    obtain ⟨hlt, -, hsrc⟩ := mayWrite_iff.1 hk
    have hin : r.dst.start + k < s.platform.memSize := by
      have := dst_in_memory hc
      omega
    refine ⟨h.platform, memWrite_wf _ v h.memWf, memWrite_inside v h.memInside hin,
      fun _ => h.busyFlags (busy_of_engine_busy hp), h.errCode, fun q hq => ?_⟩
    obtain rfl := Engine.busy.inj hq
    obtain ⟨h1, h2, h3, h4, h5⟩ := (progressOk_some ha).1 (h.progress p hp)
    have hst : SameCommand s { s with mem := memWrite s.mem (r.dst.start + k) v, draws := d,
                                      engine := .busy { p with written := insertOffset k p.written } } :=
      sameCommand_of_engine hp rfl rfl (.refl s)
    have hfinal := fun j => finalBytes_congr (k := j) hr ((hst.commandRegions i).trans hr) fun j hj =>
      memRead_memWrite_of_ne h.memWf v (regions_disjoint hc hj hlt)
    have hbound : ∀ j ∈ insertOffset k p.written, j < r.dst.len ∧ (j < r.src.len → j ∈ p.read) := fun j hj => by
      rcases mem_insertOffset.1 hj with rfl | hj
      · exact ⟨hlt, hsrc⟩
      · exact h4 j hj
    refine (progressOk_some (hst.activeTransfer.trans ha)).2 ⟨h1, insertOffset_rising k h2, h3, hbound, fun hq j hj => ?_⟩
    rw [hfinal j (hbound j hj).1, memRead_memWrite h.memWf]
    split
    next e =>
      obtain rfl := Nat.add_left_cancel e
      exact (hv hq).1
    next hne =>
      rcases mem_insertOffset.1 hj with rfl | hj
      · exact absurd rfl hne
      · exact h5 hq j hj

/-! ### Completion and the invariant -/

theorem exec_keeps_inv {i : Instr} {s t : State} (h : s.Inv) (he : exec i s = .next t) : t.Inv := by
  rcases exec_cases i s with ⟨-, e⟩ | ⟨r, -, hc, e⟩ | ⟨r, -, hc, e⟩ <;> rw [e] at he <;> cases he
  · exact inv_of_no_progress (by simpa using h.platform) (by simpa using h.memWf) (by simpa using h.memInside)
      (fun hb => nomatch hb) (by simpa using h.errCode) (.inl rfl)
  · exact inv_of_no_progress (by simpa using h.platform) (by simpa using writeRemaining_wf h.memWf)
      (by simpa using writeRemaining_inside h.memInside (dst_in_memory hc)) (fun hb => nomatch hb)
      (by simpa using h.errCode) (.inl rfl)
  · exact inv_of_no_progress h.platform h.memWf h.memInside (fun hb => nomatch hb) (by simpa using hc) (.inl rfl)

theorem runCommand_keeps_inv {s t : State} (h : s.Inv) (he : runCommand s = .next t) : t.Inv := by
  rcases runCommand_cases s with ⟨-, e⟩ | ⟨i, -, e⟩ | ⟨why, -, -, e⟩ <;> rw [e] at he
  · cases he; exact h
  · exact exec_keeps_inv h he
  · cases he
    exact inv_of_no_progress h.platform h.memWf h.memInside (fun hb => nomatch hb) (by simp) (.inl rfl)

theorem act_keeps_inv {a : Action} {s t : State} (h : s.Inv) (he : act a s = .next t) : t.Inv := by
  cases a with
  | regRead addr size => cases he; exact h.with_agents ..
  | regWrite addr size v => cases he; exact hostRegWrite_keeps_inv h addr size v
  | memRead a => obtain ⟨-, rfl⟩ := hostMemAccess_eq_next.1 he; exact hostMemLoad_keeps_inv h a
  | memWrite a v => obtain ⟨ha, rfl⟩ := hostMemAccess_eq_next.1 he; exact hostMemStore_keeps_inv h v ha
  | reset => cases he; exact resetBlock_keeps_inv h
  | engineRead k => cases he; exact engineRead_keeps_inv h k
  | engineWrite k => cases he; exact engineWrite_keeps_inv h k
  | engineFinish => exact runCommand_keeps_inv h he

/-- Settles O7: every action keeps the invariant, and none touches the platform. -/
theorem stepKeepsTheInvariant : Obligations.StepKeepsTheInvariant := by
  intro s t h hstep
  rw [step_eq_act] at hstep
  obtain ⟨hplatform, -⟩ := act_keepsAgents hstep
  exact ⟨act_keeps_inv (h.with_schedule _) hstep, hplatform⟩

theorem resetOn_inv {p : Platform} {m : List Host.Cell} (hp : p.WellFormed = true) (hm : Memory.wf m = true)
    (hin : ∀ c ∈ m, c.1 < p.memSize) : (State.resetOn p m).Inv :=
  inv_of_no_progress hp hm hin (fun hb => nomatch hb) ⟨fun _ => rfl, fun _ => rfl⟩ (.inl rfl)

/-- Settles O6: an idle engine has made no progress. -/
theorem resetMeetsTheInvariant : Obligations.ResetMeetsTheInvariant :=
  ⟨fun _ _ => resetOn_inv, resetOn_inv (by decide) empty_memory_wf (fun _ hc => nomatch hc)⟩

end Sys2Proof.Machine
end

section
/-!
PROOFS of the statements about the register port and the flags: the register map, irregular accesses, the fields of STATUS, the
completion as the host sees it, and the events that change a flag (spec/10_state.md 2, 3, 5, spec/60_exceptions.md 2).
-/
namespace Sys2Proof.Machine

/-! ### The words of the decode table -/

/-- Settles O2: each word is decoded. -/
theorem tableWordsDecode : Obligations.TableWordsDecode :=
  ⟨by decide, by decide, by decide, by decide, by decide, by decide, by decide⟩

/-! ### The register map (R22) and irregular accesses (R37) -/

theorem offset_of_mem_map {r : Reg} {off : Nat}
    (h : (r, off) ∈ [(Reg.id, 0x00), (.ctrl, 0x04), (.status, 0x08), (.cmd, 0x0C), (.srcAddr, 0x10), (.srcLen, 0x14),
      (.dstAddr, 0x18), (.bitLen, 0x1C), (.width, 0x20), (.height, 0x24), (.pixCount, 0x28), (.padBits, 0x2C)]) :
    off = r.offset := by
  cases r <;> simpa [Reg.offset] using h

/-- Settles O15: the offsets of the map are those of `RD` and `WR`. -/
theorem registerReadsHaveNoSideEffect : Obligations.RegisterReadsHaveNoSideEffect := by
  intro s r off hoff
  obtain rfl := offset_of_mem_map hoff
  exact ⟨rfl, fun v => rfl, fun rest h => step_rd h, fun rest v h => step_wr h⟩

theorem portAccess_of_irregular {p : Platform} {addr size : Nat} (h0 : 0 < size) (h1 : addr < p.regBase + 0x40)
    (h2 : p.regBase < addr + size) (h : size ≠ 4 ∨ addr < p.regBase ∨ (addr - p.regBase) % 4 ≠ 0) :
    portAccess p addr size = .irregular (min (addr + size) (p.regBase + 0x40) - max addr p.regBase) := by
  rw [portAccess, if_pos ⟨h0, h1, h2⟩, if_neg (by omega)]

/-- Settles O14: such an access reaches no offset, so a write does nothing and a read answers zeros. -/
theorem irregularAccessesHaveNoEffect : Obligations.IrregularAccessesHaveNoEffect := by
  intro s addr size v rest h0 h1 h2 hirr
  have hacc := portAccess_of_irregular h0 h1 h2 hirr
  constructor
  · intro h
    rw [step_regWrite h]
    simp only [hostRegWrite, hacc]
  · intro h
    rw [step_regRead h]
    simp only [hostRegRead, portAnswer, hacc]

/-! ### The fields of STATUS (R25, R108) -/

theorem statusWord_flags (s : State) :
    (statusWord s).getLsbD 0 = s.busy ∧ (statusWord s).getLsbD 1 = s.done ∧ (statusWord s).getLsbD 2 = s.err ∧
      (statusWord s).getLsbD 3 = s.wign :=
  ⟨BitVec.getLsbD_concat_zero, statusWord_getLsbD_one s,
    BitVec.getLsbD_concat_succ.trans (BitVec.getLsbD_concat_succ.trans BitVec.getLsbD_concat_zero),
    BitVec.getLsbD_concat_succ.trans
      (BitVec.getLsbD_concat_succ.trans (BitVec.getLsbD_concat_succ.trans BitVec.getLsbD_concat_zero))⟩

/-- Above its four flags STATUS holds the error code between two reserved fields. -/
theorem statusWord_extractLsb'_add_four (s : State) (i l : Nat) :
    (statusWord s).extractLsb' (i + 4) l = (0#20 ++ s.errCode.number ++ 0#4).extractLsb' i l :=
  calc (statusWord s).extractLsb' (i + 4) l
      = _ := BitVec.extractLsb'_append_eq_of_le (Nat.le_add_left 1 (i + 3))
    _ = _ := BitVec.extractLsb'_append_eq_of_le (Nat.le_add_left 1 (i + 2))
    _ = _ := BitVec.extractLsb'_append_eq_of_le (Nat.le_add_left 1 (i + 1))
    _ = _ := BitVec.extractLsb'_append_eq_of_le (Nat.le_add_left 1 i)

theorem statusWord_fields (s : State) :
    (statusWord s).extractLsb' 4 4 = 0#4 ∧ (statusWord s).extractLsb' 8 4 = s.errCode.number ∧
      (statusWord s).extractLsb' 12 20 = 0#20 := by
  refine ⟨(statusWord_extractLsb'_add_four s 0 4).trans ?_, (statusWord_extractLsb'_add_four s 4 4).trans ?_,
    (statusWord_extractLsb'_add_four s 8 20).trans ?_⟩
  · exact BitVec.extractLsb'_append_eq_right
  · exact (BitVec.extractLsb'_append_eq_of_le (le_refl 4)).trans BitVec.extractLsb'_append_eq_right
  · exact (BitVec.extractLsb'_append_eq_of_le (by decide)).trans BitVec.extractLsb'_append_eq_left

theorem errCode_number_le (c : ErrCode) : c.number ≤ 4#4 := by cases c <;> decide

/-- Settles O16: the flags are bits of STATUS and the error code a field of it. -/
theorem statusFields : Obligations.StatusFields := by
  refine ⟨⟨rfl, rfl, rfl, rfl, rfl⟩, fun s => ?_⟩
  obtain ⟨h0, h1, h2, h3⟩ := statusWord_flags s
  obtain ⟨h4, h8, h12⟩ := statusWord_fields s
  exact ⟨h0, h1, h2, h3, h4, h8, h12, errCode_number_le s.errCode⟩

/-! ### The engine's turn with a command in flight (R74 to R77, R115) -/

/-- Settles O4: with the engine's turn, at the end of the schedule or in it, the command in flight is executed. -/
theorem stepRunsTheDecodedCommand : Obligations.StepRunsTheDecodedCommand := by
  intro s i hb hd
  have hrun : Running i s := ⟨hb, (decode_eq_command_iff s.cmd i).1 hd⟩
  exact ⟨fun h => (step_of_nil h).trans (runCommand_of_running hrun), fun rest h =>
    (step_engineFinish h).trans (runCommand_of_running (s := { s with schedule := rest }) hrun)⟩

/-- The engine's turn always answers, and with a command in flight, illegal or not, it completes it. -/
theorem runCommand_completes {s : State} (hb : s.busy = true) :
    ∃ t, runCommand s = .next t ∧ KeepsSurroundings s t ∧ t.engine = .idle ∧ t.done = true := by
  rcases runCommand_cases s with ⟨hi, -⟩ | ⟨i, -, e⟩ | ⟨why, -, -, e⟩
  · simp [busy_of_engine_idle hi] at hb
  · obtain ⟨t, ht⟩ : ∃ t, exec i s = .next t := by
      rcases exec_cases i s with ⟨-, h⟩ | ⟨r, -, -, h⟩ | ⟨r, -, -, h⟩ <;> exact ⟨_, h⟩
    obtain ⟨-, hk, hidle, hdone⟩ := exec_frame ht
    exact ⟨t, e.trans ht, hk, hidle, hdone⟩
  · exact ⟨_, e, ⟨rfl, rfl, rfl, rfl, rfl⟩, rfl, rfl⟩

/-- Settles O18: DONE is 0 while BUSY, and the completion sets it and leaves IRQ_EN. -/
theorem completionRaisesIrq : Obligations.CompletionRaisesIrq := by
  intro s t hinv hb hen h
  obtain ⟨hdone, -⟩ := hinv.busyFlags hb
  obtain ⟨u, hu, ⟨hen', -⟩, -, hdone'⟩ := runCommand_completes hb
  obtain rfl : u = t := Host.Outcome.next.inj (hu.symm.trans h)
  simp [State.irq, hdone, hdone', hen, hen']

/-- Settles O25: nothing scheduled is the engine's turn. -/
theorem completionEndsTheCommand : Obligations.CompletionEndsTheCommand := by
  intro s hb hs
  obtain ⟨t, ht, -, hidle, hdone⟩ := runCommand_completes hb
  have hb' := busy_of_engine_idle hidle
  obtain ⟨h0, h1, -⟩ := statusWord_flags t
  exact ⟨t, (step_of_nil hs).trans ht, hb', hdone, h0.trans hb', h1.trans hdone⟩

/-! ### The events that change a flag (R41) -/

/-- BUSY, DONE, ERR and WIGN are as before. -/
def KeepsFlags (s t : State) : Prop := t.busy = s.busy ∧ t.done = s.done ∧ t.err = s.err ∧ t.wign = s.wign

theorem KeepsFlags.refl (s : State) : KeepsFlags s s := ⟨rfl, rfl, rfl, rfl⟩

/-- What a register write does to the flags: nothing, or it is an acceptance, a write of STATUS, or a locked write. -/
theorem writeReg_flags_cases (r : Reg) (v : Word) (s : State) :
    KeepsFlags s (writeReg r v s) ∨ (r = .cmd ∧ s.busy = false ∧ writeReg r v s = acceptCommand v s) ∨
      (r = .status ∧ writeReg r v s = writeStatus v s) ∨
      (r ∈ lockedRegs ∧ s.busy = true ∧ writeReg r v s = { s with wign := true }) := by
  by_cases hr : r ∈ lockedRegs
  · cases hb : s.busy with
    | true => exact .inr (.inr (.inr ⟨hr, rfl, writeReg_locked_of_busy v hr hb⟩))
    | false =>
      by_cases hc : r = .cmd
      · subst hc
        exact .inr (.inl ⟨rfl, rfl, writeReg_cmd_of_idle v hb⟩)
      · left
        cases r <;> simp [writeReg, lockedWrite_of_idle hb] at hr hc ⊢ <;> exact .refl s
  · cases r <;> simp at hr
    case status => exact .inr (.inr (.inl ⟨rfl, rfl⟩))
    all_goals exact .inl (.refl s)

theorem engineRead_keepsFlags (k : Nat) (s : State) : KeepsFlags s (engineRead k s) := by
  rcases engineRead_cases k s with e | ⟨p, i, r, hp, -, -, e⟩ <;> rw [e]
  · exact .refl s
  · exact ⟨(busy_of_engine_busy hp).symm, rfl, rfl, rfl⟩

theorem engineWrite_keepsFlags (k : Nat) (s : State) : KeepsFlags s (engineWrite k s) := by
  rcases engineWrite_cases k s with e | ⟨p, i, r, v, d, hp, -, -, -, -, e⟩ <;> rw [e]
  · exact .refl s
  · exact ⟨(busy_of_engine_busy hp).symm, rfl, rfl, rfl⟩

theorem hostMemStore_keepsFlags (a : Nat) (v : Byte) (s : State) : KeepsFlags s (hostMemStore a v s) := by
  rcases hostMemStore_cases a v s with ⟨-, e⟩ | ⟨p, r, hp, -, -, e⟩ <;> rw [e]
  · exact .refl s
  · exact ⟨(busy_of_engine_busy hp).symm, rfl, rfl, rfl⟩

theorem hostMemLoad_keepsFlags (a : Nat) (s : State) : KeepsFlags s (hostMemLoad a s) := by
  rw [hostMemLoad_frame]
  exact .refl s

/-- A completion ends the phase, sets DONE, leaves WIGN and clears no error. -/
theorem runCommand_flags {s t : State} (hb : s.busy = true) (h : runCommand s = .next t) :
    t.busy = false ∧ t.done = true ∧ t.wign = s.wign ∧ (s.err = true → t.err = true) := by
  obtain ⟨u, hu, ⟨-, hw, -⟩, hidle, hdone⟩ := runCommand_completes hb
  obtain rfl : u = t := Host.Outcome.next.inj (hu.symm.trans h)
  refine ⟨busy_of_engine_idle hidle, hdone, hw, fun he => ?_⟩
  rcases runCommand_cases s with ⟨-, e⟩ | ⟨i, -, e⟩ | ⟨why, -, -, e⟩ <;> rw [e] at h
  · cases h; exact he
  · rcases exec_cases i s with ⟨-, e'⟩ | ⟨r, -, -, e'⟩ | ⟨r, -, -, e'⟩ <;> rw [e'] at h <;> cases h <;> simp [he]
  · cases h; rfl

/-- Everything that can happen to the flags in one step. -/
theorem step_flags_cases {s t : State} (h : step s = .next t) :
    KeepsFlags s t ∨
    (s.nextAction = .reset ∧ t.busy = false ∧ t.done = false ∧ t.err = false ∧ t.wign = false) ∨
    (s.nextAction = .engineFinish ∧ s.busy = true ∧ t.busy = false ∧ t.done = true ∧ t.wign = s.wign ∧
      (s.err = true → t.err = true)) ∨
    (∃ v, s.nextAction = wr s.platform .cmd v ∧ s.busy = false ∧ t.busy = true ∧ t.done = false ∧ t.err = false ∧
      t.wign = s.wign) ∨
    (∃ v, s.nextAction = wr s.platform .status v ∧ t.busy = s.busy ∧ t.done = (s.done && !v.getLsbD 1) ∧
      t.err = (s.err && !v.getLsbD 2) ∧ t.wign = (s.wign && !v.getLsbD 3)) ∨
    (∃ v, ∃ r ∈ lockedRegs, s.nextAction = wr s.platform r v ∧ s.busy = true ∧ t.busy = true ∧ t.done = s.done ∧
      t.err = s.err ∧ t.wign = true) := by
  rw [step_eq_act] at h
  cases ha : s.nextAction with
  | regRead addr size => rw [ha] at h; cases h; exact .inl (.refl _)
  | regWrite addr size v =>
    rw [ha] at h; cases h
    rcases hostRegWrite_cases addr size v { s with schedule := s.schedule.tail } with ⟨r, rfl, rfl, e⟩ | e <;> rw [e]
    · rcases writeReg_flags_cases r v { s with schedule := s.schedule.tail } with
        hk | ⟨rfl, hb, e'⟩ | ⟨rfl, e'⟩ | ⟨hr, hb, e'⟩
      · exact .inl hk
      · rw [e']; exact .inr (.inr (.inr (.inl ⟨v, rfl, hb, rfl, rfl, rfl, rfl⟩)))
      · rw [e']; exact .inr (.inr (.inr (.inr (.inl ⟨v, rfl, rfl, rfl, rfl, rfl⟩))))
      · rw [e']; exact .inr (.inr (.inr (.inr (.inr ⟨v, r, hr, rfl, hb, hb, rfl, rfl, rfl⟩))))
    · exact .inl (.refl _)
  | memRead a => rw [ha] at h; obtain ⟨-, rfl⟩ := hostMemAccess_eq_next.1 h; exact .inl (hostMemLoad_keepsFlags a _)
  | memWrite a v => rw [ha] at h; obtain ⟨-, rfl⟩ := hostMemAccess_eq_next.1 h; exact .inl (hostMemStore_keepsFlags a v _)
  | reset => rw [ha] at h; cases h; exact .inr (.inl ⟨rfl, rfl, rfl, rfl, rfl⟩)
  | engineRead k => rw [ha] at h; cases h; exact .inl (engineRead_keepsFlags k _)
  | engineWrite k => rw [ha] at h; cases h; exact .inl (engineWrite_keepsFlags k _)
  | engineFinish =>
    rw [ha] at h
    cases hb : s.busy with
    | true => exact .inr (.inr (.inl ⟨rfl, rfl, runCommand_flags (s := { s with schedule := s.schedule.tail }) hb h⟩))
    | false =>
      rw [act, runCommand_of_idle (s := { s with schedule := s.schedule.tail }) (idle_iff.1 hb)] at h
      cases h
      exact .inl (.refl _)

/-- Settles O19: in each of the six cases, each flag that changed names its event. -/
theorem onlyTheseEventsChangeFlags : Obligations.OnlyTheseEventsChangeFlags := by
  intro s t h
  rcases step_flags_cases h with ⟨hb, hd, he, hw⟩ | ⟨ha, hb, hd, he, hw⟩ | ⟨ha, hb, hb', hd, hw, he⟩ |
    ⟨v, ha, hb, hb', hd, he, hw⟩ | ⟨v, ha, hb, hd, he, hw⟩ | ⟨v, r, hr, ha, hb, hb', hd, he, hw⟩
  · simp_all
  · simp_all
  · simp_all
  · exact ⟨fun _ _ => ⟨v, ha⟩, by simp [hb], by simp [hd], fun _ _ => .inr (.inl ⟨v, ha⟩), by simp [he],
      fun _ _ => .inr (.inl ⟨v, ha⟩), by simp +contextual [hw], by simp +contextual [hw]⟩
  · refine ⟨by simp +contextual [hb], by simp +contextual [hb], by simp +contextual [hd],
      fun h1 h2 => .inr (.inr ⟨v, ha, ?_⟩), by simp +contextual [he], fun h1 h2 => .inr (.inr ⟨v, ha, ?_⟩),
      by simp +contextual [hw], fun h1 h2 => .inr ⟨v, ha, ?_⟩⟩
    · simpa [hd, h1] using h2
    · simpa [he, h1] using h2
    · simpa [hw, h1] using h2
  · exact ⟨by simp [hb], by simp [hb'], by simp +contextual [hd], by simp +contextual [hd], by simp +contextual [he],
      by simp +contextual [he], fun _ _ => ⟨hb, v, r, hr, ha⟩, by simp [hw]⟩

/-- Settles O20: of the six cases only a write of STATUS can clear DONE and leave ERR set. -/
theorem errKeepsDoneUntilAcknowledged : Obligations.ErrKeepsDoneUntilAcknowledged := by
  intro s t himp h herr hdone
  rcases step_flags_cases h with ⟨-, hd, he, -⟩ | ⟨-, -, -, he, -⟩ | ⟨-, -, -, hd, -⟩ | ⟨v, -, -, -, -, he, -⟩ |
    ⟨v, ha, -, hd, he, -⟩ | ⟨v, r, -, -, -, -, hd, he, -⟩
  · simp_all
  · simp_all
  · simp_all
  · simp_all
  · have herr' : s.err = true ∧ v.getLsbD 2 = false := by simpa [herr] using he.symm
    refine ⟨v, ha, ?_, herr'.2⟩
    simpa [hdone, himp herr'.1] using hd.symm
  · simp_all

end Sys2Proof.Machine
end

section
/-!
PROOFS of the statements about the layout function: its bounds, its perfect squares and its steps (spec/43_layout.md R103 to
R105).
-/
namespace Sys2Proof.Machine

/-! ### The layout as its pixel count and its root (R101) -/

theorem layoutFn_pixCount (n : Nat) : (layoutFn n).pixCount = ceilDiv n 32 := rfl

theorem layoutFn_width (n : Nat) : (layoutFn n).width = isqrt (layoutFn n).pixCount + 1 := rfl

theorem layoutFn_height (n : Nat) : (layoutFn n).height = (layoutFn n).width := rfl

/-- The pixels are the bits and their padding, in whole chunks. -/
theorem layoutFn_chunks (n : Nat) : 32 * (layoutFn n).pixCount = n + (layoutFn n).padBits ∧ (layoutFn n).padBits ≤ 31 := by
  simp only [layoutFn, ceilDiv, padLength]
  omega

theorem le_isqrt_iff (m n : Nat) : m ≤ isqrt n ↔ m * m ≤ n := by
  obtain ⟨hlo, hhi⟩ := isqrt_bounds n
  refine ⟨fun h => (Nat.mul_le_mul h h).trans hlo, fun h => ?_⟩
  by_contra hlt
  exact absurd (hhi.trans_le (Nat.mul_self_le_mul_self (Nat.lt_of_not_le hlt))) (Nat.not_lt.2 h)

/-- The pixel count lies between the square below the grid and the grid. -/
theorem layoutFn_square_bounds (n : Nat) : ((layoutFn n).width - 1) ^ 2 ≤ (layoutFn n).pixCount ∧
    (layoutFn n).pixCount < (layoutFn n).width ^ 2 := by
  obtain ⟨hlo, hhi⟩ := isqrt_bounds (layoutFn n).pixCount
  rw [layoutFn_width, Nat.add_sub_cancel, pow_two, pow_two]
  exact ⟨hlo, hhi⟩

/-- A grid has at least one slack cell and fewer than two rows of them. -/
theorem layoutFn_slack (n : Nat) : (layoutFn n).pixCount < (layoutFn n).width * (layoutFn n).height ∧
    (layoutFn n).width * (layoutFn n).height - (layoutFn n).pixCount ≤ 2 * (layoutFn n).width - 1 := by
  obtain ⟨hlo, hhi⟩ := isqrt_bounds (layoutFn n).pixCount
  rw [layoutFn_height, layoutFn_width]
  generalize isqrt (layoutFn n).pixCount = r at hlo hhi
  have hsq : (r + 1) * (r + 1) = r * r + 2 * r + 1 := by ring
  omega

/-- A bound on the pixel count whose root is known bounds the grid. -/
theorem layoutFn_width_le {n c m : Nat} (hc : (layoutFn n).pixCount ≤ c) (hm : c < (m + 1) * (m + 1)) :
    (layoutFn n).width ≤ m + 1 := by
  rw [layoutFn_width]
  by_contra hlt
  have hroot := (le_isqrt_iff (m + 1) (layoutFn n).pixCount).1 (by omega)
  omega

/-- Settles O28: the bounds of the root are those of the grid. -/
theorem layoutBounds : Obligations.LayoutBounds := by
  intro n
  obtain ⟨hlo, hhi⟩ := layoutFn_square_bounds n
  refine ⟨⟨rfl, Nat.le_add_left 1 _⟩, ⟨hlo, hhi, layoutFn_slack n⟩, layoutFn_chunks n, fun hn => ?_⟩
  have hpix : (layoutFn n).pixCount ≤ 2 ^ 27 := by
    rw [layoutFn_pixCount, ceilDiv]
    omega
  have hw : (layoutFn n).width ≤ 11586 := layoutFn_width_le hpix (by decide)
  exact ⟨hpix, hw, Nat.mul_le_mul hw hw⟩

/-! ### Perfect squares (R104) -/

theorem layoutFn_dims_of_square {m n : Nat} (h : (layoutFn n).pixCount = m ^ 2) :
    (layoutFn n).width = m + 1 ∧ (layoutFn n).height = m + 1 := by
  have hw := layoutFn_width_of_square (h.trans (pow_two m))
  exact ⟨hw, hw⟩

/-- Settles O29: the root of a perfect square is its base. -/
theorem perfectSquaresGetAWiderGrid : Obligations.PerfectSquaresGetAWiderGrid := by
  refine ⟨fun m n h => ?_, fun n h => layoutFn_dims_of_square (m := 2) h, fun n h => layoutFn_dims_of_square (m := 3) h,
    fun n h => layoutFn_dims_of_square (m := 0) h⟩
  obtain ⟨hw, hh⟩ := layoutFn_dims_of_square h
  exact ⟨hw, by rw [hw, hh, pow_two]⟩

/-! ### The steps of the width (R105) -/

theorem layoutFn_mono {n k : Nat} (h : n ≤ k) :
    (layoutFn n).pixCount ≤ (layoutFn k).pixCount ∧ (layoutFn n).width ≤ (layoutFn k).width := by
  have hpix : (layoutFn n).pixCount ≤ (layoutFn k).pixCount := by
    simp only [layoutFn_pixCount, ceilDiv]
    omega
  exact ⟨hpix, Nat.succ_le_succ (isqrt_mono hpix)⟩

theorem succ_le_layoutFn_width_iff (m n : Nat) : m + 1 ≤ (layoutFn n).width ↔ m ^ 2 ≤ (layoutFn n).pixCount := by
  rw [layoutFn_width, Nat.add_le_add_iff_right, le_isqrt_iff, pow_two]

theorem le_layoutFn_pixCount_iff {c : Nat} (hc : 1 ≤ c) (n : Nat) :
    c ≤ (layoutFn n).pixCount ↔ 32 * (c - 1) + 1 ≤ n := by
  rw [layoutFn_pixCount, ceilDiv]
  omega

/-- At the step to `m + 1` the pixel count is `m ^ 2`, and one bit below it is `m ^ 2 - 1`, whose root is `m - 1`. -/
theorem layoutFn_at_step {m : Nat} (hm : 1 ≤ m) :
    (layoutFn (32 * (m ^ 2 - 1))).width = m ∧ (layoutFn (32 * (m ^ 2 - 1) + 1)).width = m + 1 ∧
      (layoutFn (32 * (m ^ 2 - 1) + 1)).pixCount = m ^ 2 := by
  have hpos : 1 ≤ m ^ 2 := Nat.one_le_pow _ _ hm
  have hat : (layoutFn (32 * (m ^ 2 - 1) + 1)).pixCount = m ^ 2 := by
    rw [layoutFn_pixCount, ceilDiv]
    omega
  obtain ⟨hw, -⟩ := layoutFn_dims_of_square hat
  refine ⟨?_, hw, hat⟩
  obtain ⟨k, rfl⟩ := Nat.exists_eq_add_of_le' hm
  have hsq : (k + 1) ^ 2 = k * k + 2 * k + 1 := by ring
  have hbelow : ceilDiv (32 * ((k + 1) ^ 2 - 1)) 32 = k * k + 2 * k := by
    rw [ceilDiv]
    omega
  rw [layoutFn_eq_of_root hbelow (m := k) (by omega) (by linarith)]

/-- Settles O30: the width passes `m` when the root reaches `m`, which is when the pixel count reaches `m ^ 2`. -/
theorem layoutGrowsInSteps : Obligations.LayoutGrowsInSteps :=
  ⟨fun _ _ => layoutFn_mono, fun m n _ => succ_le_layoutFn_width_iff m n,
    fun _ n hm => le_layoutFn_pixCount_iff (Nat.one_le_pow _ _ hm) n, fun _ => layoutFn_at_step, by decide, by decide,
    by decide, by decide, by decide, by decide⟩

end Sys2Proof.Machine
end

section
/-!
PROOFS of the statements about what a step can do to the results and to memory, when it stops, and how a command ends
(spec/10_state.md R44, spec/20_memory.md R46, R58, spec/40_commands.md R76, spec/60_exceptions.md R107).
-/
namespace Sys2Proof.Machine

/-! ### The results (R44 (f)) -/

/-- Every layout that LAYOUT or PACK can have fits the result registers. -/
theorem setResults_toNat {n : Nat} (hn : n < 2 ^ 35) (s : State) :
    (setResults (layoutFn n) s).pixCount.toNat = (layoutFn n).pixCount ∧
    (setResults (layoutFn n) s).width.toNat = (layoutFn n).width ∧
    (setResults (layoutFn n) s).height.toNat = (layoutFn n).height ∧
    (setResults (layoutFn n) s).padBits.toNat = (layoutFn n).padBits := by
  obtain ⟨hchunks, hpad⟩ := layoutFn_chunks n
  have hw := layoutFn_width_lt hn
  refine ⟨?_, ?_, ?_, ?_⟩ <;> refine (BitVec.toNat_ofNat ..).trans (Nat.mod_eq_of_lt ?_)
  · omega
  · exact hw
  · exact hw
  · omega

theorem setResults_resultsAgree {n : Nat} (hn : n < 2 ^ 35) (s : State) : ResultsAgree (setResults (layoutFn n) s) := by
  obtain ⟨hpix, hw, hh, -⟩ := setResults_toNat hn s
  rw [ResultsAgree, hpix, hw, hh]
  exact ⟨rfl, (layoutFn_slack n).1, layoutFn_width n⟩

theorem KeepsResults.refl (s : State) : KeepsResults s s := ⟨rfl, rfl, rfl, rfl⟩

/-- A completion either keeps the results or writes results that agree. -/
theorem exec_results_cases {i : Instr} {s t : State} (h : exec i s = .next t) :
    ((i = .nop ∨ i = .unpack ∨ t.err = true) ∧ KeepsResults s t) ∨
      ((i = .layout ∨ i = .pack) ∧ t.err = s.err ∧ ResultsAgree t) := by
  have hbits := s.bitLen.isLt
  have hlen := s.srcLen.isLt
  rcases exec_cases i s with ⟨hr, e⟩ | ⟨r, hr, -, e⟩ | ⟨r, -, -, e⟩ <;> rw [e] at h <;> cases h
  · cases i with
    | nop => exact .inl ⟨.inl rfl, .refl s⟩
    | layout => exact .inr ⟨.inl rfl, rfl, setResults_resultsAgree (by omega) s⟩
    | pack => cases hr
    | unpack => cases hr
  · cases i with
    | nop => cases hr
    | layout => cases hr
    | pack => exact .inr ⟨.inr rfl, by simp, setResults_resultsAgree (by omega) (writeRemaining r.dst (finalBytes .pack s) s)⟩
    | unpack => exact .inl ⟨.inr (.inl rfl), by simp [KeepsResults, commandResults]⟩
  · exact .inl ⟨.inr (.inr rfl), .refl s⟩

theorem runCommand_results_cases {s t : State} (h : runCommand s = .next t) : KeepsResults s t ∨ ResultsAgree t := by
  rcases runCommand_cases s with ⟨-, e⟩ | ⟨i, -, e⟩ | ⟨why, -, -, e⟩ <;> rw [e] at h
  · cases h; exact .inl (.refl s)
  · rcases exec_results_cases h with ⟨-, hk⟩ | ⟨-, -, ha⟩
    · exact .inl hk
    · exact .inr ha
  · cases h; exact .inl (.refl s)

theorem writeReg_keepsResults {r : Reg} (hw : r ≠ .width) (hh : r ≠ .height) (v : Word) (s : State) :
    KeepsResults s (writeReg r v s) := by
  cases hb : s.busy <;> cases r <;> simp [writeReg, lockedWrite, hb, KeepsResults] at hw hh ⊢

/-- A step that is no reset and no write of WIDTH or HEIGHT keeps the results or writes results that agree. -/
theorem step_results_cases {s t : State} (h : step s = .next t) (hreset : s.nextAction ≠ .reset)
    (hdims : ∀ v, s.nextAction ≠ wr s.platform .width v ∧ s.nextAction ≠ wr s.platform .height v) :
    KeepsResults s t ∨ ResultsAgree t := by
  rw [step_eq_act] at h
  cases ha : s.nextAction <;> rw [ha] at h
  case regRead => cases h; exact .inl (.refl _)
  case regWrite addr size v =>
    cases h
    left
    rcases hostRegWrite_cases addr size v { s with schedule := s.schedule.tail } with ⟨r, rfl, rfl, e⟩ | e <;> rw [e]
    · refine writeReg_keepsResults (s := { s with schedule := s.schedule.tail }) ?_ ?_ v
      · rintro rfl
        exact (hdims v).1 ha
      · rintro rfl
        exact (hdims v).2 ha
    · exact .refl _
  case memRead a => obtain ⟨-, rfl⟩ := hostMemAccess_eq_next.1 h; exact .inl (hostMemLoad_keepsRegisters a _).2
  case memWrite a v => obtain ⟨-, rfl⟩ := hostMemAccess_eq_next.1 h; exact .inl (hostMemStore_keepsRegisters a v _).2
  case reset => exact absurd ha hreset
  case engineRead k => cases h; exact .inl (engineRead_keepsRegisters k _).2
  case engineWrite k => cases h; exact .inl (engineWrite_keepsRegisters k _).2
  case engineFinish => exact runCommand_results_cases (s := { s with schedule := s.schedule.tail }) h

/-- Settles O21: LAYOUT and PACK write results that agree, and every other step keeps the three registers. -/
theorem resultsStayInAgreement : Obligations.ResultsStayInAgreement := by
  refine ⟨fun i s t hi hs h ht => ?_, fun s t hs h hreset hdims => ?_⟩
  · rcases exec_results_cases h with ⟨hno, -⟩ | ⟨-, -, hagree⟩
    · rcases hi with rfl | rfl <;> simp [ht] at hno
    · exact hagree
  · rcases step_results_cases h hreset hdims with ⟨hw, hh, hp, -⟩ | hagree
    · rwa [ResultsAgree, hw, hh, hp]
    · exact hagree

/-! ### Memory (R58, R79) -/

theorem running_of_runningCommand {i : Instr} {s : State} (h : runningCommand s = some i) : Running i s := by
  unfold runningCommand at h
  split at h
  · cases h
  next p hp =>
    cases hd : decode s.cmd with
    | illegal why => simp [hd, Decoded.instr?] at h
    | command j =>
      obtain rfl : j = i := by simpa [hd, Decoded.instr?] using h
      exact ⟨busy_of_engine_busy hp, (decode_eq_command_iff s.cmd j).1 hd⟩

theorem activeTransfer_of_running {i : Instr} {s : State} {r : Regions} (hrun : Running i s)
    (hr : commandRegions i s = some r) (hc : checkRegions s.platform.memSize r = .noError) :
    activeTransfer s = some (i, r) :=
  activeTransfer_eq_some.2 ⟨runningCommand_of_running hrun, hr, hc⟩

/-- The transfers there are: a PACK or an UNPACK over its regions, which pass their checks. -/
theorem activeTransfer_cases {s : State} {i : Instr} {r : Regions} (h : activeTransfer s = some (i, r)) :
    i = .pack ∧ PackFits s ∧ r = packRegions s ∨ i = .unpack ∧ UnpackFits s ∧ r = unpackRegions s := by
  obtain ⟨-, hr, hc⟩ := activeTransfer_eq_some.1 h
  cases i <;> cases hr
  · exact .inl ⟨rfl, (packFits_iff s).2 hc, rfl⟩
  · exact .inr ⟨rfl, (unpackFits_iff s).2 hc, rfl⟩

/-- A completion reaches memory only where a transfer passed its checks, and there only in its destination. -/
theorem exec_mem_cases {i : Instr} {s t : State} (hm : Memory.wf s.mem = true) (h : exec i s = .next t) :
    t.mem = s.mem ∨ ∃ r, commandRegions i s = some r ∧ checkRegions s.platform.memSize r = .noError ∧ t.err = s.err ∧
      KeepsMemoryOutside r.dst.start r.dst.len s t := by
  rcases exec_cases i s with ⟨-, e⟩ | ⟨r, hr, hc, e⟩ | ⟨r, -, -, e⟩ <;> rw [e] at h <;> cases h
  · exact .inl (by simp)
  · refine .inr ⟨r, hr, hc, by simp, fun b hb => ?_⟩
    rw [completeOk_mem, commandResults_mem, writeRemaining_outside hm hb]
  · exact .inl rfl

theorem runCommand_mem_cases {s t : State} (hm : Memory.wf s.mem = true) (h : runCommand s = .next t) :
    t.mem = s.mem ∨ ∃ i r, activeTransfer s = some (i, r) ∧ KeepsMemoryOutside r.dst.start r.dst.len s t := by
  rcases runCommand_cases s with ⟨-, e⟩ | ⟨i, hrun, e⟩ | ⟨why, -, -, e⟩ <;> rw [e] at h
  · cases h; exact .inl rfl
  · rcases exec_mem_cases hm h with he | ⟨r, hr, hc, -, hk⟩
    · exact .inl he
    · exact .inr ⟨i, r, activeTransfer_of_running hrun hr hc, hk⟩
  · cases h; exact .inl rfl

/-- Every action but a host write to memory leaves memory, or writes in the destination of a transfer that passed its checks. -/
theorem act_mem_cases {a : Action} {s t : State} (hm : Memory.wf s.mem = true) (h : act a s = .next t)
    (ha : ∀ b v, a ≠ .memWrite b v) :
    t.mem = s.mem ∨ ∃ i r, activeTransfer s = some (i, r) ∧ KeepsMemoryOutside r.dst.start r.dst.len s t := by
  cases a with
  | regRead addr size => cases h; exact .inl rfl
  | regWrite addr size v =>
    cases h
    rcases hostRegWrite_cases addr size v s with ⟨r, -, -, e⟩ | e <;> rw [e]
    · exact .inl (writeReg_frame r v s).1
    · exact .inl rfl
  | memRead a => obtain ⟨-, rfl⟩ := hostMemAccess_eq_next.1 h; exact .inl (hostMemLoad_mem a s)
  | memWrite a v => exact absurd rfl (ha a v)
  | reset => cases h; exact .inl rfl
  | engineRead k =>
    cases h
    rcases engineRead_cases k s with e | ⟨p, i, r, -, -, -, e⟩ <;> rw [e] <;> exact .inl rfl
  | engineWrite k =>
    cases h
    rcases engineWrite_cases k s with e | ⟨p, i, r, v, d, -, hact, hk, -, -, e⟩ <;> rw [e]
    · exact .inl rfl
    · obtain ⟨hlt, -⟩ := mayWrite_iff.1 hk
      exact .inr ⟨i, r, hact, fun b hb => memRead_memWrite_of_ne hm v (by omega)⟩
  | engineFinish => exact runCommand_mem_cases hm h

/-- Settles O22: a step writes in no byte but those of an active transfer's destination. -/
theorem onlyTheDestinationIsWritten : Obligations.OnlyTheDestinationIsWritten := by
  intro s t hinv h hno
  rw [step_eq_act] at h
  have hcases := act_mem_cases (s := { s with schedule := s.schedule.tail }) hinv.memWf h hno
  refine ⟨fun hnone => ?_, fun i r hact => ?_⟩
  · rcases hcases with he | ⟨i, r, hact, -⟩
    · exact he
    · exact nomatch hnone.symm.trans hact
  · obtain ⟨hi, -, -⟩ := activeTransfer_eq_some.1 hact
    refine ⟨running_of_runningCommand hi, activeTransfer_cases hact, ?_⟩
    rcases hcases with he | ⟨j, q, hact', hk⟩
    · exact fun b _ => by rw [he]
    · cases Option.some.inj (hact.symm.trans hact')
      exact hk

/-! ### When the machine stops (R46, R107) -/

/-- A host access to memory stops exactly where its address does not exist. -/
theorem hostMemAccess_of_le {a : Nat} {s : State} (s' : State) (h : s.platform.memSize ≤ a) :
    hostMemAccess a s s' = .fault (.noSuchMemory a) := if_pos h

theorem runCommand_answers (s : State) : ∃ t, runCommand s = .next t := by
  cases hb : s.busy with
  | false => exact ⟨s, runCommand_of_idle (idle_iff.1 hb)⟩
  | true =>
    obtain ⟨t, ht, -⟩ := runCommand_completes hb
    exact ⟨t, ht⟩

/-- An action answers a next state, or it is a host access to memory that does not exist. -/
theorem act_outcome (a : Action) (s : State) :
    (a.accessible s.platform = true ∧ ∃ t, act a s = .next t) ∨
      ∃ b, s.platform.memSize ≤ b ∧ (a = .memRead b ∨ ∃ v, a = .memWrite b v) ∧ a.accessible s.platform = false ∧
        act a s = .fault (.noSuchMemory b) := by
  cases a with
  | memRead b =>
    rcases Nat.lt_or_ge b s.platform.memSize with hb | hb
    · exact .inl ⟨decide_eq_true hb, _, hostMemAccess_of_lt _ hb⟩
    · exact .inr ⟨b, hb, .inl rfl, decide_eq_false (Nat.not_lt.2 hb), hostMemAccess_of_le _ hb⟩
  | memWrite b v =>
    rcases Nat.lt_or_ge b s.platform.memSize with hb | hb
    · exact .inl ⟨decide_eq_true hb, _, hostMemAccess_of_lt _ hb⟩
    · exact .inr ⟨b, hb, .inr ⟨v, rfl⟩, decide_eq_false (Nat.not_lt.2 hb), hostMemAccess_of_le _ hb⟩
  | engineFinish => exact .inl ⟨rfl, runCommand_answers s⟩
  | _ => exact .inl ⟨rfl, _, rfl⟩

/-- Settles O23: a step is its next action, and that stops in one way only. -/
theorem onlyHostMemoryAccessesStop : Obligations.OnlyHostMemoryAccessesStop := by
  intro s
  rw [step_eq_act]
  rcases act_outcome s.nextAction { s with schedule := s.schedule.tail } with ⟨hacc, t, ht⟩ | ⟨b, hb, hmem, hacc, hf⟩
  · rw [ht]
    exact ⟨⟨fun _ => hacc, fun _ => ⟨t, rfl⟩⟩, fun r h => (nomatch h), fun a h => (nomatch h)⟩
  · rw [hf]
    refine ⟨⟨fun ⟨t, h⟩ => (nomatch h), fun h => (nomatch hacc.symm.trans h)⟩, fun r h => (nomatch h), fun a h => ?_⟩
    cases h
    exact ⟨hb, hmem⟩

/-! ### Every command ends (R76) -/

theorem step_answers_of_accessible {s : State} (h : s.nextAction.accessible s.platform = true) : ∃ t, step s = .next t :=
  (onlyHostMemoryAccessesStop s).1.2 h

theorem step_keepsAgents {s t : State} {a : Action} {rest : List Action} (hs : s.schedule = a :: rest)
    (h : step s = .next t) : t.platform = s.platform ∧ t.schedule = rest := by
  rw [step_of_cons hs] at h
  exact act_keepsAgents h

/-- After the actions of a schedule comes the engine's turn, which leaves no command in flight. -/
theorem exists_runSteps_idle (l : List Action) : ∀ s : State, s.schedule = l →
    (∀ a ∈ l, a.accessible s.platform = true) → ∃ n t, n ≤ l.length + 1 ∧ runSteps n s = .next t ∧ t.busy = false := by
  induction l with
  | nil =>
    intro s hs _
    obtain ⟨t, ht⟩ := runCommand_answers s
    refine ⟨1, t, le_refl 1, ?_, busy_of_engine_idle (runCommand_ends_idle ht)⟩
    rw [runSteps_one, step_of_nil hs, ht]
  | cons a rest ih =>
    intro s hs hacc
    have hnext : s.nextAction = a := by rw [State.nextAction, hs]
    obtain ⟨t, ht⟩ := step_answers_of_accessible (s := s) (hnext ▸ hacc a List.mem_cons_self)
    obtain ⟨hp, hrest⟩ := step_keepsAgents hs ht
    obtain ⟨n, u, hn, hu, hb⟩ := ih t hrest fun b hb => hp ▸ hacc b (List.mem_cons_of_mem a hb)
    exact ⟨n + 1, u, Nat.succ_le_succ hn, (runSteps_succ n ht).trans hu, hb⟩

/-- Settles O24: after the schedule comes the engine's turn. -/
theorem everyCommandEnds : Obligations.EveryCommandEnds :=
  fun s _ hacc => exists_runSteps_idle s.schedule s rfl hacc

end Sys2Proof.Machine
end

section
/-!
PROOFS of the statements about PACK: its pixel words, its bounds, its errors, its success and what follows from it
(spec/41_bitpacker.md R84 to R91, spec/43_layout.md R106).
-/
namespace Sys2Proof.Machine

/-! ### The cells of a grid (R87) -/

theorem packByte_of_cell (P : List Byte) (i : Nat) {j : Nat} (hj : j < 4) :
    packByte P (4 * i + j) = (packCell P i).channel j := by
  rw [packByte, show (4 * i + j) / 4 = i by omega, show (4 * i + j) % 4 = j by omega]

theorem packCell_channel (P : List Byte) (i : Nat) {j : Nat} (hj : j < 4) :
    (packCell P i).channel j = P.getD (4 * i + j) 0#8 := by
  rw [← packByte_of_cell P i hj, packByte_eq_getD]

/-- Settles O32: the four channels of a cell are four bytes of the payload. -/
theorem pixelWordsOfAPack : Obligations.PixelWordsOfAPack := by
  intro P i _
  have h0 : (packCell P i).channel 0 = P.getD (4 * i) 0#8 := packCell_channel P i (by decide)
  have h1 := packCell_channel P i (j := 1) (by decide)
  have h2 := packCell_channel P i (j := 2) (by decide)
  have h3 := packCell_channel P i (j := 3) (by decide)
  rw [← h0, ← h1, ← h2, ← h3]
  rfl

/-! ### Errors (R84, R110) -/

/-- A failed check is the command's error, whichever command it is. -/
theorem exec_eq_errorState {i : Instr} {s : State} {r : Regions} {c : ErrCode} (hr : commandRegions i s = some r)
    (hc : checkRegions s.platform.memSize r = c) (hne : c ≠ .noError) : exec i s = .next (errorState c s) := by
  subst hc
  exact exec_of_check_fails hr hne

/-- The three errors of a command with regions, in their order. -/
theorem exec_errors {i : Instr} {s : State} {r : Regions} (hr : commandRegions i s = some r) :
    (¬ InRange s.platform.memSize r.src.start r.src.len → exec i s = .next (errorState .srcRange s)) ∧
    (InRange s.platform.memSize r.src.start r.src.len → ¬ InRange s.platform.memSize r.dst.start r.dst.len →
      exec i s = .next (errorState .dstRange s)) ∧
    (InRange s.platform.memSize r.src.start r.src.len → InRange s.platform.memSize r.dst.start r.dst.len →
      Overlap r.src.start r.src.len r.dst.start r.dst.len → exec i s = .next (errorState .overlap s)) :=
  ⟨fun h => exec_eq_errorState hr ((checkRegions_srcRange_iff _ r).2 h) (by decide),
    fun h h' => exec_eq_errorState hr ((checkRegions_dstRange_iff _ r).2 ⟨h, h'⟩) (by decide),
    fun h h' ho => exec_eq_errorState hr ((checkRegions_overlap_iff _ r).2 ⟨h, h', ho⟩) (by decide)⟩

/-! ### Bounds (R88) -/

theorem gridCells_eq (L : Nat) : gridCells L = (layoutFn (8 * L)).width * (layoutFn (8 * L)).height := rfl

theorem gridCells_pos (L : Nat) : 0 < gridCells L := Nat.mul_pos (Nat.succ_pos _) (Nat.succ_pos _)

/-- The largest payload: its pixel count is `2 ^ 30`, whose root is `2 ^ 15`. -/
theorem gridCells_largest : gridCells (2 ^ 32 - 1) = 1073807361 := by
  rw [gridCells_eq, layoutFn_eq_of_root (m := 32768) (c := 2 ^ 30) (by decide) (by decide) (by decide)]
  rfl

theorem layoutFn_of_payload (L : Nat) : (layoutFn (8 * L)).padBits = 8 * ((4 - L % 4) % 4) ∧
    (layoutFn (8 * L)).pixCount = ceilDiv L 4 := by
  simp only [layoutFn, padLength, ceilDiv]
  omega

/-- A grid that ends past the memory is not in range, for no grid is empty. -/
theorem exec_pack_dstRange {s : State} (hsrc : InRange s.platform.memSize s.srcAddr.toNat s.srcLen.toNat)
    (hdst : s.platform.memSize < s.dstAddr.toNat + 4 * gridCells s.srcLen.toNat) :
    exec .pack s = .next (errorState .dstRange s) := by
  have hpos := gridCells_pos s.srcLen.toNat
  have hnot : ¬ InRange s.platform.memSize s.dstAddr.toNat (4 * gridCells s.srcLen.toNat) := by
    rintro (h | h) <;> omega
  exact (exec_errors (i := .pack) rfl).2.1 hsrc hnot

/-- Settles O33: the bounds are those of the layout function at `8 * L`, and the largest grid is larger than every memory. -/
theorem packBounds : Obligations.PackBounds := by
  refine ⟨fun L hL => ?_, by rw [gridCells_largest], fun s => exec_pack_dstRange, fun s hp hlen => ?_⟩
  · obtain ⟨hpad, hcount⟩ := layoutFn_of_payload L
    have hpix : (layoutFn (8 * L)).pixCount ≤ 2 ^ 30 := by
      rw [hcount, ceilDiv]
      omega
    have hw : (layoutFn (8 * L)).width ≤ 32769 := layoutFn_width_le hpix (by decide)
    exact ⟨hpad, hcount, hpix, rfl, rfl, hw, Nat.mul_le_mul hw hw⟩
  · have hmem : s.platform.memSize ≤ 2 ^ 32 := by
      simp only [Platform.WellFormed, Bool.and_eq_true, decide_eq_true_eq] at hp
      exact hp.1.2
    have hL : s.srcLen.toNat = 2 ^ 32 - 1 := by rw [hlen]; rfl
    by_cases hsrc : InRange s.platform.memSize s.srcAddr.toNat s.srcLen.toNat
    · right
      refine exec_pack_dstRange hsrc ?_
      rw [hL, gridCells_largest]
      omega
    · exact .inl ((exec_errors (i := .pack) rfl).1 hsrc)

/-! ### Success (R84 to R86) -/

/-- Every payload length gives a layout that fits the result registers. -/
theorem payload_bits_lt (s : State) : 8 * s.srcLen.toNat < 2 ^ 35 := by
  have := s.srcLen.isLt
  omega

/-- A read of consecutive bytes, from what each byte holds. -/
theorem readBytes_eq_map {m : List Host.Cell} {a n : Nat} {f : Nat → Byte} (h : ∀ k, k < n → memRead m (a + k) = f k) :
    readBytes m a n = (List.range n).map f :=
  List.map_congr_left fun k hk => h k (List.mem_range.1 hk)

/-- Byte `k` of the packed grid is byte `k` of the payload, or 0 past its end. -/
theorem memRead_packedMem_payload {s : State} (hinv : s.Inv) (hrun : Running .pack s) (hraced : s.progress.raced = false)
    (hfit : PackFits s) {k : Nat} (hk : k < 4 * gridCells s.srcLen.toNat) :
    memRead (packedMem s) (s.dstAddr.toNat + k) = (payload s).getD k 0#8 := by
  rw [memRead_packedMem hinv hrun hraced hfit hk]
  split
  next h => exact (readBytes_getD _ _ _ _ h).symm
  next h => rw [List.getD_eq_default _ _ (by rw [payload_length]; omega)]

/-- The vector of 95_test_vectors.md P1. -/
theorem packedMem_hello {s : State} (hinv : s.Inv) (hrun : Running .pack s) (hraced : s.progress.raced = false)
    (hfit : PackFits s) (hlen : s.srcLen = 5#32) (hdst : s.dstAddr = 0x200#32)
    (hP : payload s = [0x48#8, 0x65#8, 0x6C#8, 0x6C#8, 0x6F#8]) :
    readBytes (packedMem s) 0x200 16 = [0x48#8, 0x65#8, 0x6C#8, 0x6C#8, 0x6F#8] ++ List.replicate 11 0#8 := by
  have hcells : gridCells s.srcLen.toNat = 4 := by
    rw [hlen]
    decide
  have hread : ∀ k, k < 16 → memRead (packedMem s) (0x200 + k) = (payload s).getD k 0#8 := fun k hk => by
    have h := memRead_packedMem_payload hinv hrun hraced hfit (k := k) (by omega)
    rwa [hdst] at h
  rw [readBytes_eq_map hread, hP]
  decide

/-- Settles O35: the errors are those of the checks, and the success leaves the packed memory and the layout of the payload. -/
theorem packByItsRule : Obligations.PackByItsRule := by
  refine ⟨fun w => decode_eq_command_iff w .pack, fun s => (exec_errors (i := .pack) rfl).1,
    fun s => (exec_errors (i := .pack) rfl).2.1, fun s => (exec_errors (i := .pack) rfl).2.2,
    fun s hinv hrun hraced hfit => ?_⟩
  obtain ⟨herr, hcode⟩ := hinv.no_error_of_busy hrun.1
  obtain ⟨hpix, hw, hh, hpad⟩ := setResults_toNat (payload_bits_lt s) { s with mem := packedMem s }
  refine ⟨_, exec_pack_of_fits hraced hfit, rfl, herr, hcode, hpix, hw, hh, hpad, rfl, rfl, rfl,
    (readReg_padBits_toNat _).trans hpad, fun i hi j hj => ?_, fun b hb => memRead_packedMem_outside hinv hb,
    fun _ hlen hdst hP => ?_⟩
  · rw [packCell_channel _ _ hj, Nat.add_assoc]
    exact memRead_packedMem_payload hinv hrun hraced hfit (by omega)
  · have hlayout : layoutFn (8 * s.srcLen.toNat) = { pixCount := 2, width := 2, height := 2, padBits := 24 } := by
      rw [hlen]
      exact layoutFn_forty
    rw [hlayout]
    exact ⟨rfl, rfl, rfl, rfl, packedMem_hello hinv hrun hraced hfit hlen hdst hP⟩

/-- Settles O36: the packed memory holds the payload and then zeros. -/
theorem packCopiesAndZeroFills : Obligations.PackCopiesAndZeroFills := by
  intro s hinv hrun hraced hfit
  refine ⟨_, exec_pack_of_fits hraced hfit, fun k hk => ⟨fun h => ?_, fun h => ?_⟩⟩
  · exact (memRead_packedMem hinv hrun hraced hfit hk).trans (if_pos h)
  · exact (memRead_packedMem hinv hrun hraced hfit hk).trans (if_neg (Nat.not_lt.2 h))

/-! ### Slack and padding (R90, R91) -/

/-- Every byte of the last cell lies past the end of the payload. -/
theorem payload_le_last_cell (L : Nat) : L ≤ 4 * (gridCells L - 1) := by
  obtain ⟨hslack, -⟩ := layoutFn_slack (8 * L)
  obtain ⟨hchunks, -⟩ := layoutFn_chunks (8 * L)
  rw [← gridCells_eq] at hslack
  omega

/-- Settles O38: the slack of the layout, and a last cell that lies past the end of the payload. -/
theorem everyPackHasSlack : Obligations.EveryPackHasSlack := by
  intro s hinv hrun hraced hfit
  refine ⟨_, exec_pack_of_fits hraced hfit, ?_⟩
  obtain ⟨hpix, hw, hh, -⟩ := setResults_toNat (payload_bits_lt s) { s with mem := packedMem s }
  simp only [completeOk_pixCount, completeOk_width, completeOk_height, hpix, hw, hh]
  obtain ⟨hlt, hle⟩ := layoutFn_slack (8 * s.srcLen.toNat)
  refine ⟨by omega, hle, fun j hj => ?_⟩
  have hpast := payload_le_last_cell s.srcLen.toNat
  have hpos := gridCells_pos s.srcLen.toNat
  rw [← gridCells_eq, Nat.add_assoc]
  exact (memRead_packedMem hinv hrun hraced hfit (by omega)).trans (if_neg (by omega))

/-- Settles O39: PAD_BITS holds the padding of the layout, which completes the bits to the chunks of the padded bitstream. -/
theorem packPaddingIsCorrect : Obligations.PackPaddingIsCorrect := by
  intro s hinv hrun hraced hfit
  refine ⟨_, exec_pack_of_fits hraced hfit, ?_⟩
  obtain ⟨hpix, -, -, hpad⟩ := setResults_toNat (payload_bits_lt s) { s with mem := packedMem s }
  obtain ⟨hchunks, -⟩ := layoutFn_chunks (8 * s.srcLen.toNat)
  simp only [completeOk_pixCount, completeOk_padBits, hpix, hpad]
  exact ⟨by omega, rfl, by rw [paddedBits_length, payload_length]⟩

/-! ### LAYOUT and PACK (R106) -/

/-- Settles O41: both write the layout of the same number of bits. -/
theorem layoutAgreesWithPack : Obligations.LayoutAgreesWithPack := by
  intro s u hfit _ hbits
  obtain ⟨-, hw, hh, -⟩ := setResults_toNat (payload_bits_lt u) s
  refine ⟨_, _, exec_layout s, exec_of_checks_pass (i := .pack) rfl ((packFits_iff u).1 hfit), ?_⟩
  rw [hbits]
  refine ⟨rfl, rfl, rfl, rfl, ?_⟩
  rw [completeOk_width, completeOk_height, hw, hh, ← gridCells_eq]

end Sys2Proof.Machine
end

section
/-!
PROOFS of the statements about UNPACK: trailing slack, its errors and its success, the empty grid, and PACK followed by UNPACK
(spec/42_bitunpacker.md R95 to R100).
-/
namespace Sys2Proof.Machine

/-! ### The unpacking function (R93, R100) -/

/-- The channels of a grid, in order. -/
def channels (grid : List Pixel) : List Byte := grid.flatMap fun p => [p.r, p.g, p.b, p.a]

theorem channels_append (g h : List Pixel) : channels (g ++ h) = channels g ++ channels h := List.flatMap_append

theorem channels_length (grid : List Pixel) : (channels grid).length = 4 * grid.length := by
  induction grid with
  | nil => rfl
  | cons p grid ih =>
    rw [channels, List.flatMap_cons, List.length_append, ← channels, ih, List.length_cons, List.length_cons]
    simp only [List.length_cons, List.length_nil]
    omega

theorem channels_zeros (K : Nat) : channels (List.replicate K Pixel.zero) = List.replicate (4 * K) 0#8 := by
  induction K with
  | zero => rfl
  | succ K ih =>
    rw [List.replicate_succ, channels, List.flatMap_cons, ← channels, ih, Nat.mul_add, Nat.add_comm, List.replicate_add]
    rfl

/-- Unpacking reads the channels back from their bits. -/
theorem unpackBytes_eq_channels (grid : List Pixel) : unpackBytes grid = channels grid := by
  refine List.ext_getElem (by simp [unpackBytes, channels_length]) fun k hk hk' => ?_
  have hbits : unpackBits grid = (channels grid).flatMap bits8 := unpackBits_eq_bytes grid
  simp only [unpackBytes, List.getElem_map, List.getElem_range, unpackByte]
  rw [hbits, byte_of_slice _ _ hk', List.getD_eq_getElem _ _ hk']

/-- Settles O34: zero pixels have zero channels. -/
theorem trailingSlackUnpacksToZeros : Obligations.TrailingSlackUnpacksToZeros := by
  intro grid K
  simp only [unpackBytes_eq_channels]
  exact ⟨by rw [channels_append, channels_zeros], channels_length grid⟩

/-! ### A transfer that passed its checks (R58) -/

/-- An unraced transfer copies its source to its destination, fills the rest of it with zeros, and leaves every other byte. -/
theorem exec_transfer {i : Instr} {s : State} {r : Regions} (hinv : s.Inv) (hrun : Running i s)
    (hraced : s.progress.raced = false) (hr : commandRegions i s = some r)
    (hc : checkRegions s.platform.memSize r = .noError) :
    ∃ m, exec i s = .next (completeOk (commandResults i s { s with mem := m })) ∧
      (∀ k, k < r.dst.len → memRead m (r.dst.start + k) = (finalBytes i s).getD k 0#8) ∧
      ∀ b, b < r.dst.start ∨ r.dst.start + r.dst.len ≤ b → memRead m b = memRead s.mem b := by
  refine ⟨(writeRemaining r.dst (finalBytes i s) s).mem, ?_, fun k hk => writeRemaining_eq_final hinv hrun hraced hr hc hk,
    fun b hb => writeRemaining_outside hinv.memWf hb⟩
  rw [exec_of_checks_pass hr hc, writeRemaining_frame_of_not_raced _ _ hraced]

/-- UNPACK copies the grid buffer (R97). -/
theorem exec_unpack_of_fits {s : State} (hinv : s.Inv) (hrun : Running .unpack s) (hraced : s.progress.raced = false)
    (hfit : UnpackFits s) :
    ∃ m, exec .unpack s = .next (completeOk { s with mem := m }) ∧
      (∀ k, k < 4 * (s.width.toNat * s.height.toNat) →
        memRead m (s.dstAddr.toNat + k) = memRead s.mem (s.srcAddr.toNat + k)) ∧
      ∀ b, b < s.dstAddr.toNat ∨ s.dstAddr.toNat + 4 * (s.width.toNat * s.height.toNat) ≤ b →
        memRead m b = memRead s.mem b := by
  obtain ⟨m, hexec, hdst, hout⟩ := exec_transfer (i := .unpack) hinv hrun hraced rfl ((unpackFits_iff s).1 hfit)
  refine ⟨m, hexec, fun k hk => (hdst k hk).trans ?_, hout⟩
  exact (finalBytes_getD (i := .unpack) rfl hk).trans (if_pos hk)

/-! ### The statements -/

/-- Settles O43: the destination of UNPACK is a copy of its source. -/
theorem unpackCopiesTheGrid : Obligations.UnpackCopiesTheGrid := by
  intro s hinv hrun hraced hfit
  obtain ⟨m, hexec, hdst, -⟩ := exec_unpack_of_fits hinv hrun hraced hfit
  exact ⟨_, hexec, hdst⟩

/-- Settles O42: the errors are those of the checks, and the bytes of the unpacked grid are the bytes of the grid buffer. -/
theorem unpackByItsRule : Obligations.UnpackByItsRule := by
  refine ⟨fun w => decode_eq_command_iff w .unpack, fun s => (exec_errors (i := .unpack) rfl).1,
    fun s => (exec_errors (i := .unpack) rfl).2.1, fun s => (exec_errors (i := .unpack) rfl).2.2,
    fun s hinv hrun hraced hfit => ?_⟩
  obtain ⟨herr, hcode⟩ := hinv.no_error_of_busy hrun.1
  obtain ⟨m, hexec, hdst, hout⟩ := exec_unpack_of_fits hinv hrun hraced hfit
  refine ⟨_, hexec, rfl, herr, hcode, fun i hi j hj => ?_, fun b hb => hout b hb, fun hw hh hsrc hd hgrid => ?_⟩
  · have hk : 4 * i + j < 4 * (s.width.toNat * s.height.toNat) := by omega
    rw [unpackBytes_readGrid, readBytes_getD _ _ _ _ hk, Nat.add_assoc]
    exact hdst _ hk
  · rw [← hgrid]
    refine readBytes_eq_map fun k hk => ?_
    have h := hdst k (by rw [hw, hh]; exact hk)
    rwa [hsrc, hd] at h

/-- A destination of no bytes has nothing left to write, and draws nothing. -/
theorem writeRemaining_of_empty {d : Region} (hd : d.len = 0) (b : List Byte) (s : State) : writeRemaining d b s = s := by
  have hnone : remainingOffsets d.len s.progress.written = [] := by rw [hd]; rfl
  rw [writeRemaining, hnone]
  split <;> rfl

/-- Settles O44: two empty regions pass every check, and there is nothing to write. -/
theorem emptyGridUnpacks : Obligations.EmptyGridUnpacks := by
  refine ⟨fun s hzero => ?_, rfl⟩
  have hcells : s.width.toNat * s.height.toNat = 0 := by
    rcases hzero with h | h <;> simp [h]
  have hfit : UnpackFits s := by
    rw [UnpackFits, hcells]
    exact ⟨.inl rfl, .inl rfl, fun h => absurd h.1 (Nat.lt_irrefl 0)⟩
  have hlen : (unpackRegions s).dst.len = 0 := by
    show 4 * (s.width.toNat * s.height.toNat) = 0
    rw [hcells]
  rw [exec_of_checks_pass (i := .unpack) rfl ((unpackFits_iff s).1 hfit), writeRemaining_of_empty hlen]
  rfl

/-- Settles O45: UNPACK copies the grid that PACK left, which is the payload and then zeros. -/
theorem unpackAfterPackGivesThePayload : Obligations.UnpackAfterPackGivesThePayload := by
  intro s t u hs hrs hraceds hfits ht hu hru hracedu hfitu hsrc hw hh hgrid
  obtain rfl := Host.Outcome.next.inj ((exec_pack_of_fits hraceds hfits).symm.trans ht)
  obtain ⟨m, hexec, hdst, -⟩ := exec_unpack_of_fits hu hru hracedu hfitu
  obtain ⟨-, hwidth, hheight, -⟩ := setResults_toNat (payload_bits_lt s) { s with mem := packedMem s }
  have hcells : 4 * (u.width.toNat * u.height.toNat) = 4 * gridCells s.srcLen.toNat := by
    rw [hw, hh, completeOk_width, completeOk_height, hwidth, hheight, ← gridCells_eq]
  have hread : ∀ k, k < 4 * gridCells s.srcLen.toNat → memRead m (u.dstAddr.toNat + k) =
      if k < s.srcLen.toNat then memRead s.mem (s.srcAddr.toNat + k) else 0#8 := fun k hk => by
    rw [hdst k (hcells ▸ hk), hsrc, hgrid _ (Nat.le_add_right ..) (Nat.add_lt_add_left hk _)]
    exact memRead_packedMem hs hrs hraceds hfits hk
  have hlast := payload_le_last_cell s.srcLen.toNat
  have hpos := gridCells_pos s.srcLen.toNat
  refine ⟨_, hexec, fun k hk => (hread k (by omega)).trans (if_pos hk), fun k hle hk => ?_⟩
  rw [completeOk_width, hwidth] at hk
  exact (hread k hk).trans (if_neg (Nat.not_lt.2 hle))

end Sys2Proof.Machine
end

section
/-!
PROOFS of the statements about errors, frames and host programs: the first error, the error completion, what every command
leaves unchanged, regions as sets of bytes, a register write beside a completion, and the pseudo-instructions
(spec/60_exceptions.md R110, R111, spec/10_state.md R39, R42, spec/20_memory.md R47, spec/30_encoding.md R71).
-/
namespace Sys2Proof.Machine

/-! ### Errors (R108, R110, R111) -/

/-- Settles O46: the engine's turn is the error of an illegal word, or the command with its checks in their order. -/
theorem firstErrorIsReported : Obligations.FirstErrorIsReported := by
  intro s hb hs
  refine ⟨fun why hd => (step_of_nil hs).trans (runCommand_of_illegal hb hd), fun i r hd hr => ?_⟩
  rw [(stepRunsTheDecodedCommand s i hb hd).1 hs]
  exact exec_errors hr

/-- A command that sets ERR has regions, and ends with the error of the check that failed. -/
theorem exec_err_cases {i : Instr} {s t : State} (hs : s.err = false) (h : exec i s = .next t) (ht : t.err = true) :
    ∃ r, commandRegions i s = some r ∧ checkRegions s.platform.memSize r ≠ .noError ∧
      t = raiseError (checkRegions s.platform.memSize r) s := by
  rcases exec_cases i s with ⟨-, e⟩ | ⟨r, -, -, e⟩ | ⟨r, hr, hc, e⟩ <;> rw [e] at h <;> cases h
  · simp [hs] at ht
  · simp [hs] at ht
  · exact ⟨r, hr, hc, rfl⟩

theorem checkRegions_error_mem {n : Nat} {r : Regions} (h : checkRegions n r ≠ .noError) :
    checkRegions n r ∈ [ErrCode.srcRange, .dstRange, .overlap] := by
  have hill := checkRegions_ne_illegalCmd n r
  cases hc : checkRegions n r <;> simp [hc] at h hill ⊢

theorem commandRegions_eq_some {i : Instr} {s : State} {r : Regions} (h : commandRegions i s = some r) :
    i = .pack ∧ r = packRegions s ∨ i = .unpack ∧ r = unpackRegions s := by
  cases i <;> cases h <;> simp

/-- Settles O47: an error completion is `raiseError`, of a failed check or of an illegal word. -/
theorem errorCompletionByItsRule : Obligations.ErrorCompletionByItsRule := by
  refine ⟨fun i s t hs h ht => ?_, fun s t why hb hd h => ?_⟩
  · obtain ⟨r, hr, hc, rfl⟩ := exec_err_cases hs h ht
    refine ⟨rfl, ?_, checkRegions_error_mem hc, Bool.and_true _⟩
    exact (commandRegions_eq_some hr).imp And.left And.left
  · rw [runCommand_of_illegal hb hd] at h
    cases h
    exact ⟨rfl, Bool.and_true _⟩

/-! ### Frames (R42, R75) -/

theorem exec_keepsResults {i : Instr} {s t : State} (hs : s.err = false) (h : exec i s = .next t)
    (hi : i = .nop ∨ i = .unpack ∨ t.err = true) : KeepsResults s t := by
  rcases exec_results_cases h with ⟨-, hk⟩ | ⟨hno, ht, -⟩
  · exact hk
  · rcases hno with rfl | rfl <;> simp [ht, hs] at hi

theorem exec_keeps_mem {i : Instr} {s t : State} (hinv : s.Inv) (hs : s.err = false) (h : exec i s = .next t)
    (hi : i = .nop ∨ i = .layout ∨ t.err = true) : t.mem = s.mem := by
  rcases exec_mem_cases hinv.memWf h with he | ⟨r, hr, -, ht, -⟩
  · exact he
  · rcases commandRegions_eq_some hr with ⟨rfl, -⟩ | ⟨rfl, -⟩ <;> simp [ht, hs] at hi

theorem exec_keepsMemoryOutside {i : Instr} {s t : State} {r : Regions} (hinv : s.Inv) (h : exec i s = .next t)
    (hr : commandRegions i s = some r) : KeepsMemoryOutside r.dst.start r.dst.len s t := by
  rcases exec_mem_cases hinv.memWf h with he | ⟨q, hq, -, -, hk⟩
  · exact fun b _ => by rw [he]
  · cases Option.some.inj (hr.symm.trans hq)
    exact hk

/-- Settles O48: the frames of the three ways a command completes. -/
theorem commandFrames : Obligations.CommandFrames := by
  intro i s t hinv hb h
  obtain ⟨hs, -⟩ := hinv.no_error_of_busy hb
  obtain ⟨hops, hsur, hidle, hdone⟩ := exec_frame h
  refine ⟨hops, hsur, hidle, hdone, exec_keepsResults hs h, exec_keeps_mem hinv hs h, (exec_keeps_inv hinv h).errCode.1, ?_, ?_⟩
  · rintro rfl
    exact exec_keepsMemoryOutside hinv h (i := .pack) rfl
  · rintro rfl
    exact exec_keepsMemoryOutside hinv h (i := .unpack) rfl

/-! ### Regions (R47) -/

theorem holds_iff {r : Region} {a : Nat} : r.holds a = true ↔ r.start ≤ a ∧ a < r.start + r.len := by
  simp [Region.holds]

theorem not_holds_iff {r : Region} {a : Nat} : r.holds a = false ↔ a < r.start ∨ r.start + r.len ≤ a := by
  rw [← Bool.not_eq_true, holds_iff]
  omega

/-- A region that is not empty is in range when its last byte exists. -/
theorem inRange_iff_bytes (n : Nat) (r : Region) : inRange n r = true ↔ ∀ a, r.holds a = true → a < n := by
  simp only [inRange_iff, InRange, holds_iff]
  refine ⟨fun h a ha => by omega, fun h => ?_⟩
  by_cases hlen : r.len = 0
  · exact .inl hlen
  · have := h (r.start + (r.len - 1)) (by omega)
    omega

/-- Two regions that overlap share the later of their first bytes. -/
theorem overlaps_iff_bytes (r q : Region) : overlaps r q = true ↔ ∃ a, r.holds a = true ∧ q.holds a = true := by
  simp only [overlaps_iff, Overlap, holds_iff]
  refine ⟨fun h => ⟨max r.start q.start, by omega, by omega⟩, ?_⟩
  rintro ⟨a, hr, hq⟩
  omega

theorem overlaps_comm (r q : Region) : overlaps r q = overlaps q r := by
  rw [Bool.eq_iff_iff, overlaps_iff_bytes, overlaps_iff_bytes]
  simp only [and_comm]

/-- Settles O57: the checks read of bytes, and an empty region has none. -/
theorem regionChecksAreAboutBytes : Obligations.RegionChecksAreAboutBytes := by
  have hempty : ∀ (a : Nat) (q : Region), overlaps { start := a, len := 0 } q = false := fun _ _ => rfl
  exact ⟨inRange_iff_bytes, overlaps_iff_bytes, fun _ _ => rfl,
    fun a q => ⟨hempty a q, (overlaps_comm q _).trans (hempty a q)⟩⟩

/-! ### A register write beside a completion (R39) -/

/-- The same state with another schedule, IRQ_EN and WIGN: what no command looks at. -/
def withSurroundings (l : List Action) (q w : Bool) (s : State) : State := { s with schedule := l, irqEn := q, wign := w }

theorem writeRemaining_withSurroundings (d : Region) (b : List Byte) (l : List Action) (q w : Bool) (s : State) :
    writeRemaining d b (withSurroundings l q w s) = withSurroundings l q w (writeRemaining d b s) := by
  have hp : (withSurroundings l q w s).progress = s.progress := rfl
  cases h : s.progress.raced <;> simp only [writeRemaining, hp, h, Bool.false_eq_true, if_true, if_false] <;> rfl

/-- A command completes in the same way whatever is scheduled, enabled or recorded in WIGN. -/
theorem exec_withSurroundings {i : Instr} {s t : State} (h : exec i s = .next t) (l : List Action) (q w : Bool) :
    exec i (withSurroundings l q w s) = .next (withSurroundings l q w t) := by
  have hregions : commandRegions i (withSurroundings l q w s) = commandRegions i s :=
    commandRegions_congr i rfl rfl rfl rfl rfl
  rcases exec_cases i s with ⟨hr, e⟩ | ⟨r, hr, hc, e⟩ | ⟨r, hr, hc, e⟩ <;> rw [e] at h <;> cases h
  · rw [exec_of_no_regions (hregions.trans hr)]
    cases i <;> rfl
  · rw [exec_of_checks_pass (hregions.trans hr) hc]
    cases i <;> simp only [finalBytes, writeRemaining_withSurroundings] <;> rfl
  · rw [exec_of_check_fails (hregions.trans hr) hc]
    rfl

theorem exec_with_schedule {i : Instr} {s t : State} (h : exec i s = .next t) (l : List Action) :
    exec i { s with schedule := l } = .next { t with schedule := l } := by
  obtain ⟨-, ⟨hen, hw, -⟩, -⟩ := exec_frame h
  have e := exec_withSurroundings h l s.irqEn s.wign
  rwa [show withSurroundings l s.irqEn s.wign t = { t with schedule := l } by rw [withSurroundings, ← hen, ← hw]] at e

theorem exec_with_irqEn {i : Instr} {s t : State} (h : exec i s = .next t) (q : Bool) :
    exec i { s with irqEn := q } = .next { t with irqEn := q } := by
  obtain ⟨-, ⟨-, hw, -, hs, -⟩, -⟩ := exec_frame h
  have e := exec_withSurroundings h s.schedule q s.wign
  rwa [show withSurroundings s.schedule q s.wign t = { t with irqEn := q } by rw [withSurroundings, ← hw, ← hs]] at e

theorem exec_with_wign {i : Instr} {s t : State} (h : exec i s = .next t) (w : Bool) :
    exec i { s with wign := w } = .next { t with wign := w } := by
  obtain ⟨-, ⟨hen, -, -, hs, -⟩, -⟩ := exec_frame h
  have e := exec_withSurroundings h s.schedule s.irqEn w
  rwa [show withSurroundings s.schedule s.irqEn w t = { t with wign := w } by rw [withSurroundings, ← hen, ← hs]] at e

/-- While a command is in flight a write of STATUS reaches WIGN alone, for DONE and ERR are 0. -/
theorem writeStatus_of_busy {s : State} (hinv : s.Inv) (hb : s.busy = true) (v : Word) :
    writeStatus v s = { s with wign := s.wign && !v.getLsbD 3 } := by
  obtain ⟨hd, -⟩ := hinv.busyFlags hb
  obtain ⟨he, hc⟩ := hinv.no_error_of_busy hb
  simp [writeStatus, hd, he, hc]

/-- A register write does not look at the schedule. -/
theorem writeReg_with_schedule (r : Reg) (v : Word) (s : State) (l : List Action) :
    writeReg r v { s with schedule := l } = { writeReg r v s with schedule := l } := by
  cases r
  case id | ctrl | status | pixCount | padBits => rfl
  all_goals
    have hb : State.busy { s with schedule := l } = s.busy := rfl
    simp only [writeReg, lockedWrite, hb]
    split <;> rfl

theorem writeReg_running {i : Instr} {s : State} (hrun : Running i s) (r : Reg) (v : Word) :
    Running i (writeReg r v s) := by
  rcases writeReg_of_busy hrun.1 r v with e | e | e | e <;> rw [e] <;> exact hrun

/-- A register write while BUSY leaves the command in flight, and the completion comes next. -/
theorem runSteps_wr_engineFinish {s : State} {i : Instr} {r : Reg} {v : Word} {rest : List Action} (hrun : Running i s)
    (h : s.schedule = wr s.platform r v :: .engineFinish :: rest) :
    runSteps 2 s = exec i (writeReg r v { s with schedule := rest }) := by
  rw [runSteps_succ 1 (step_wr h), runSteps_one, step_engineFinish (writeReg_frame r v _).2, ← writeReg_with_schedule]
  exact runCommand_of_running (writeReg_running (s := { s with schedule := rest }) hrun r v)

/-- The completion, and then a register write to a block that is idle. -/
theorem runSteps_engineFinish_wr {s t : State} {i : Instr} {r : Reg} {v : Word} {rest : List Action} (hrun : Running i s)
    (h : s.schedule = .engineFinish :: wr s.platform r v :: rest) (ht : exec i { s with schedule := rest } = .next t) :
    runSteps 2 s = .next (writeReg r v t) := by
  obtain ⟨-, ⟨-, -, hp, hs, -⟩, -⟩ := exec_frame ht
  have hfirst : step s = .next { t with schedule := wr s.platform r v :: rest } :=
    calc step s = exec i { s with schedule := wr s.platform r v :: rest } :=
          (step_engineFinish h).trans (runCommand_of_running (s := { s with schedule := wr s.platform r v :: rest }) hrun)
      _ = _ := exec_with_schedule ht (wr s.platform r v :: rest)
  have hsecond : step { t with schedule := wr s.platform r v :: rest } = .next (writeReg r v { t with schedule := rest }) :=
    step_wr (s := { t with schedule := wr s.platform r v :: rest }) (by rw [hp])
  have hself : { t with schedule := rest } = t := by rw [← show t.schedule = rest from hs]
  rw [runSteps_succ 1 hfirst, runSteps_one, hsecond, hself]

/-- Settles O58: a write before the completion changes what no command looks at, and one after it meets an idle block. -/
theorem writeAndCompletionInEitherOrder : Obligations.WriteAndCompletionInEitherOrder := by
  intro s t i r v rest hinv hrun ht
  obtain ⟨-, ⟨-, hw, -⟩, hidle, -⟩ := exec_frame ht
  have hb : t.busy = false := busy_of_engine_idle hidle
  have hrun' : Running i { s with schedule := rest } := hrun
  refine ⟨fun h => ?_, fun h => ⟨runSteps_engineFinish_wr hrun h ht, ?_⟩⟩
  · rw [runSteps_wr_engineFinish hrun h]
    refine ⟨fun hr => ?_, ?_, ?_, fun hr => ?_⟩
    · rw [writeReg_locked_of_busy v hr hrun'.1]
      exact exec_with_wign ht true
    · rintro rfl
      exact exec_with_irqEn ht (v.getLsbD 0)
    · rintro rfl
      rw [writeReg, writeStatus_of_busy (hinv.with_schedule rest) hrun'.1, hw]
      exact exec_with_wign ht (s.wign && !v.getLsbD 3)
    · rw [writeReg_of_readOnly hr]
      exact ht
  · refine ⟨?_, ?_, ?_, ?_, ?_, ?_, fun hr => hr ▸ writeReg_cmd_of_idle v hb, fun hr => hr ▸ rfl, fun hr => hr ▸ rfl,
      fun hr => writeReg_of_readOnly hr v t⟩ <;>
    · rintro rfl
      exact lockedWrite_of_idle hb _

/-! ### Host programs (R71) -/

theorem readReg_acceptCommand {q : Reg} (hc : q ≠ .cmd) (hs : q ≠ .status) (v : Word) (s : State) :
    readReg (acceptCommand v s) q = readReg s q := by
  cases q <;> simp [readReg, ctrlWord] at hc hs ⊢

theorem writeReg_ends_idle {s : State} {r : Reg} (v : Word) (hi : s.engine = .idle) (hc : r ≠ .cmd) :
    (writeReg r v s).engine = .idle := by
  have hb := busy_of_engine_idle hi
  cases r <;> simp [writeReg, lockedWrite_of_idle hb, hi] at hc ⊢

/-- A write of an operand register in phase IDLE stores its value, and the block stays idle. -/
theorem step_wr_operand_of_idle {s : State} {r : Reg} {v : Word} {rest : List Action} (hi : s.engine = .idle)
    (hr : r ∈ lockedRegs) (hc : r ≠ .cmd) (h : s.schedule = wr s.platform r v :: rest) :
    ∃ t, step s = .next t ∧ t.engine = .idle ∧ t.platform = s.platform ∧ t.schedule = rest ∧ readReg t r = v ∧
      ∀ q, q ≠ r → readReg t q = readReg s q := by
  have hb : State.busy { s with schedule := rest } = false := busy_of_engine_idle hi
  exact ⟨_, step_wr h, writeReg_ends_idle v hi hc, writeReg_platform r v _, (writeReg_frame r v _).2,
    readReg_writeReg_same_of_idle v hr hb, fun q hq => (readReg_writeReg_other_of_idle v hr hb hq fun _ => hc).trans (readReg_schedule s rest q)⟩
/-- Writes of operand registers, each once, and then of a command word put the command in flight with these operands, and leave
every other register but STATUS as it was. -/
theorem runSteps_program (i : Instr) (ws : List (Reg × Word)) : ∀ s : State, s.engine = .idle →
    (∀ x ∈ ws, x.1 ∈ lockedRegs ∧ x.1 ≠ .cmd ∧ x.1 ≠ .status) → (ws.map Prod.fst).Nodup →
    s.schedule = ws.map (fun x => wr s.platform x.1 x.2) ++ [wr s.platform .cmd (encode i)] →
    ∃ t, runSteps (ws.length + 1) s = .next t ∧ Running i t ∧ (∀ x ∈ ws, readReg t x.1 = x.2) ∧
      ∀ q, q ≠ .cmd → q ≠ .status → q ∉ ws.map Prod.fst → readReg t q = readReg s q := by
  induction ws with
  | nil =>
    intro s hi _ _ hs
    exact ⟨_, (runSteps_one s).trans (step_wr_cmd_of_idle hi hs), ⟨rfl, rfl⟩, fun x hx => (nomatch hx),
      fun q hc hst _ => (readReg_acceptCommand hc hst _ _).trans (readReg_schedule s [] q)⟩
  | cons x ws ih =>
    intro s hi hws hnd hs
    obtain ⟨hr, hc, hst⟩ := hws x List.mem_cons_self
    rw [List.map_cons, List.nodup_cons] at hnd
    obtain ⟨hfresh, hnd⟩ := hnd
    obtain ⟨t, ht, hi', hp, hrest, hsame, hother⟩ := step_wr_operand_of_idle hi hr hc hs
    obtain ⟨u, hu, hrun, hread, hkeep⟩ := ih t hi' (fun y hy => hws y (List.mem_cons_of_mem x hy)) hnd (hp ▸ hrest)
    refine ⟨u, (runSteps_succ _ ht).trans hu, hrun, fun y hy => ?_, fun q hq hqs hmem => ?_⟩
    · rcases List.mem_cons.1 hy with rfl | hy
      · exact (hkeep _ hc hst hfresh).trans hsame
      · exact hread y hy
    · rw [List.map_cons, List.mem_cons, not_or] at hmem
      exact (hkeep q hq hqs hmem.2).trans (hother q hmem.1)

/-- Settles O59: each program is writes of operand registers and then of the command word; ACK is one write of STATUS. -/
theorem pseudoInstructionsStartCommands : Obligations.PseudoInstructionsStartCommands := by
  intro s hi
  refine ⟨fun h => ?_, fun n h => ?_, fun a l d h => ?_, fun a w g d h => ?_, fun h => ?_⟩
  · obtain ⟨t, ht, hrun, -⟩ := runSteps_program .nop [] s hi (by simp) (by simp) h
    exact ⟨t, ht, hrun⟩
  · obtain ⟨t, ht, hrun, hread, -⟩ := runSteps_program .layout [(.bitLen, n)] s hi (by simp) (by simp) h
    exact ⟨t, ht, hrun, by simpa [readReg] using hread⟩
  · obtain ⟨t, ht, hrun, hread, -⟩ := runSteps_program .pack [(.srcAddr, a), (.srcLen, l), (.dstAddr, d)] s hi (by simp)
      (by simp) h
    exact ⟨t, ht, hrun, by simpa [readReg] using hread⟩
  · obtain ⟨t, ht, hrun, hread, -⟩ := runSteps_program .unpack [(.srcAddr, a), (.width, w), (.height, g), (.dstAddr, d)] s hi
      (by simp) (by simp) h
    exact ⟨t, ht, hrun, by simpa [readReg] using hread⟩
  · exact ⟨_, (runSteps_one s).trans (step_wr h), by simp [writeReg], by simp [writeReg], by simp [writeReg],
      by simp [writeReg]⟩

end Sys2Proof.Machine
end

section
/-!
PROOFS of the statements about races and other host accesses to memory: a host write into the regions of the command in flight,
the completion of a raced command, and the accesses that do not interact with it (spec/20_memory.md R53, R59).
-/
namespace Sys2Proof.Machine

/-! ### A host access to memory as a step -/

theorem step_memWrite {s : State} {a : Nat} {v : Byte} {rest : List Action} (ha : a < s.platform.memSize)
    (h : s.schedule = .memWrite a v :: rest) : step s = .next (hostMemStore a v { s with schedule := rest }) :=
  (step_of_cons h).trans (hostMemAccess_of_lt _ ha)

theorem step_memRead {s : State} {a : Nat} {rest : List Action} (ha : a < s.platform.memSize)
    (h : s.schedule = .memRead a :: rest) : step s = .next (hostMemLoad a { s with schedule := rest }) :=
  (step_of_cons h).trans (hostMemAccess_of_lt _ ha)

theorem runningRegions_of_running {i : Instr} {s : State} (hrun : Running i s) :
    runningRegions s = commandRegions i s := by
  simp [runningRegions, runningCommand_of_running hrun]

theorem inRunningRegions_of_some {s : State} {r : Regions} (h : runningRegions s = some r) (a : Nat) :
    inRunningRegions a s = (r.src.holds a || r.dst.holds a) := by
  simp [inRunningRegions, h]

theorem inRunningRegions_eq_false {s : State} {a : Nat}
    (h : ∀ r, runningRegions s = some r → r.src.holds a = false ∧ r.dst.holds a = false) : inRunningRegions a s = false := by
  cases hr : runningRegions s with
  | none => simp [inRunningRegions, hr]
  | some r =>
    obtain ⟨hs, hd⟩ := h r hr
    rw [inRunningRegions_of_some hr, hs, hd, Bool.or_self]

/-- Outside both regions of the command in flight, or with none, a host write changes its byte alone. -/
theorem hostMemStore_of_outside {a : Nat} {v : Byte} {s : State} (h : inRunningRegions a s = false) :
    hostMemStore a v s = { s with mem := memWrite s.mem a v } := by
  rw [hostMemStore, h]
  rfl

/-- Settles O56: the write races nothing, and the read changes the answers and, where it is not coherent, the draws. -/
theorem otherHostWritesDoNotInteract : Obligations.OtherHostWritesDoNotInteract := by
  refine ⟨fun s a v rest hinv ha hout h => ?_, fun s a rest ha h => ⟨fun hco => ?_, fun hco => ?_⟩⟩
  · have hstore := hostMemStore_of_outside (v := v) (s := { s with schedule := rest })
      (inRunningRegions_eq_false hout)
    exact ⟨_, (step_memWrite ha h).trans (congrArg _ hstore), rfl, memRead_memWrite hinv.memWf a v⟩
  · exact (step_memRead ha h).trans (congrArg _ (hostMemLoad_of_coherent (s := { s with schedule := rest }) hco))
  · exact (step_memRead ha h).trans (congrArg _ (hostMemLoad_of_not_coherent (s := { s with schedule := rest }) hco))

/-! ### A race (R59) -/

theorem written_nodup {s : State} (hinv : s.Inv) {p : Progress} (hp : s.engine = .busy p) : p.written.Nodup := by
  cases ha : activeTransfer s with
  | none =>
    obtain ⟨-, hw⟩ := (progressOk_none ha).1 (hinv.progress p hp)
    simp [hw]
  | some x =>
    obtain ⟨-, hrising, -⟩ := (progressOk_some ha).1 (hinv.progress p hp)
    exact hrising.imp Nat.ne_of_lt

/-- Each drawn byte holds the draw of its place in the list. -/
theorem memRead_drawnCells {m : List Host.Cell} (hm : Memory.wf m = true) {ks : List Nat} (hnd : ks.Nodup) (a d : Nat) {k : Nat}
    (hk : k ∈ ks) : memRead (memWriteAll m (drawnCells a d ks)) (a + k) = Config.freeByte (d + ks.idxOf k) := by
  refine memRead_memWriteAll_of_mem (c := (a + k, Config.freeByte (d + ks.idxOf k))) hm ?_ ?_
  · rw [drawnCells_addresses]
    exact addresses_nodup hnd
  · exact List.mem_mapIdx.2 ⟨_, List.idxOf_lt_length_of_mem hk, by simp⟩

theorem memRead_drawnCells_of_ne {m : List Host.Cell} (hm : Memory.wf m = true) (ks : List Nat) (a d : Nat) {b : Nat}
    (hb : ∀ k ∈ ks, b ≠ a + k) : memRead (memWriteAll m (drawnCells a d ks)) b = memRead m b := by
  refine memRead_memWriteAll_of_not_mem hm fun c hc => ?_
  have hmem : c.1 ∈ ks.map (a + ·) := drawnCells_addresses a d ks ▸ List.mem_map_of_mem hc
  obtain ⟨k, hk, e⟩ := List.mem_map.1 hmem
  exact fun h => hb k hk (h.symm.trans e.symm)

theorem hostMemStore_of_inside {a : Nat} {v : Byte} {s : State} {p : Progress} {r : Regions} (hp : s.engine = .busy p)
    (hr : runningRegions s = some r) (hin : r.src.holds a = true ∨ r.dst.holds a = true) :
    hostMemStore a v s =
      { s with mem := memWriteAll (memWrite s.mem a v) (drawnCells r.dst.start s.draws p.written),
               engine := .busy { p with raced := true }, draws := s.draws + p.written.length } := by
  rcases hostMemStore_cases a v s with ⟨hout, -⟩ | ⟨q, r', hq, hr', -, e⟩
  · rw [inRunningRegions_of_some hr] at hout
    rcases hin with h | h <;> simp [h] at hout
  · obtain rfl : p = q := Engine.busy.inj (hp.symm.trans hq)
    obtain rfl : r = r' := Option.some.inj (hr.symm.trans hr')
    exact e

/-- Settles O54: the host's byte is stored, and then the bytes written so far are drawn. -/
theorem hostWriteRacesTheCommand : Obligations.HostWriteRacesTheCommand := by
  intro s i r a v rest hinv hrun hr hin ha h
  obtain ⟨p, hp⟩ := busy_iff.1 hrun.1
  have hwf := memWrite_wf a v hinv.memWf
  have hstore := hostMemStore_of_inside (v := v) (s := { s with schedule := rest }) hp
    ((runningRegions_of_running hrun).trans hr) hin
  rw [progress_of_engine_busy hp]
  refine ⟨_, (step_memWrite ha h).trans (congrArg _ hstore), rfl, rfl, rfl, ⟨rfl, hrun.2⟩, rfl, fun k hk => ?_, fun b hb => ?_⟩
  · exact memRead_drawnCells hwf (written_nodup hinv hp) _ _ hk
  · exact (memRead_drawnCells_of_ne hwf _ _ _ hb).trans (memRead_memWrite hinv.memWf a v b)

/-! ### A raced command (R59) -/

theorem engineWrite_of_raced {s : State} {p : Progress} {i : Instr} {r : Regions} {k : Nat} (hp : s.engine = .busy p)
    (ha : activeTransfer s = some (i, r)) (hk : mayWrite k r p = true) (hraced : p.raced = true) :
    engineWrite k s = { s with mem := memWrite s.mem (r.dst.start + k) (Config.freeByte s.draws), draws := s.draws + 1,
                               engine := .busy { p with written := insertOffset k p.written } } := by
  simp only [engineWrite, hp, ha, hk, hraced, if_true]

theorem engineWrite_of_not_raced {s : State} {p : Progress} {i : Instr} {r : Regions} {k : Nat} (hp : s.engine = .busy p)
    (ha : activeTransfer s = some (i, r)) (hk : mayWrite k r p = true) (hraced : p.raced = false) :
    engineWrite k s = { s with mem := memWrite s.mem (r.dst.start + k) ((finalBytes i s).getD k 0#8),
                               engine := .busy { p with written := insertOffset k p.written } } := by
  simp only [engineWrite, hp, ha, hk, hraced, if_true, Bool.false_eq_true, if_false]

theorem step_engineWrite {s : State} {k : Nat} {rest : List Action} (h : s.schedule = .engineWrite k :: rest) :
    step s = .next (engineWrite k { s with schedule := rest }) := step_of_cons h

theorem writeRemaining_draws_of_raced {d : Region} {b : List Byte} {s : State} (h : s.progress.raced = true) :
    (writeRemaining d b s).draws = s.draws + (remainingOffsets d.len s.progress.written).length := by
  simp [writeRemaining, h]

/-- The results of a command that passed its checks: those of PACK are the layout of its payload, and UNPACK has none. -/
theorem commandResults_of_transfer (i : Instr) (s t : State) :
    (i = .pack → (commandResults i s t).pixCount.toNat = (layoutFn (8 * s.srcLen.toNat)).pixCount ∧
      (commandResults i s t).width.toNat = (layoutFn (8 * s.srcLen.toNat)).width ∧
      (commandResults i s t).height = (commandResults i s t).width ∧
      (commandResults i s t).padBits.toNat = (layoutFn (8 * s.srcLen.toNat)).padBits) ∧
    (i = .unpack → commandResults i s t = t) := by
  constructor
  · rintro rfl
    obtain ⟨hpix, hw, -, hpad⟩ := setResults_toNat (payload_bits_lt s) t
    exact ⟨hpix, hw, rfl, hpad⟩
  · rintro rfl
    rfl

/-- Settles O55: what is left of the destination is drawn, by the completion in order or by one engine write. -/
theorem racedCommandCompletesWithFreeBytes : Obligations.RacedCommandCompletesWithFreeBytes := by
  intro s i r hinv hrun hraced hact
  obtain ⟨-, hr, hc⟩ := activeTransfer_eq_some.1 hact
  obtain ⟨herr, hcode⟩ := hinv.no_error_of_busy hrun.1
  obtain ⟨hpack, hunpack⟩ := commandResults_of_transfer i s (writeRemaining r.dst (finalBytes i s) s)
  refine ⟨⟨_, exec_of_checks_pass hr hc, rfl, rfl, by simp [herr], by simp [hcode], hpack, fun hi => ?_, fun b hb => ?_,
    fun k hk => ?_, fun k hk hw => ?_, ?_⟩, fun k rest hk hw hread h => ?_⟩
  · simp [KeepsResults, hunpack hi]
  · rw [completeOk_mem, commandResults_mem, writeRemaining_outside hinv.memWf hb]
  · rw [completeOk_mem, commandResults_mem, writeRemaining_written hinv.memWf hk]
  · rw [completeOk_mem, commandResults_mem, writeRemaining_drawn hinv.memWf hraced hk hw]
  · rw [completeOk_draws, commandResults_draws, writeRemaining_draws_of_raced hraced]
  · obtain ⟨p, hp⟩ := busy_iff.1 hrun.1
    rw [progress_of_engine_busy hp] at hraced hw hread ⊢
    have hwrite := engineWrite_of_raced (s := { s with schedule := rest }) hp hact (mayWrite_iff.2 ⟨hk, hw, hread⟩) hraced
    exact ⟨_, (step_engineWrite h).trans (congrArg _ hwrite), rfl, rfl, hraced, rfl, fun j => mem_insertOffset,
      memRead_memWrite hinv.memWf _ _⟩

end Sys2Proof.Machine
end

section
/-!
PROOFS of the statements about a command at work: the engine's accesses in any order with host actions that race nothing between
them, and a reset in their midst (spec/20_memory.md R58, R59, spec/70_reset_and_hazards.md R125).
-/
namespace Sys2Proof.Machine

/-! ### What the host stores -/

theorem hostStored_append (m : List Host.Cell) (l l' : List Action) :
    hostStored m (l ++ l') = hostStored (hostStored m l) l' := by
  simp only [hostStored, memWriteAll, List.filterMap_append, List.foldl_append]

theorem hostStored_wf {m : List Host.Cell} (h : Memory.wf m = true) (l : List Action) :
    Memory.wf (hostStored m l) = true := memWriteAll_wf _ h

theorem hostStored_of_no_store (m : List Host.Cell) {a : Action} (h : a.store = none) : hostStored m [a] = m := by
  simp [hostStored, h]

theorem hostStored_of_store (m : List Host.Cell) {a : Action} {c : Host.Cell} (h : a.store = some c) :
    hostStored m [a] = memWrite m c.1 c.2 := by
  simp [hostStored, h]

/-! ### One action that races nothing -/

/-- While a command is in flight a register write reaches neither the engine nor memory. -/
theorem hostRegWrite_of_busy {s : State} (hb : s.busy = true) (addr size : Nat) (v : Word) :
    (hostRegWrite addr size v s).engine = s.engine ∧ (hostRegWrite addr size v s).mem = s.mem := by
  rcases hostRegWrite_cases addr size v s with ⟨r, -, -, e⟩ | e
  · rcases writeReg_of_busy hb r v with e' | e' | e' | e' <;> rw [e, e'] <;> exact ⟨rfl, rfl⟩
  · rw [e]
    exact ⟨rfl, rfl⟩

/-- What an action that races nothing does to memory: nothing, the host's own write outside the regions, or an engine write of
a final value. -/
def MemoryStep (a : Action) (s u : State) (m : List Host.Cell) : Prop :=
  (a.store = none ∧ m = u.mem) ∨
  (∃ c : Host.Cell, a.store = some c ∧ inRunningRegions c.1 s = false ∧ m = memWrite u.mem c.1 c.2) ∨
  (a.store = none ∧ ∃ i r k, activeTransfer s = some (i, r) ∧ k < r.dst.len ∧
    m = memWrite u.mem (r.dst.start + k) ((finalBytes i u).getD k 0#8))

theorem noRace_memWrite {s : State} {b : Nat} {v : Byte} (h : (Action.memWrite b v).noRace s = true) :
    b < s.platform.memSize ∧ inRunningRegions b s = false := by simpa [Action.noRace] using h

theorem hostMemStore_of_sameCommand {s u : State} (h : SameCommand s u) {b : Nat} {v : Byte}
    (hout : inRunningRegions b s = false) : hostMemStore b v u = { u with mem := memWrite u.mem b v } :=
  hostMemStore_of_outside ((h.inRunningRegions b).trans hout)

/-- An action that races nothing answers a next state, in which the command is still in flight and not raced. -/
theorem act_noRace {s u : State} {a : Action} (hst : SameCommand s u) (hb : u.busy = true)
    (hraced : u.progress.raced = false) (ha : a.noRace s = true) :
    ∃ v, act a u = .next v ∧ v.busy = true ∧ v.progress.raced = false ∧ MemoryStep a s u v.mem ∧
      (a.isEngineAccess = true → v.irqEn = u.irqEn ∧ v.wign = u.wign ∧ v.draws = u.draws ∧ v.answers = u.answers) := by
  obtain ⟨p, hp⟩ := busy_iff.1 hb
  have hpr : p.raced = false := progress_of_engine_busy hp ▸ hraced
  cases a with
  | regRead addr size => exact ⟨_, rfl, hb, hraced, .inl ⟨rfl, rfl⟩, fun h => (nomatch h)⟩
  | regWrite addr size v =>
    obtain ⟨he, hm⟩ := hostRegWrite_of_busy hb addr size v
    refine ⟨_, rfl, busy_of_engine_busy (he.trans hp), ?_, .inl ⟨rfl, hm⟩, fun h => (nomatch h)⟩
    rw [progress_of_engine_busy (he.trans hp), hpr]
  | memRead b =>
    have hlt : b < u.platform.memSize := hst.platform ▸ of_decide_eq_true ha
    have he := (hostMemLoad_engine b u).trans hp
    refine ⟨_, hostMemAccess_of_lt _ hlt, busy_of_engine_busy he, ?_, .inl ⟨rfl, hostMemLoad_mem b u⟩, fun h => (nomatch h)⟩
    rw [progress_of_engine_busy he, hpr]
  | memWrite b v =>
    obtain ⟨hlt, hout⟩ := noRace_memWrite ha
    have hstore := hostMemStore_of_sameCommand (v := v) hst hout
    exact ⟨_, (hostMemAccess_of_lt _ (hst.platform ▸ hlt)).trans (congrArg _ hstore), hb, hraced,
      .inr (.inl ⟨(b, v), rfl, hout, rfl⟩), fun h => (nomatch h)⟩
  | engineRead k =>
    refine ⟨_, rfl, ?_⟩
    rcases engineRead_cases k u with e | ⟨q, i, r, hq, -, -, e⟩ <;> rw [e]
    · exact ⟨hb, hraced, .inl ⟨rfl, rfl⟩, fun _ => ⟨rfl, rfl, rfl, rfl⟩⟩
    · exact ⟨rfl, Engine.busy.inj (hp.symm.trans hq) ▸ hpr, .inl ⟨rfl, rfl⟩, fun _ => ⟨rfl, rfl, rfl, rfl⟩⟩
  | engineWrite k =>
    refine ⟨_, rfl, ?_⟩
    rcases engineWrite_cases k u with e | ⟨q, i, r, v, d, hq, hact, hk, hv, -, e⟩ <;> rw [e]
    · exact ⟨hb, hraced, .inl ⟨rfl, rfl⟩, fun _ => ⟨rfl, rfl, rfl, rfl⟩⟩
    · obtain rfl := Engine.busy.inj (hp.symm.trans hq)
      obtain ⟨rfl, rfl⟩ := hv hpr
      obtain ⟨hlt, -⟩ := mayWrite_iff.1 hk
      exact ⟨rfl, hpr, .inr (.inr ⟨rfl, i, r, k, hst.activeTransfer.symm.trans hact, hlt, rfl⟩),
        fun _ => ⟨rfl, rfl, rfl, rfl⟩⟩
  | reset => cases ha
  | engineFinish => cases ha

theorem act_sameCommand {a : Action} {s t : State} (hb : s.busy = true) (h : act a s = .next t) (ht : t.busy = true) :
    SameCommand s t :=
  ⟨ht.trans hb.symm, (act_keepsAgents h).1, act_keepsRegisters_in_flight hb h ht⟩

theorem SameCommand.trans {s t u : State} (h : SameCommand s t) (h' : SameCommand t u) : SameCommand s u := by
  obtain ⟨⟨a1, a2, a3, a4, a5⟩, b1, b2, b3, b4⟩ := h.registers
  obtain ⟨⟨c1, c2, c3, c4, c5⟩, d1, d2, d3, d4⟩ := h'.registers
  exact ⟨h'.busy.trans h.busy, h'.platform.trans h.platform,
    ⟨c1.trans a1, c2.trans a2, c3.trans a3, c4.trans a4, c5.trans a5⟩, d1.trans b1, d2.trans b2, d3.trans b3, d4.trans b4⟩

theorem SameCommand.symm {s t : State} (h : SameCommand s t) : SameCommand t s := by
  obtain ⟨⟨a1, a2, a3, a4, a5⟩, b1, b2, b3, b4⟩ := h.registers
  exact ⟨h.busy.symm, h.platform.symm, ⟨a1.symm, a2.symm, a3.symm, a4.symm, a5.symm⟩, b1.symm, b2.symm, b3.symm, b4.symm⟩

/-! ### A command between its acceptance and its completion -/

/-- Command `i`, in flight and not raced in `s`, completes from there to `t`. -/
structure Completes (i : Instr) (s t : State) : Prop where
  inv : s.Inv
  running : Running i s
  notRaced : s.progress.raced = false
  exec : exec i s = .next t

/-- Memory `m` while the command of `s` that completes to `t` is at work and the host has left memory `stored`: a destination
byte is old or final, every other byte is the host's, and the source is as it was. -/
structure OldOrFinal (i : Instr) (s t : State) (stored m : List Host.Cell) : Prop where
  dst : ∀ r, commandRegions i s = some r → ∀ b, r.dst.holds b = true →
    memRead m b = memRead s.mem b ∨ memRead m b = memRead t.mem b
  other : ∀ b, (∀ r, commandRegions i s = some r → r.dst.holds b = false) → memRead m b = memRead stored b
  src : ∀ r, commandRegions i s = some r → ∀ b, r.src.holds b = true → memRead m b = memRead s.mem b

/-- After `acts`, which race nothing, the command of `s` is still in flight in `u`. -/
structure Underway (i : Instr) (s t : State) (acts : List Action) (u : State) : Prop where
  inv : u.Inv
  same : SameCommand s u
  notRaced : u.progress.raced = false
  flags : (∀ a ∈ acts, a.isEngineAccess = true) → u.irqEn = s.irqEn ∧ u.wign = s.wign
  mem : OldOrFinal i s t (hostStored s.mem acts) u.mem

theorem Completes.start {i : Instr} {s t : State} (h : Completes i s t) : Underway i s t [] s where
  inv := h.inv
  same := ⟨rfl, rfl, .refl s⟩
  notRaced := h.notRaced
  flags _ := ⟨rfl, rfl⟩
  mem := ⟨fun _ _ _ _ => .inl rfl, fun _ _ => rfl, fun _ _ _ _ => rfl⟩

theorem Underway.with_schedule {i : Instr} {s t u : State} {acts : List Action} (h : Underway i s t acts u)
    (l : List Action) : Underway i s t acts { u with schedule := l } :=
  ⟨h.inv.with_schedule l, ⟨h.same.busy, h.same.platform, h.same.registers⟩, h.notRaced, h.flags, h.mem⟩

theorem Underway.running {i : Instr} {s t u : State} {acts : List Action} (h : Underway i s t acts u)
    (hc : Completes i s t) : Running i u := h.same.running hc.running

/-- The transfer of a command in flight is over its own regions. -/
theorem regions_of_activeTransfer {i j : Instr} {s : State} {r : Regions} (hrun : Running i s)
    (h : activeTransfer s = some (j, r)) :
    j = i ∧ commandRegions i s = some r ∧ checkRegions s.platform.memSize r = .noError := by
  obtain ⟨hj, hr, hc⟩ := activeTransfer_eq_some.1 h
  obtain rfl : i = j := Option.some.inj ((runningCommand_of_running hrun).symm.trans hj)
  exact ⟨rfl, hr, hc⟩

/-- The completed state holds the final values. -/
theorem Completes.final {i : Instr} {s t : State} (h : Completes i s t) {r : Regions} (hr : commandRegions i s = some r)
    (hc : checkRegions s.platform.memSize r = .noError) {k : Nat} (hk : k < r.dst.len) :
    memRead t.mem (r.dst.start + k) = (finalBytes i s).getD k 0#8 := by
  obtain ⟨m, hexec, hdst, -⟩ := exec_transfer h.inv h.running h.notRaced hr hc
  obtain rfl := Host.Outcome.next.inj (hexec.symm.trans h.exec)
  rw [completeOk_mem, commandResults_mem]
  exact hdst k hk

/-- The values that a command at work still has to write are those it started with. -/
theorem Underway.final_values {i : Instr} {s t u : State} {acts : List Action} (h : Underway i s t acts u) {r : Regions}
    (hr : commandRegions i s = some r) {k : Nat} (hk : k < r.dst.len) :
    (finalBytes i u).getD k 0#8 = (finalBytes i s).getD k 0#8 :=
  finalBytes_congr hr ((h.same.commandRegions i).trans hr) (fun _ hj => h.mem.src r hr _ (holds_iff.2 (by omega))) hk

/-- A host write outside both regions is one of the host's. -/
theorem OldOrFinal.host_write {i : Instr} {s t : State} {stored m : List Host.Cell} (h : OldOrFinal i s t stored m)
    (hm : Memory.wf m = true) (hstored : Memory.wf stored = true) (hrun : Running i s) {c : Host.Cell}
    (hout : inRunningRegions c.1 s = false) :
    OldOrFinal i s t (memWrite stored c.1 c.2) (memWrite m c.1 c.2) := by
  have hne : ∀ r, commandRegions i s = some r → ∀ b, r.src.holds b = true ∨ r.dst.holds b = true → b ≠ c.1 := by
    rintro r hr b hin rfl
    rw [inRunningRegions_of_some ((runningRegions_of_running hrun).trans hr)] at hout
    rcases hin with h | h <;> simp [h] at hout
  refine ⟨fun r hr b hb => ?_, fun b hb => ?_, fun r hr b hb => ?_⟩
  · rw [memRead_memWrite_of_ne hm c.2 (hne r hr b (.inr hb))]
    exact h.dst r hr b hb
  · rw [memRead_memWrite hm, memRead_memWrite hstored, h.other b hb]
  · rw [memRead_memWrite_of_ne hm c.2 (hne r hr b (.inl hb))]
    exact h.src r hr b hb

/-- An engine write makes one destination byte final. -/
theorem OldOrFinal.engine_write {i : Instr} {s t : State} {stored m : List Host.Cell} (h : OldOrFinal i s t stored m)
    (hm : Memory.wf m = true) {r : Regions} (hr : commandRegions i s = some r)
    (hc : checkRegions s.platform.memSize r = .noError) {k : Nat} (hk : k < r.dst.len) {v : Byte}
    (hv : memRead t.mem (r.dst.start + k) = v) : OldOrFinal i s t stored (memWrite m (r.dst.start + k) v) := by
  refine ⟨fun q hq b hb => ?_, fun b hb => ?_, fun q hq b hb => ?_⟩
  · rw [memRead_memWrite hm]
    split
    next e => exact .inr (e ▸ hv.symm)
    · exact h.dst q hq b hb
  · have hout := not_holds_iff.1 (hb r hr)
    rw [memRead_memWrite_of_ne hm v (by omega)]
    exact h.other b hb
  · obtain rfl : q = r := Option.some.inj (hq.symm.trans hr)
    obtain ⟨hle, hlt⟩ := holds_iff.1 hb
    have hne := regions_disjoint hc (j := b - q.src.start) (by omega) hk
    rw [memRead_memWrite_of_ne hm v (by omega)]
    exact h.src q hq b hb

theorem Underway.act_noRace {i : Instr} {s t u : State} {acts : List Action} (h : Underway i s t acts u)
    (hcomp : Completes i s t) {a : Action} (ha : a.noRace s = true) :
    ∃ v, act a u = .next v ∧ Underway i s t (acts ++ [a]) v := by
  have hb := h.same.busy.trans hcomp.running.1
  obtain ⟨v, hv, hvb, hvr, hm, hflags⟩ := Machine.act_noRace h.same hb h.notRaced ha
  refine ⟨v, hv, act_keeps_inv h.inv hv, h.same.trans (act_sameCommand hb hv hvb), hvr, fun hall => ?_, ?_⟩
  · obtain ⟨h1, h2⟩ := h.flags fun c hc => hall c (List.mem_append_left _ hc)
    obtain ⟨h3, h4, -⟩ := hflags (hall a (by simp))
    exact ⟨h3.trans h1, h4.trans h2⟩
  · rw [hostStored_append]
    rcases hm with ⟨hnone, hm⟩ | ⟨c, hsome, hout, hm⟩ | ⟨hnone, j, r, k, hact, hk, hm⟩ <;> rw [hm]
    · rw [hostStored_of_no_store _ hnone]
      exact h.mem
    · rw [hostStored_of_store _ hsome]
      exact h.mem.host_write h.inv.memWf (hostStored_wf hcomp.inv.memWf acts) hcomp.running hout
    · obtain ⟨rfl, hr, hc⟩ := regions_of_activeTransfer hcomp.running hact
      rw [hostStored_of_no_store _ hnone]
      exact h.mem.engine_write h.inv.memWf hr hc hk ((hcomp.final hr hc hk).trans (h.final_values hr hk).symm)

/-- A step that performs the next action, which races nothing. -/
theorem Underway.step_noRace {i : Instr} {s t u : State} {acts rest : List Action} (h : Underway i s t acts u)
    (hcomp : Completes i s t) {a : Action} (ha : a.noRace s = true) (hs : u.schedule = a :: rest) :
    ∃ v, step u = .next v ∧ v.schedule = rest ∧ Underway i s t (acts ++ [a]) v := by
  obtain ⟨v, hv, hw⟩ := (h.with_schedule rest).act_noRace hcomp ha
  exact ⟨v, (step_of_cons hs).trans hv, (act_keepsAgents hv).2, hw⟩

theorem Underway.run_noRace {i : Instr} {s t : State} (hcomp : Completes i s t) {rest : List Action} (l : List Action) :
    ∀ (acts : List Action) (u : State), Underway i s t acts u → (∀ a ∈ l, a.noRace s = true) → u.schedule = l ++ rest →
    ∃ v, runSteps l.length u = .next v ∧ v.schedule = rest ∧ Underway i s t (acts ++ l) v := by
  induction l with
  | nil =>
    intro acts u h _ hs
    exact ⟨u, rfl, hs, (List.append_nil acts).symm ▸ h⟩
  | cons a l ih =>
    intro acts u h ha hs
    obtain ⟨v, hv, hsv, hw⟩ := h.step_noRace hcomp (ha a List.mem_cons_self) hs
    obtain ⟨x, hx, hsx, hux⟩ := ih _ v hw (fun b hb => ha b (List.mem_cons_of_mem a hb)) hsv
    rw [List.append_assoc, List.singleton_append] at hux
    exact ⟨x, (runSteps_succ _ hv).trans hx, hsx, hux⟩

/-! ### Old or final, while BUSY and after a reset (R58, R125) -/

/-- States with the same command in flight and the same STATUS but for WIGN differ only in what they do not share. -/
theorem SameCommand.eq_with {s u : State} (h : SameCommand s u) (hd : u.done = s.done) (he : u.err = s.err)
    (hc : u.errCode = s.errCode) :
    u = { s with engine := u.engine, mem := u.mem, schedule := u.schedule, irqEn := u.irqEn, wign := u.wign,
                 answers := u.answers, draws := u.draws } := by
  obtain ⟨-, hp, ⟨h1, h2, h3, h4, h5⟩, h6, h7, h8, h9⟩ := h
  cases u
  simp only at hp h1 h2 h3 h4 h5 h6 h7 h8 h9 hd he hc
  simp only [hp, h1, h2, h3, h4, h5, h6, h7, h8, h9, hd, he, hc]

/-- A command in flight has DONE, ERR and ERRCODE clear, so all states in which it is have them alike. -/
theorem Underway.flags_eq {i : Instr} {s t u : State} {acts : List Action} (h : Underway i s t acts u)
    (hcomp : Completes i s t) : u.done = s.done ∧ u.err = s.err ∧ u.errCode = s.errCode := by
  have hb := h.same.busy.trans hcomp.running.1
  obtain ⟨hd, -⟩ := h.inv.busyFlags hb
  obtain ⟨he, hc⟩ := h.inv.no_error_of_busy hb
  obtain ⟨hd', -⟩ := hcomp.inv.busyFlags hcomp.running.1
  obtain ⟨he', hc'⟩ := hcomp.inv.no_error_of_busy hcomp.running.1
  exact ⟨hd.trans hd'.symm, he.trans he'.symm, hc.trans hc'.symm⟩

/-- Equal flags read alike. -/
theorem readReg_eq_of_flags {s u : State} (h : SameCommand s u) (hd : u.done = s.done) (he : u.err = s.err)
    (hc : u.errCode = s.errCode) (hq : u.irqEn = s.irqEn) (hw : u.wign = s.wign) (r : Reg) : readReg u r = readReg s r := by
  by_cases hctrl : r = .ctrl
  · subst hctrl
    simp [readReg, ctrlWord, hq]
  by_cases hstatus : r = .status
  · subst hstatus
    simp [readReg, statusWord, hd, he, hc, hw, h.busy]
  exact h.registers.readReg_eq hctrl hstatus

/-- Settles O51: the actions that race nothing lead to a state of the command still at work. -/
theorem oldOrFinalWhileBusy : Obligations.OldOrFinalWhileBusy := by
  intro s t i acts rest hinv hrun hraced hexec hacts hs
  have hcomp : Completes i s t := ⟨hinv, hrun, hraced, hexec⟩
  obtain ⟨u, hu, hsu, hw⟩ := Underway.run_noRace hcomp acts [] s hcomp.start hacts hs
  rw [List.nil_append] at hw
  obtain ⟨hd, he, hc⟩ := hw.flags_eq hcomp
  refine ⟨u, hu, hw.same.busy.trans hrun.1, hw.notRaced, hsu ▸ hw.same.eq_with hd he hc,
    fun r hctrl hstatus => hw.same.registers.readReg_eq hctrl hstatus, fun hall => ?_, hw.mem.dst, hw.mem.other, hw.mem.src,
    fun b q hb hco => ?_⟩
  · obtain ⟨hq, hwign⟩ := hw.flags hall
    exact readReg_eq_of_flags hw.same hd he hc hq hwign
  · have hp := hw.same.platform
    exact (step_memRead (s := { u with schedule := .memRead b :: q }) (hp ▸ hb) rfl).trans
      (congrArg _ (hostMemLoad_of_coherent (s := { u with schedule := q }) (hp ▸ hco)))

theorem runSteps_add {n : Nat} (m : Nat) : ∀ {s t : State}, runSteps n s = .next t →
    runSteps (n + m) s = runSteps m t := by
  induction n with
  | zero =>
    intro s t h
    cases h
    rw [Nat.zero_add]
  | succ n ih =>
    intro s t h
    cases hstep : step s with
    | next u =>
      rw [runSteps_succ n hstep] at h
      rw [Nat.add_right_comm, runSteps_succ (n + m) hstep]
      exact ih h
    | fault f => simp [runSteps, hstep] at h
    | refused r => simp [runSteps, hstep] at h

/-- One more step. -/
theorem runSteps_then {n : Nat} {s t : State} (h : runSteps n s = .next t) : runSteps (n + 1) s = step t :=
  (runSteps_add 1 h).trans (runSteps_one t)

/-- Settles O52: reset keeps the memory of a command still at work, and nothing else of it. -/
theorem resetAbandonsTheCommand : Obligations.ResetAbandonsTheCommand := by
  intro s t i acts rest hinv hrun hraced hexec hacts hs
  have hcomp : Completes i s t := ⟨hinv, hrun, hraced, hexec⟩
  obtain ⟨u, hu, hsu, hw⟩ := Underway.run_noRace hcomp acts [] s hcomp.start hacts hs
  rw [List.nil_append] at hw
  refine ⟨_, (runSteps_then hu).trans (step_reset hsu), rfl, rfl, rfl, rfl, rfl, rfl, rfl, rfl, rfl,
    fun r hr k hk => hw.mem.dst r hr _ (holds_iff.2 (by omega)), fun b hb => hw.mem.other b fun r hr => ?_⟩
  exact not_holds_iff.2 (hb r hr)

end Sys2Proof.Machine
end

section
/-!
PROOFS of the statements about the orders of a command's memory actions: every order ends as the one-step command does, and
every mix of old and final bytes is reached by some order (spec/20_memory.md R58, spec/40_commands.md R72,
spec/70_reset_and_hazards.md R125).
-/
namespace Sys2Proof.Machine

/-! ### Two runs side by side, one of them without the engine's accesses -/

/-- Two states agree in what the host's own actions reach besides memory. -/
structure SameView (x y : State) : Prop where
  irqEn : x.irqEn = y.irqEn
  wign : x.wign = y.wign
  draws : x.draws = y.draws
  answers : x.answers.length = y.answers.length

/-- The command of `s` is at work in `x`, after `acts`, and in `y`, after `acts'`, and the host has done the same in both. -/
structure Abreast (i : Instr) (s t : State) (acts acts' : List Action) (x y : State) : Prop where
  left : Underway i s t acts x
  right : Underway i s t acts' y
  stored : hostStored s.mem acts = hostStored s.mem acts'
  view : SameView x y

/-- No action of `l` is a host read of a destination byte of command `i` in `s`. -/
def NoDestinationRead (i : Instr) (s : State) (l : List Action) : Prop :=
  ∀ b, .memRead b ∈ l → ∀ r, commandRegions i s = some r → r.dst.holds b = false

theorem writeReg_sameView {x y : State} (h : SameView x y) (hx : x.busy = true) (hy : y.busy = true) (r : Reg) (v : Word) :
    SameView (writeReg r v x) (writeReg r v y) := by
  obtain ⟨h1, h2, h3, h4⟩ := h
  cases r
  case status => exact ⟨h1, by simp [writeReg, h2], h3, h4⟩
  case ctrl => exact ⟨rfl, h2, h3, h4⟩
  case id | pixCount | padBits => exact ⟨h1, h2, h3, h4⟩
  all_goals
    rw [writeReg_locked_of_busy v (by decide) hx, writeReg_locked_of_busy v (by decide) hy]
    exact ⟨h1, rfl, h3, h4⟩

theorem writeReg_answers (r : Reg) (v : Word) (s : State) : (writeReg r v s).answers = s.answers := by
  cases hb : s.busy <;> cases r <;> simp [writeReg, lockedWrite, hb]

/-- On the same platform a register access does the same: the write of one register, or nothing. -/
theorem hostRegWrite_cases_of_platform {x y : State} (hp : x.platform = y.platform) (addr size : Nat) (v : Word) :
    (∃ r, hostRegWrite addr size v x = writeReg r v x ∧ hostRegWrite addr size v y = writeReg r v y) ∨
      (hostRegWrite addr size v x = x ∧ hostRegWrite addr size v y = y) := by
  unfold hostRegWrite
  rw [hp]
  split
  · split
    next r _ => exact .inl ⟨r, rfl, rfl⟩
    · exact .inr ⟨rfl, rfl⟩
  · exact .inr ⟨rfl, rfl⟩
  · exact .inr ⟨rfl, rfl⟩

theorem portAnswer_congr {x y : State} (hp : x.platform = y.platform) (hr : ∀ r, readReg x r = readReg y r)
    (addr size : Nat) : portAnswer addr size x = portAnswer addr size y := by
  simp only [portAnswer, hp, hr]

theorem Abreast.same {i : Instr} {s t x y : State} {acts acts' : List Action} (h : Abreast i s t acts acts' x y) :
    SameCommand y x := h.right.same.symm.trans h.left.same

theorem Abreast.flags_eq {i : Instr} {s t x y : State} {acts acts' : List Action} (h : Abreast i s t acts acts' x y)
    (hcomp : Completes i s t) : x.done = y.done ∧ x.err = y.err ∧ x.errCode = y.errCode := by
  obtain ⟨h1, h2, h3⟩ := h.left.flags_eq hcomp
  obtain ⟨h4, h5, h6⟩ := h.right.flags_eq hcomp
  exact ⟨h1.trans h4.symm, h2.trans h5.symm, h3.trans h6.symm⟩

/-- Outside the destination the two memories read alike. -/
theorem Abreast.memRead_other {i : Instr} {s t x y : State} {acts acts' : List Action} (h : Abreast i s t acts acts' x y)
    {b : Nat} (hb : ∀ r, commandRegions i s = some r → r.dst.holds b = false) : memRead x.mem b = memRead y.mem b := by
  rw [h.left.mem.other b hb, h.right.mem.other b hb, h.stored]

/-- A host action that races nothing does the same in both, but for what a read of the destination answers. -/
theorem Abreast.host_view {i : Instr} {s t x y x' y' : State} {acts acts' : List Action}
    (h : Abreast i s t acts acts' x y) (hcomp : Completes i s t) {a : Action} (ha : a.noRace s = true)
    (hhost : a.isEngineAccess = false) (hx : act a x = .next x') (hy : act a y = .next y') :
    SameView x' y' ∧ (NoDestinationRead i s [a] → x.answers = y.answers → x'.answers = y'.answers) := by
  have hp := h.same.platform
  obtain ⟨h1, h2, h3, h4⟩ := h.view
  cases a with
  | regRead addr size =>
    cases hx; cases hy
    obtain ⟨hd, he, hc⟩ := h.flags_eq hcomp
    have hans := portAnswer_congr hp (readReg_eq_of_flags h.same hd he hc h1 h2) addr size
    exact ⟨⟨h1, h2, h3, by simp [h4]⟩, fun _ he => by simp [hans, he]⟩
  | regWrite addr size v =>
    cases hx; cases hy
    have hbx := h.left.same.busy.trans hcomp.running.1
    have hby := h.right.same.busy.trans hcomp.running.1
    rcases hostRegWrite_cases_of_platform hp addr size v with ⟨r, ex, ey⟩ | ⟨ex, ey⟩ <;> rw [ex, ey]
    · exact ⟨writeReg_sameView h.view hbx hby r v, fun _ he => by rw [writeReg_answers, writeReg_answers, he]⟩
    · exact ⟨h.view, fun _ he => he⟩
  | memRead b =>
    obtain ⟨-, rfl⟩ := hostMemAccess_eq_next.1 hx
    obtain ⟨-, rfl⟩ := hostMemAccess_eq_next.1 hy
    cases hco : x.platform.hostCoherent with
    | true =>
      rw [hostMemLoad_of_coherent hco, hostMemLoad_of_coherent (hp ▸ hco)]
      exact ⟨⟨h1, h2, h3, by simp [h4]⟩, fun hno he => by simp [he, h.memRead_other (hno b (by simp))]⟩
    | false =>
      rw [hostMemLoad_of_not_coherent hco, hostMemLoad_of_not_coherent (hp ▸ hco)]
      exact ⟨⟨h1, h2, by simp [h3], by simp [h4]⟩, fun _ he => by simp [he, h3]⟩
  | memWrite b v =>
    obtain ⟨-, rfl⟩ := hostMemAccess_eq_next.1 hx
    obtain ⟨-, rfl⟩ := hostMemAccess_eq_next.1 hy
    obtain ⟨-, hout⟩ := noRace_memWrite ha
    rw [hostMemStore_of_sameCommand h.left.same hout, hostMemStore_of_sameCommand h.right.same hout]
    exact ⟨⟨h1, h2, h3, h4⟩, fun _ he => he⟩
  | reset => cases ha
  | engineRead k => cases hhost
  | engineWrite k => cases hhost
  | engineFinish => cases ha

/-- A host action that races nothing, performed in both runs. -/
theorem Abreast.host_step {i : Instr} {s t x y : State} {acts acts' restx resty : List Action}
    (h : Abreast i s t acts acts' x y) (hcomp : Completes i s t) {a : Action} (ha : a.noRace s = true)
    (hhost : a.isEngineAccess = false) (hx : x.schedule = a :: restx) (hy : y.schedule = a :: resty) :
    ∃ x' y', step x = .next x' ∧ step y = .next y' ∧ x'.schedule = restx ∧ y'.schedule = resty ∧
      Abreast i s t (acts ++ [a]) (acts' ++ [a]) x' y' ∧
      (NoDestinationRead i s [a] → x.answers = y.answers → x'.answers = y'.answers) := by
  obtain ⟨x', hx', hwx⟩ := (h.left.with_schedule restx).act_noRace hcomp ha
  obtain ⟨y', hy', hwy⟩ := (h.right.with_schedule resty).act_noRace hcomp ha
  have h' : Abreast i s t acts acts' { x with schedule := restx } { y with schedule := resty } :=
    ⟨h.left.with_schedule restx, h.right.with_schedule resty, h.stored, ⟨h.view.1, h.view.2, h.view.3, h.view.4⟩⟩
  obtain ⟨hview, hans⟩ := h'.host_view hcomp ha hhost hx' hy'
  refine ⟨x', y', (step_of_cons hx).trans hx', (step_of_cons hy).trans hy', (act_keepsAgents hx').2, (act_keepsAgents hy').2,
    ⟨hwx, hwy, ?_, hview⟩, hans⟩
  rw [hostStored_append, hostStored_append, h.stored]

theorem store_of_engineAccess {a : Action} (h : a.isEngineAccess = true) : a.store = none := by
  cases a with
  | engineRead k => rfl
  | engineWrite k => rfl
  | _ => cases h

/-- An engine access, performed in the first run alone. -/
theorem Abreast.engine_step {i : Instr} {s t x y : State} {acts acts' restx : List Action}
    (h : Abreast i s t acts acts' x y) (hcomp : Completes i s t) {a : Action} (ha : a.noRace s = true)
    (heng : a.isEngineAccess = true) (hx : x.schedule = a :: restx) :
    ∃ x', step x = .next x' ∧ x'.schedule = restx ∧ Abreast i s t (acts ++ [a]) acts' x' y ∧ x'.answers = x.answers := by
  obtain ⟨x', hx', hwx⟩ := (h.left.with_schedule restx).act_noRace hcomp ha
  have hbx : State.busy { x with schedule := restx } = true := h.left.same.busy.trans hcomp.running.1
  obtain ⟨v, hv, -, -, -, hkeep⟩ := act_noRace (h.left.with_schedule restx).same hbx h.left.notRaced ha
  obtain rfl : x' = v := Host.Outcome.next.inj (hx'.symm.trans hv)
  obtain ⟨k1, k2, k3, k4⟩ := hkeep heng
  obtain ⟨h1, h2, h3, h4⟩ := h.view
  refine ⟨x', (step_of_cons hx).trans hx', (act_keepsAgents hx').2,
    ⟨hwx, h.right, ?_, ⟨k1.trans h1, k2.trans h2, k3.trans h3, (congrArg List.length k4).trans h4⟩⟩, k4⟩
  rw [hostStored_append, hostStored_of_no_store _ (store_of_engineAccess heng), h.stored]

/-- The whole list in the first run, and the host's own actions of it in the second. -/
theorem Abreast.run {i : Instr} {s t : State} (hcomp : Completes i s t) {restx resty : List Action} (l : List Action) :
    ∀ (acts acts' : List Action) (x y : State), Abreast i s t acts acts' x y → (∀ a ∈ l, a.noRace s = true) →
    x.schedule = l ++ restx → y.schedule = hostOnly l ++ resty →
    ∃ u v c d, runSteps l.length x = .next u ∧ runSteps (hostOnly l).length y = .next v ∧
      u.schedule = restx ∧ v.schedule = resty ∧ Abreast i s t c d u v ∧
      (NoDestinationRead i s l → x.answers = y.answers → u.answers = v.answers) := by
  induction l with
  | nil =>
    intro acts acts' x y h _ hx hy
    exact ⟨x, y, acts, acts', rfl, rfl, hx, hy, h, fun _ he => he⟩
  | cons a l ih =>
    intro acts acts' x y h ha hx hy
    have hna := ha a List.mem_cons_self
    have hnl : ∀ b ∈ l, b.noRace s = true := fun b hb => ha b (List.mem_cons_of_mem a hb)
    have hhead : NoDestinationRead i s (a :: l) → NoDestinationRead i s [a] := fun hno b hb =>
      hno b (List.mem_cons.2 (.inl (List.mem_singleton.1 hb)))
    have htail : NoDestinationRead i s (a :: l) → NoDestinationRead i s l := fun hno b hb =>
      hno b (List.mem_cons_of_mem a hb)
    cases heng : a.isEngineAccess with
    | true =>
      have hskip : hostOnly (a :: l) = hostOnly l := by simp [hostOnly, heng]
      rw [hskip] at hy ⊢
      obtain ⟨x', hstep, hx', h', hsame⟩ := h.engine_step hcomp hna heng hx
      obtain ⟨u, v, c, d, hu, hv, hsu, hsv, huv, hans⟩ := ih _ _ x' y h' hnl hx' hy
      exact ⟨u, v, c, d, (runSteps_succ _ hstep).trans hu, hv, hsu, hsv, huv, fun hno he => hans (htail hno) (hsame.trans he)⟩
    | false =>
      have hkeep : hostOnly (a :: l) = a :: hostOnly l := by simp [hostOnly, heng]
      rw [hkeep] at hy ⊢
      obtain ⟨x', y', hsx, hsy, hx', hy', h', hone⟩ := h.host_step hcomp hna heng hx hy
      obtain ⟨u, v, c, d, hu, hv, hsu, hsv, huv, hans⟩ := ih _ _ x' y' h' hnl hx' hy'
      exact ⟨u, v, c, d, (runSteps_succ _ hsx).trans hu, (runSteps_succ _ hsy).trans hv, hsu, hsv, huv,
        fun hno he => hans (htail hno) (hone (hhead hno) he)⟩

/-! ### The completion after either run (R58) -/

theorem exec_answers (i : Instr) (s : State) : ∃ t, exec i s = .next t := by
  rcases exec_cases i s with ⟨-, e⟩ | ⟨r, -, -, e⟩ | ⟨r, -, -, e⟩ <;> exact ⟨_, e⟩

/-- Two states abreast with the same schedule differ in the engine's progress, in memory and in the answers. -/
theorem Abreast.eq_with {i : Instr} {s t x y : State} {acts acts' : List Action} (h : Abreast i s t acts acts' x y)
    (hcomp : Completes i s t) (hs : x.schedule = y.schedule) :
    x = { y with engine := x.engine, mem := x.mem, answers := x.answers } := by
  obtain ⟨hd, he, hc⟩ := h.flags_eq hcomp
  obtain ⟨hq, hw, hdr, -⟩ := h.view
  have e := h.same.eq_with hd he hc
  rwa [hq, hw, hdr, hs] at e

/-- Where the command writes nothing, because it has no regions or fails a check, the two memories are equal. -/
theorem Abreast.mem_eq {i : Instr} {s t x y : State} {acts acts' : List Action} (h : Abreast i s t acts acts' x y)
    (hnone : ∀ r, commandRegions i s = some r → t.mem = s.mem) : x.mem = y.mem := by
  refine memory_ext h.left.inv.memWf h.right.inv.memWf fun b => ?_
  by_cases hb : ∀ r, commandRegions i s = some r → r.dst.holds b = false
  · exact h.memRead_other hb
  · push Not at hb
    obtain ⟨r, hr, hin⟩ := hb
    have hin : r.dst.holds b = true := by simpa using hin
    have hx := h.left.mem.dst r hr b hin
    have hy := h.right.mem.dst r hr b hin
    rw [hnone r hr, or_self] at hx hy
    exact hx.trans hy.symm

/-- A transfer that passed its checks leaves the same memory after either run: each destination byte is final. -/
theorem Abreast.transfer {i : Instr} {s t x y : State} {acts acts' : List Action} (h : Abreast i s t acts acts' x y)
    (hcomp : Completes i s t) {r : Regions} (hr : commandRegions i s = some r)
    (hc : checkRegions s.platform.memSize r = .noError) :
    ∃ m, exec i x = .next (completeOk (commandResults i x { x with mem := m })) ∧
      exec i y = .next (completeOk (commandResults i y { y with mem := m })) := by
  obtain ⟨m, hx, hdx, hox⟩ := exec_transfer h.left.inv (h.left.running hcomp) h.left.notRaced
    ((h.left.same.commandRegions i).trans hr) (h.left.same.platform ▸ hc)
  obtain ⟨n, hy, hdy, hoy⟩ := exec_transfer h.right.inv (h.right.running hcomp) h.right.notRaced
    ((h.right.same.commandRegions i).trans hr) (h.right.same.platform ▸ hc)
  have hm : Memory.wf m = true := by simpa using (exec_keeps_inv h.left.inv hx).memWf
  have hn : Memory.wf n = true := by simpa using (exec_keeps_inv h.right.inv hy).memWf
  have hmn : m = n := memory_ext hm hn fun b => by
    cases hb : r.dst.holds b with
    | true =>
      obtain ⟨hle, hlt⟩ := holds_iff.1 hb
      obtain ⟨k, rfl⟩ := Nat.exists_eq_add_of_le hle
      rw [hdx k (by omega), hdy k (by omega), h.left.final_values hr (by omega), h.right.final_values hr (by omega)]
    | false =>
      have hout := not_holds_iff.1 hb
      rw [hox b hout, hoy b hout]
      exact h.memRead_other fun q hq => Option.some.inj (hr.symm.trans hq) ▸ hb
  exact ⟨m, hx, hmn ▸ hy⟩

/-- After either run the command completes to the same state, but for the answers. -/
theorem Abreast.complete {i : Instr} {s t x y : State} {acts acts' : List Action} (h : Abreast i s t acts acts' x y)
    (hcomp : Completes i s t) (hs : x.schedule = y.schedule) :
    ∃ u v, exec i x = .next u ∧ exec i y = .next v ∧ u = { v with answers := x.answers } ∧ v.answers = y.answers := by
  have hrx := h.left.same.commandRegions i
  have hry := h.right.same.commandRegions i
  have hpx := h.left.same.platform
  have hpy := h.right.same.platform
  have hxy := h.eq_with hcomp hs
  cases hr : commandRegions i s with
  | none =>
    refine ⟨_, _, exec_of_no_regions (hrx.trans hr), exec_of_no_regions (hry.trans hr), ?_, by simp⟩
    rw [hxy, h.mem_eq fun r hr' => nomatch hr.symm.trans hr']
    cases i <;> rfl
  | some r =>
    by_cases hc : checkRegions s.platform.memSize r = .noError
    · obtain ⟨m, hx, hy⟩ := h.transfer hcomp hr hc
      refine ⟨_, _, hx, hy, ?_, by simp⟩
      rw [hxy]
      cases i <;> rfl
    · have ht : t = raiseError _ s := Host.Outcome.next.inj (hcomp.exec.symm.trans (exec_of_check_fails hr hc))
      refine ⟨_, _, exec_of_check_fails (hrx.trans hr) (hpx ▸ hc), exec_of_check_fails (hry.trans hr) (hpy ▸ hc), ?_, by simp⟩
      rw [hxy, h.mem_eq fun _ _ => by rw [ht, raiseError_mem]]
      rfl

/-- Settles O50: the two runs stay abreast, and the completion makes their memories equal. -/
theorem anyEngineOrderEqualsOneStep : Obligations.AnyEngineOrderEqualsOneStep := by
  intro s i acts rest hinv hrun hraced hacts hs
  obtain ⟨t, ht⟩ := exec_answers i s
  have hcomp : Completes i s t := ⟨hinv, hrun, hraced, ht⟩
  have hstart : Abreast i s t [] [] s { s with schedule := hostOnly acts ++ rest } :=
    ⟨hcomp.start, hcomp.start.with_schedule _, rfl, ⟨rfl, rfl, rfl, rfl⟩⟩
  obtain ⟨x, y, c, d, hx, hy, hsx, hsy, hxy, hans⟩ := Abreast.run hcomp acts [] [] _ _ hstart hacts hs rfl
  have hxy' : Abreast i s t c d { x with schedule := rest } y :=
    ⟨hxy.left.with_schedule rest, hxy.right, hxy.stored, ⟨hxy.view.1, hxy.view.2, hxy.view.3, hxy.view.4⟩⟩
  obtain ⟨u, v, hu, hv, huv, hva⟩ := hxy'.complete hcomp hsy.symm
  have hua : u.answers = x.answers := by rw [huv]
  have hlast : runSteps (acts.length + 1) s = .next u :=
    calc runSteps (acts.length + 1) s = step x := runSteps_then hx
      _ = runCommand { x with schedule := rest } := step_engineFinish hsx
      _ = exec i { x with schedule := rest } := runCommand_of_running (hxy'.left.running hcomp)
      _ = .next u := hu
  refine ⟨y, u, v, hy, hv, hlast, hua ▸ huv, by rw [hua, hva, hxy.view.answers], fun hno => ?_⟩
  rw [huv, show x.answers = v.answers from (hans hno rfl).trans hva.symm]

/-! ### Every mix of old and final bytes (R125) -/

/-- The engine's accesses that make the bytes at the offsets `ks` final: each is read, where the source has it, and written. -/
def finalAccesses (ks : List Nat) : List Action := ks.flatMap fun k => [.engineRead k, .engineWrite k]

theorem finalAccesses_engine {ks : List Nat} {a : Action} (h : a ∈ finalAccesses ks) : a.isEngineAccess = true := by
  obtain ⟨k, -, hk⟩ := List.mem_flatMap.1 h
  simp only [List.mem_cons, List.not_mem_nil, or_false] at hk
  rcases hk with rfl | rfl <;> rfl

/-- After its read, if the source has byte `k`, nothing keeps the engine from writing destination byte `k`. -/
theorem engineRead_mayWrite {s : State} {p : Progress} {i : Instr} {r : Regions} {k : Nat} (hp : s.engine = .busy p)
    (ha : activeTransfer s = some (i, r)) (hk : k < r.dst.len) (hw : k ∉ p.written) :
    ∃ q, (engineRead k s).engine = .busy q ∧ mayWrite k r q = true ∧ q.written = p.written ∧ q.raced = p.raced ∧
      (engineRead k s).mem = s.mem := by
  by_cases hsrc : k < r.src.len
  · refine ⟨{ p with read := insertOffset k p.read }, ?_, ?_, rfl, rfl, ?_⟩
    · simp [engineRead, hp, ha, hsrc]
    · exact mayWrite_iff.2 ⟨hk, hw, fun _ => mem_insertOffset.2 (.inl rfl)⟩
    · simp [engineRead, hp, ha, hsrc]
  · have e : engineRead k s = s := by simp [engineRead, hp, ha, hsrc]
    exact ⟨p, e.symm ▸ hp, mayWrite_iff.2 ⟨hk, hw, fun h => absurd h hsrc⟩, rfl, rfl, by rw [e]⟩

/-- The two accesses of one offset make its byte final and change no other. -/
theorem Underway.make_final {i : Instr} {s t u : State} {acts rest : List Action} (h : Underway i s t acts u)
    (hcomp : Completes i s t) {r : Regions} (hact : activeTransfer s = some (i, r)) {k : Nat} (hk : k < r.dst.len)
    (hw : k ∉ u.progress.written) (hs : u.schedule = .engineRead k :: .engineWrite k :: rest) :
    ∃ v acts', runSteps 2 u = .next v ∧ v.schedule = rest ∧ Underway i s t acts' v ∧
      (∀ j, j ∈ v.progress.written ↔ j = k ∨ j ∈ u.progress.written) ∧
      ∀ b, memRead v.mem b = if b = r.dst.start + k then memRead t.mem b else memRead u.mem b := by
  obtain ⟨-, hr, hc⟩ := activeTransfer_eq_some.1 hact
  obtain ⟨p, hp⟩ := busy_iff.1 (h.same.busy.trans hcomp.running.1)
  rw [progress_of_engine_busy hp] at hw ⊢
  have hraced : p.raced = false := progress_of_engine_busy hp ▸ h.notRaced
  obtain ⟨x, hx, hsx, hux⟩ := h.step_noRace hcomp (a := .engineRead k) rfl hs
  obtain ⟨v, hv, hsv, huv⟩ := hux.step_noRace hcomp (a := .engineWrite k) rfl hsx
  have hxe : x = engineRead k { u with schedule := .engineWrite k :: rest } :=
    Host.Outcome.next.inj (hx.symm.trans (step_of_cons hs))
  obtain ⟨q, hq, hmay, hqw, hqr, hmem⟩ := engineRead_mayWrite (s := { u with schedule := .engineWrite k :: rest }) hp
    (h.same.activeTransfer.trans hact) hk hw
  rw [← hxe] at hq hmem
  have hve : v = engineWrite k { x with schedule := rest } := Host.Outcome.next.inj (hv.symm.trans (step_engineWrite hsx))
  rw [engineWrite_of_not_raced (s := { x with schedule := rest }) hq (hux.same.activeTransfer.trans hact) hmay
    (hqr.trans hraced)] at hve
  refine ⟨v, _, (runSteps_succ 1 hx).trans ((runSteps_one x).trans hv), hsv, huv, fun j => ?_, fun b => ?_⟩
  · rw [hve, ← hqw]
    exact mem_insertOffset
  · have hval := (hcomp.final hr hc hk).trans (hux.final_values hr hk).symm
    rw [hve]
    refine (memRead_memWrite hux.inv.memWf _ _ b).trans ?_
    split
    next e => rw [e]; exact hval.symm
    · rw [hmem]

/-- The accesses of a list of offsets make exactly their bytes final. -/
theorem Underway.make_all_final {i : Instr} {s t : State} (hcomp : Completes i s t) {r : Regions}
    (hact : activeTransfer s = some (i, r)) {rest : List Action} (ks : List Nat) : ∀ (acts : List Action) (u : State),
    Underway i s t acts u → ks.Nodup → (∀ k ∈ ks, k < r.dst.len ∧ k ∉ u.progress.written) →
    u.schedule = finalAccesses ks ++ rest →
    ∃ v, runSteps (finalAccesses ks).length u = .next v ∧ v.schedule = rest ∧
      ∀ k, memRead v.mem (r.dst.start + k) =
        if k ∈ ks then memRead t.mem (r.dst.start + k) else memRead u.mem (r.dst.start + k) := by
  induction ks with
  | nil =>
    intro acts u _ _ _ hs
    exact ⟨u, rfl, hs, fun k => by simp⟩
  | cons k ks ih =>
    intro acts u h hnd hks hs
    obtain ⟨hfresh, hnd⟩ := List.nodup_cons.1 hnd
    obtain ⟨hk, hw⟩ := hks k List.mem_cons_self
    obtain ⟨x, acts', hx, hsx, hux, hwritten, hmem⟩ := h.make_final hcomp hact hk hw hs
    have hks' : ∀ j ∈ ks, j < r.dst.len ∧ j ∉ x.progress.written := fun j hj => by
      obtain ⟨hj1, hj2⟩ := hks j (List.mem_cons_of_mem k hj)
      exact ⟨hj1, fun hin => ((hwritten j).1 hin).elim (fun e => hfresh (e ▸ hj)) hj2⟩
    obtain ⟨v, hv, hsv, hread⟩ := ih acts' x hux hnd hks' hsx
    refine ⟨v, ?_, hsv, fun j => ?_⟩
    · have hlen : (finalAccesses (k :: ks)).length = 2 + (finalAccesses ks).length := by
        rw [finalAccesses, List.flatMap_cons, List.length_append]
        rfl
      rw [hlen, runSteps_add _ hx, hv]
    · rw [hread j, hmem]
      by_cases hj : j = k
      · simp [hj, hfresh]
      · simp [hj]

/-- Settles O53: the accesses of the offsets chosen to be final, and then the reset. -/
theorem everyMixOfOldAndFinalIsReached : Obligations.EveryMixOfOldAndFinalIsReached := by
  intro s t i r final hinv hrun hfresh hexec herr hr
  have hcomp : Completes i s t := ⟨hinv, hrun, by rw [progress_of_engine_busy hfresh]; rfl, hexec⟩
  have hc : checkRegions s.platform.memSize r = .noError := by
    by_contra hne
    obtain rfl := Host.Outcome.next.inj ((exec_of_check_fails hr hne).symm.trans hexec)
    simp at herr
  have hnone : ∀ k ∈ (List.range r.dst.len).filter final, k < r.dst.len ∧ k ∉ s.progress.written := fun k hk => by
    rw [progress_of_engine_busy hfresh]
    exact ⟨List.mem_range.1 (List.mem_filter.1 hk).1, List.not_mem_nil⟩
  obtain ⟨v, hv, hsv, hread⟩ := Underway.make_all_final hcomp (activeTransfer_of_running hrun hr hc)
    ((List.range r.dst.len).filter final) [] _ (hcomp.start.with_schedule (_ ++ [.reset])) (List.nodup_range.filter _) hnone rfl
  refine ⟨_, _, fun a => finalAccesses_engine, (runSteps_then hv).trans (step_reset hsv), fun k hk => (hread k).trans ?_⟩
  simp [hk]

end Sys2Proof.Machine
end
